-- ==== Sys2Proof/Word.lean ====
section
/-! DEFINITION. The two bit-vector types of SAB-CORE: the 32-bit register word (00_scope.md R7, register width)
and the byte of buffer memory (00_scope.md R10, "A byte is an integer 0..255"). -/

namespace Sys2Proof

/-- A value of a register of the window: 32 bits (R7). -/
abbrev Word := BitVec 32

/-- A byte of buffer memory (R10, R34). -/
abbrev Byte := BitVec 8

end Sys2Proof
end

