-- ==== Sys2Proof/Config.lean ====
section
/-! DEFINITION. What an implementation fixes (00_scope.md R8: parameters a model takes as arguments) and the free
values the spec leaves open (93_implementation_defined.md, treatment "any value"). A free value is an opaque constant
with no body: nothing can evaluate it, so a claim that mentions it holds whatever it is. -/

namespace Sys2Proof

/-- The implementation parameters of R8. The two size parameters are stored one less than their value, so that the
bounds of R8 hold of every `Params` by its type (log 1). -/
structure Params where
  /-- `MEM_SIZE - 1`: R8 asks 1 ≤ MEM_SIZE ≤ 2^32. -/
  memSizeLess1 : BitVec 32
  /-- `LEN_MAX - 1`: R8 asks 1 ≤ LEN_MAX ≤ 2^31 - 1. -/
  lenMaxLess1 : Fin 2147483647
  /-- `IMPL_ID`, any 32-bit value (R8, R22). -/
  implId : Word
  deriving DecidableEq, Repr, Inhabited

/-- `MEM_SIZE` (R8): buffer memory has the addresses 0 to `MEM_SIZE - 1`. -/
def Params.memSize (p : Params) : Nat := p.memSizeLess1.toNat + 1

/-- `LEN_MAX` (R8): the largest source length and `PARAM` any command accepts. -/
def Params.lenMax (p : Params) : Nat := p.lenMaxLess1.val + 1

/-- The parameters of the implementation at hand, open (R8; log 1). -/
opaque Config.params : Params

/-- `FAULT_FILL` (R8, R64): the byte drawn at one occurrence (first argument) for one address (second). -/
opaque Config.faultFill : Nat → Nat → Byte

/-- How many host actions come between a command's acceptance and its completion (R112: unspecified and finite;
log 4), drawn at each acceptance. -/
opaque Config.completionDelay : Nat → Nat

/-- The value of RES0, RES1, RES2 (second argument 0, 1, 2) after a race (R72). -/
opaque Config.raceResult : Nat → Nat → Word

/-- Which of its possible outcomes a command that raced ends with (R72). -/
opaque Config.raceOutcome : Nat → Nat

/-- The element index or symbol a fault after a race reports (R72, R263; log 7). -/
opaque Config.raceIndex : Nat → Nat

/-- STATUS.TRAIL of an RLE_DEC that raced and ended with DONE (R72, R24; log 6). -/
opaque Config.raceTrail : Nat → Bool

/-- The byte a host read of a destination byte returns while the command is in progress (R72). -/
opaque Config.raceByte : Nat → Byte

/-- Which contents, the present or stale ones, a host read of a memory byte returns before the host has read STATUS with
BUSY = 0 (R298; log 26). -/
opaque Config.earlyByte : Nat → Nat

end Sys2Proof
end

