-- ==== Sys2Proof/Syntax.lean ====
section
/-! DEFINITION. The commands of SAB-CORE (30_encoding.md R94: one constructor per row of spec/opcode_table.json), the
fields of a command word (R91), the registers of the window (10_state.md R21), what a host does (R20, R98 to R100) and the
statements of a host script (R98, R99). -/

namespace Sys2Proof

/-- The 13 commands of R94. A command word has no operand field (R92), so no constructor has an argument. -/
inductive Instr where
  | nop
  | saPrep
  | saSais
  | saPd
  | bwtFwd
  | bwtInv
  | alphaScan
  | mtfEnc
  | mtfDec
  | rleEnc
  | rleDec
  | hufBuild
  | hufDec
  deriving DecidableEq, Repr

/-- The fields of a 32-bit command word (R91). -/
structure CmdFields where
  /-- Bits 31:8, reserved, must be 0. -/
  rsvd : BitVec 24
  /-- Bits 7:4, the engine selector. -/
  engine : BitVec 4
  /-- Bits 3:0, the function within the engine. -/
  func : BitVec 4
  deriving DecidableEq, Repr

/-- The named registers of the window (R21). -/
inductive Reg where
  | id | cmd | status | errinfo
  | src0Addr | src0Len | src1Addr | src1Len
  | dst0Addr | dst0Cap | dst1Addr | dst1Cap
  | param
  | res0 | res1 | res2
  deriving DecidableEq, Repr

/-- One action of the host or of the platform (R20, R98 to R100, R290). A window access names its width in bytes and its
offset from REG_BASE, so that the accesses R31 leaves without a meaning can be said (and refused). -/
inductive HostAction where
  /-- A write of `value` to the window. -/
  | writeWindow (bytes offset : Nat) (value : Word)
  /-- A read of the window. -/
  | readWindow (bytes offset : Nat)
  /-- A byte write to buffer memory. -/
  | writeByte (addr : Nat) (value : Byte)
  /-- A byte read of buffer memory. -/
  | readByte (addr : Nat)
  /-- The polling loop `WAIT` of R99: read STATUS until BUSY = 0. -/
  | wait
  /-- The comparison of `EXPECT` (R99) with the data of the last read. -/
  | expectData (value : Word)
  /-- The platform asserts reset (R290). -/
  | reset
  deriving DecidableEq, Repr

/-- `REG` in a host script (R98: "name or offset"). -/
inductive RegRef where
  /-- The name of a register (R21). -/
  | name (reg : Reg)
  /-- An offset from REG_BASE. -/
  | offset (offset : Nat)
  deriving DecidableEq, Repr

/-- The statements and pseudo-statements of a host script (R98, R99). -/
inductive Stmt where
  /-- `MEMW addr, b0, b1, ...` -/
  | memw (addr : Nat) (bytes : List Byte)
  /-- `MEMW addr, "text"` -/
  | memwText (addr : Nat) (text : String)
  /-- `MEMW32 addr, v0, v1, ...` -/
  | memw32 (addr : Nat) (values : List Word)
  /-- `WR REG, v` -/
  | wr (reg : RegRef) (value : Word)
  /-- `RD REG` -/
  | rd (reg : RegRef)
  /-- `; text` -/
  | comment (text : String)
  /-- `CMD MNEMONIC` -/
  | command (i : Instr)
  /-- `WAIT` -/
  | wait
  /-- `RUN MNEMONIC REG=v, REG=v, ...` -/
  | run (i : Instr) (writes : List (RegRef × Word))
  /-- `EXPECT REG = v` -/
  | expectReg (reg : RegRef) (value : Word)
  /-- `EXPECT mem[a..b) = b0, ...` -/
  | expectMem (addr : Nat) (bytes : List Byte)
  deriving DecidableEq, Repr

end Sys2Proof
end

