-- ==== Sys2Proof/WellFormed.lean ====
section
/-! DEFINITION. Well-formedness. A command has no operand of its own (30_encoding.md R92), so what can be ill formed
is the word that names it (R91, R94, R96) and a host's window access (10_state.md R31). -/

namespace Sys2Proof

/-- The FUNC values R94 defines for an ENGINE value; engines 7 to 15 are reserved and have none. -/
def definedFuncs (engine : BitVec 4) : List (BitVec 4) :=
  if engine = 0 then [0]
  else if engine = 1 then [1, 2, 3]
  else if engine = 2 then [1]
  else if engine = 3 then [1]
  else if engine = 4 then [1, 2, 3]
  else if engine = 5 then [1, 2]
  else if engine = 6 then [1, 2]
  else []

/-- Bits 31:8 are 0 (R91: "reserved, must be 0"). -/
def CmdFields.rsvdClear (f : CmdFields) : Bool := f.rsvd == 0

/-- ENGINE is none of the reserved values 7 to 15 (R91). -/
def CmdFields.engineDefined (f : CmdFields) : Bool := decide (f.engine.toNat ≤ 6)

/-- FUNC is one R94 defines for the engine. -/
def CmdFields.funcDefined (f : CmdFields) : Bool := (definedFuncs f.engine).contains f.func

/-- The word is one of R94's; every other word is illegal (R96). -/
def CmdFields.wellFormed (f : CmdFields) : Bool := f.rsvdClear && f.engineDefined && f.funcDefined

/-- The window accesses R31 defines: 32 bits wide, at an offset that is a multiple of 4, below 0x100. -/
def windowAccessOk (bytes offset : Nat) : Bool :=
  decide (bytes = 4) && decide (offset % 4 = 0) && decide (offset < 0x100)

/-- A host action is well formed if its window access, if it is one, is one R31 defines. -/
def HostAction.wellFormed : HostAction → Bool
  | .writeWindow bytes offset _ => windowAccessOk bytes offset
  | .readWindow bytes offset => windowAccessOk bytes offset
  | .writeByte _ _ => true
  | .readByte _ => true
  | .wait => true
  | .expectData _ => true
  | .reset => true

end Sys2Proof
end

