-- ==== Sys2Proof/Decode.lean ====
section
/-! DEFINITION. The decoder of 30_encoding.md R95, total on every 32-bit word and rejecting by name, and the encoder
written from the opcode map R94. -/

namespace Sys2Proof

/-- Why a word is Illegal (R96), in the order R95 tests it. -/
inductive DecodeError where
  /-- One of bits 31:8 is set. -/
  | reservedBits
  /-- ENGINE is one of the reserved values 7 to 15. -/
  | reservedEngine
  /-- FUNC is not defined for this engine. -/
  | undefinedFunc
  deriving DecidableEq, Repr

/-- The fields of a word (R91): RSVD 31:8, ENGINE 7:4, FUNC 3:0. -/
def fieldsOf (w : Word) : CmdFields where
  rsvd := w.extractLsb' 8 24
  engine := w.extractLsb' 4 4
  func := w.extractLsb' 0 4

/-- The word with these fields (R91, bit 31 first). -/
def CmdFields.toWord (f : CmdFields) : Word := f.rsvd ++ f.engine ++ f.func

/-- The command of an ENGINE and a FUNC value (R94, R95). -/
def lookup (engine func : BitVec 4) : Except DecodeError Instr :=
  match engine.toNat, func.toNat with
  | 0, 0 => .ok .nop
  | 1, 1 => .ok .saPrep
  | 1, 2 => .ok .saSais
  | 1, 3 => .ok .saPd
  | 2, 1 => .ok .bwtFwd
  | 3, 1 => .ok .bwtInv
  | 4, 1 => .ok .alphaScan
  | 4, 2 => .ok .mtfEnc
  | 4, 3 => .ok .mtfDec
  | 5, 1 => .ok .rleEnc
  | 5, 2 => .ok .rleDec
  | 6, 1 => .ok .hufBuild
  | 6, 2 => .ok .hufDec
  | e, _ => if e ≤ 6 then .error .undefinedFunc else .error .reservedEngine

/-- `decode` of R95. -/
def decode (w : Word) : Except DecodeError Instr :=
  let f := fieldsOf w
  if f.rsvd = 0 then lookup f.engine f.func else .error .reservedBits

/-- ENGINE and FUNC of a command (R94). -/
def Instr.fields : Instr → CmdFields
  | .nop => ⟨0, 0, 0⟩
  | .saPrep => ⟨0, 1, 1⟩
  | .saSais => ⟨0, 1, 2⟩
  | .saPd => ⟨0, 1, 3⟩
  | .bwtFwd => ⟨0, 2, 1⟩
  | .bwtInv => ⟨0, 3, 1⟩
  | .alphaScan => ⟨0, 4, 1⟩
  | .mtfEnc => ⟨0, 4, 2⟩
  | .mtfDec => ⟨0, 4, 3⟩
  | .rleEnc => ⟨0, 5, 1⟩
  | .rleDec => ⟨0, 5, 2⟩
  | .hufBuild => ⟨0, 6, 1⟩
  | .hufDec => ⟨0, 6, 2⟩

/-- A command is well formed if the word that names it is. -/
def Instr.wellFormed (i : Instr) : Bool := i.fields.wellFormed

/-- The CMD word of a command (R94). -/
def encode (i : Instr) : Word := i.fields.toWord

/-- The decoder on a row of spec/opcode_table.json: CMD32 is one 32-bit word (R90), so a number that does not fit 32
bits is no command word. -/
def decodeTableWord (nbits w : Nat) : Option Instr :=
  if nbits ≤ 32 ∧ w < 2 ^ 32 then
    match decode (BitVec.ofNat 32 w) with
    | .ok i => some i
    | .error _ => none
  else none

end Sys2Proof
end

