-- ==== Sys2Proof/Machine/State.lean ====
section
/-! DEFINITION. The state of the machine: the record of 10_state.md R41 (window registers, STATUS, buffer memory), the
implementation parameters (00_scope.md R8), and the model's own fields for the host side and the free values. Engine working
storage is no state (R38). -/

namespace Sys2Proof.Machine

/-- STATUS (R24): four flags and the error code; the reserved bits hold nothing. -/
structure Status where
  busy : Bool
  done : Bool
  err : Bool
  trail : Bool
  errcode : Byte
  deriving DecidableEq, Repr

/-- The nine argument registers (R26). -/
structure Args where
  src0Addr : Word
  src0Len : Word
  src1Addr : Word
  src1Len : Word
  dst0Addr : Word
  dst0Cap : Word
  dst1Addr : Word
  dst1Cap : Word
  param : Word
  deriving DecidableEq, Repr

/-- The result registers RES0, RES1, RES2 (R27). -/
structure Results where
  res0 : Word
  res1 : Word
  res2 : Word
  deriving DecidableEq, Repr

/-- The error codes of R260, by name. -/
inductive ErrorKind where
  | illegalCommand
  | tooLarge
  | addressError
  | bufferOverlap
  | outputOverflow
  | invalidArgument
  | entryOutOfRange
  | sentinelViolation
  | missingSentinel
  | multipleSentinel
  | symbolNotInAlphabet
  | indexOutOfRange
  | truncatedBitstream
  | invalidCode
  | codebookCorrupt
  | codeTooLong
  deriving DecidableEq, Repr

/-- `raise E(v)` (R12): an error and the value ERRINFO gets. -/
structure Raise where
  kind : ErrorKind
  info : Word
  deriving DecidableEq, Repr

/-- Buffer memory (R34): address and byte pairs, addresses strictly rising, no entry equal to what an unlisted address
reads as (`Memory.wf` of Machine/Ops.lean). -/
abbrev Memory := List Host.Cell

/-- Why the MODEL stops a run (a fault of the block, R262, is a next state and never one of these). -/
inductive Fault where
  /-- A host byte access at an address that buffer memory does not have (R34; log 11). Raised by the host actions
  `writeByte` and `readByte` only. Safe: the spec gives the access no effect, and the model goes no further. -/
  | bufferAddressOutside (addr : Nat)
  /-- A host script's `EXPECT` did not hold (R99: "the test fails"; log 13). Raised by the host action `expectData` only.
  Safe: the host's own test ends, and the model goes no further. -/
  | expectFailed
  deriving DecidableEq, Repr

/-- What the model has no meaning for. -/
inductive Refusal where
  /-- A command with no meaning yet. Raised by an arm of `exec` only; no arm of this model does. Safe. -/
  | notModelled (mnemonic : String)
  /-- A window access that is not an aligned 32-bit word at offsets 0x00 to 0xFC. Raised by the host actions
  `writeWindow` and `readWindow` only. Safe: R31 asks a model to refuse it. -/
  | windowAccess (bytes offset : Nat)
  deriving DecidableEq, Repr

/-- The state. -/
structure State where
  /-- The implementation parameters (R8), `ID` among them (R22); no step changes them. -/
  params : Params
  /-- CMD (R23). -/
  cmd : Word
  /-- STATUS (R24). -/
  status : Status
  /-- ERRINFO (R25). -/
  errinfo : Word
  /-- The argument registers (R26). -/
  args : Args
  /-- The result registers (R27). -/
  res : Results
  /-- Buffer memory (R34). -/
  mem : Memory
  /-- The model's own: the host's and the platform's actions still to come, next first (R20, R98; log 3). -/
  host : List HostAction
  /-- The model's own: how many host actions come before the completion of the command in progress (R112; log 4). -/
  delay : Nat
  /-- The model's own: a race of R72 has happened since the command in progress was accepted (log 6). -/
  raced : Bool
  /-- The model's own: how many draws of free values have been made (R64; log 5). -/
  draws : Nat
  /-- The model's own: the data the last host read returned (R30; log 8). -/
  readData : Word
  /-- The model's own: the contents of memory before each completion since which the host has not read STATUS with BUSY = 0,
  the last first (R71 (c), R298; log 26). -/
  stale : List Memory
  deriving DecidableEq, Repr

/-- STATUS after reset (R40): every flag and the error code 0. -/
def Status.reset : Status := ⟨false, false, false, false, 0⟩

/-- The argument registers after reset (R40). -/
def Args.reset : Args := ⟨0, 0, 0, 0, 0, 0, 0, 0, 0⟩

/-- The result registers after reset (R40), after acceptance (R111) and after a fault (R262): all 0. -/
def Results.zero : Results := ⟨0, 0, 0⟩

/-- The machine right after power-up reset (R40, R291). Memory lists nothing (log 2); the model's own fields are as log 15
says. -/
def State.reset : State where
  params := Config.params
  cmd := 0
  status := Status.reset
  errinfo := 0
  args := Args.reset
  res := Results.zero
  mem := []
  host := []
  delay := 0
  raced := false
  draws := 0
  readData := 0
  stale := []

end Sys2Proof.Machine
end

