-- ==== Sys2Proof/Machine/Flags.lean ====
section
/-! DEFINITION. STATUS: its word (10_state.md R24), the values acceptance, success and fault give it (40_sequencer.md R111,
R113, 60_exceptions.md R262), the numbers of the error codes and the stage that raises each (R260). -/

namespace Sys2Proof.Machine

/-- A flag as the bit `k` of a word. -/
def flagBit (b : Bool) (k : Nat) : Word := if b then BitVec.ofNat 32 (2 ^ k) else 0

/-- The STATUS word (R24): BUSY bit 0, DONE bit 1, ERR bit 2, TRAIL bit 3, ERRCODE bits 15:8, every other bit 0. -/
def Status.toWord (st : Status) : Word :=
  flagBit st.busy 0 ||| flagBit st.done 1 ||| flagBit st.err 2 ||| flagBit st.trail 3
    ||| (st.errcode.setWidth 32 <<< 8)

/-- The number of an error code (R260). -/
def ErrorKind.code : ErrorKind → Byte
  | .illegalCommand => 0x01
  | .tooLarge => 0x02
  | .addressError => 0x03
  | .bufferOverlap => 0x04
  | .outputOverflow => 0x05
  | .invalidArgument => 0x06
  | .entryOutOfRange => 0x07
  | .sentinelViolation => 0x08
  | .missingSentinel => 0x09
  | .multipleSentinel => 0x0A
  | .symbolNotInAlphabet => 0x0B
  | .indexOutOfRange => 0x0C
  | .truncatedBitstream => 0x0D
  | .invalidCode => 0x0E
  | .codebookCorrupt => 0x0F
  | .codeTooLong => 0x10

/-- The stage of R114 that raises an error (R260). -/
def ErrorKind.stage : ErrorKind → Nat
  | .illegalCommand => 1
  | .tooLarge => 2
  | .addressError => 3
  | .bufferOverlap => 4
  | .outputOverflow => 6
  | .invalidArgument => 5
  | .entryOutOfRange => 5
  | .sentinelViolation => 5
  | .missingSentinel => 5
  | .multipleSentinel => 5
  | .symbolNotInAlphabet => 5
  | .indexOutOfRange => 5
  | .truncatedBitstream => 5
  | .invalidCode => 5
  | .codebookCorrupt => 5
  | .codeTooLong => 5

/-- STATUS while a command is in progress (R111). -/
def busyStatus : Status := ⟨true, false, false, false, 0⟩

/-- STATUS after success (R113), with the TRAIL the command's rule gives. -/
def doneStatus (trail : Bool) : Status := ⟨false, true, false, trail, 0⟩

/-- STATUS after a fault (R262). -/
def errStatus (k : ErrorKind) : Status := ⟨false, false, true, false, k.code⟩

end Sys2Proof.Machine
end

