-- ==== Sys2Proof/Machine/Operands.lean ====
section
/-! DEFINITION. The operands of the commands: the operand table 30_encoding.md R93, element sizes and byte ranges
(20_memory.md R62), active ranges (R63), operand ids (40_sequencer.md R114). -/

namespace Sys2Proof.Machine

/-- An operand of a command (R93). -/
inductive Operand where
  | src0 | src1 | dst0 | dst1 | param
  deriving DecidableEq, Repr

/-- `id(k)` of R114 and R263. -/
def Operand.id : Operand → Nat
  | .src0 => 0
  | .src1 => 1
  | .dst0 => 2
  | .dst1 => 3
  | .param => 4

/-- The operand table of R93: the element size of each buffer operand a command uses (1 for bytes, 4 for suffix-array
entries, 6 for codebook entries; R62), and none for an operand it does not use. -/
def operandSize : Instr → Operand → Option Nat
  | .nop, _ => none
  | .saPrep, .src0 => some 1
  | .saPrep, .dst0 => some 1
  | .saPrep, _ => none
  | .saSais, .src0 => some 1
  | .saSais, .dst0 => some 4
  | .saSais, _ => none
  | .saPd, .src0 => some 1
  | .saPd, .dst0 => some 4
  | .saPd, _ => none
  | .bwtFwd, .src0 => some 1
  | .bwtFwd, .src1 => some 4
  | .bwtFwd, .dst0 => some 1
  | .bwtFwd, _ => none
  | .bwtInv, .src0 => some 1
  | .bwtInv, .dst0 => some 1
  | .bwtInv, _ => none
  | .alphaScan, .src0 => some 1
  | .alphaScan, .dst0 => some 1
  | .alphaScan, _ => none
  | .mtfEnc, .src0 => some 1
  | .mtfEnc, .src1 => some 1
  | .mtfEnc, .dst0 => some 1
  | .mtfEnc, _ => none
  | .mtfDec, .src0 => some 1
  | .mtfDec, .src1 => some 1
  | .mtfDec, .dst0 => some 1
  | .mtfDec, _ => none
  | .rleEnc, .src0 => some 1
  | .rleEnc, .dst0 => some 1
  | .rleEnc, _ => none
  | .rleDec, .src0 => some 1
  | .rleDec, .dst0 => some 1
  | .rleDec, _ => none
  | .hufBuild, .src0 => some 1
  | .hufBuild, .dst0 => some 6
  | .hufBuild, .dst1 => some 1
  | .hufBuild, _ => none
  | .hufDec, .src0 => some 1
  | .hufDec, .src1 => some 6
  | .hufDec, .dst0 => some 1
  | .hufDec, _ => none

/-- Only HUF_DEC reads PARAM (R93). -/
def usesParam (i : Instr) : Bool := decide (i = .hufDec)

/-- The address register of a buffer operand, as a natural number (R92, R93). PARAM has none. -/
def operandAddr (a : Args) : Operand → Nat
  | .src0 => a.src0Addr.toNat
  | .src1 => a.src1Addr.toNat
  | .dst0 => a.dst0Addr.toNat
  | .dst1 => a.dst1Addr.toNat
  | .param => 0

/-- The count register of an operand (R93): the element count of a source, the capacity of a destination, the value of
PARAM. -/
def operandCount (a : Args) : Operand → Nat
  | .src0 => a.src0Len.toNat
  | .src1 => a.src1Len.toNat
  | .dst0 => a.dst0Cap.toNat
  | .dst1 => a.dst1Cap.toNat
  | .param => a.param.toNat

/-- A byte range `[start, start + len)` of buffer addresses (R62). -/
structure Range where
  start : Nat
  len : Nat
  deriving DecidableEq, Repr

/-- The address lies in the range. -/
def Range.contains (r : Range) (addr : Nat) : Bool := decide (r.start ≤ addr ∧ addr < r.start + r.len)

/-- Two ranges overlap (R117): both non-empty, `p < q + m` and `q < p + l`. -/
def Range.overlaps (r q : Range) : Bool :=
  decide (0 < r.len ∧ 0 < q.len ∧ r.start < q.start + q.len ∧ q.start < r.start + r.len)

/-- The byte range of a buffer operand of element size `u` (R62): `[x[A], x[A] + u * x[N])`. -/
def rangeOfSize (a : Args) (k : Operand) (u : Nat) : Range := ⟨operandAddr a k, u * operandCount a k⟩

/-- The byte ranges, of those operands `ks` that a command uses. -/
def rangesOf (i : Instr) (a : Args) (ks : List Operand) : List Range :=
  ks.filterMap fun k => (operandSize i k).map (rangeOfSize a k)

/-- The used source ranges of a command (R63). -/
def srcRanges (i : Instr) (a : Args) : List Range := rangesOf i a [.src0, .src1]

/-- The used destination ranges of a command (R63), over their whole capacity (R62). -/
def dstRanges (i : Instr) (a : Args) : List Range := rangesOf i a [.dst0, .dst1]

/-- The address lies in one of the ranges. -/
def inRanges (rs : List Range) (addr : Nat) : Bool := rs.any fun r => r.contains addr

end Sys2Proof.Machine
end

