-- ==== Sys2Proof/Machine/Ops.lean ====
section
/-! DEFINITION. The named operations over memory and registers: buffer memory (10_state.md R34, 20_memory.md R60 to R69), the
operand readers and writers (00_scope.md R12, R13), acceptance (40_sequencer.md R111), the one way a command ends, taking a
fault (60_exceptions.md R262), and the reset event (70_reset_and_hazards.md R291, R292). -/

namespace Sys2Proof.Machine

/-! ## Buffer memory -/

/-- What an address that memory does not list reads as. R34 leaves the power-up contents open: DESIGN CHOICE, the byte 0
(unsafe; log 2). -/
def Memory.unlisted : Byte := 0

/-- The byte at an address. -/
def Memory.read : Memory → Nat → Byte
  | [], _ => Memory.unlisted
  | (b, w) :: m, a => if a = b then w else Memory.read m a

/-- Memory with the byte at `a` set to `v`, in canonical form. -/
def Memory.write : Memory → Nat → Byte → Memory
  | [], a, v => if v = Memory.unlisted then [] else [(a, v)]
  | (b, w) :: m, a, v =>
    if a < b then (if v = Memory.unlisted then (b, w) :: m else (a, v) :: (b, w) :: m)
    else if a = b then (if v = Memory.unlisted then m else (a, v) :: m)
    else (b, w) :: Memory.write m a v

/-- The canonical form: addresses strictly rising, no entry equal to what an unlisted address reads as. -/
abbrev Memory.wf (m : Memory) : Prop :=
  m.Pairwise (fun c d => c.1 < d.1) ∧ ∀ c ∈ m, c.2 ≠ Memory.unlisted

/-- `MemRead(a + i, 1)` for i in 0 .. n-1 (R12). -/
def Memory.readBytes (m : Memory) (a n : Nat) : List Byte := (List.range n).map fun i => m.read (a + i)

/-- `MemWrite(a + i, 1, bs[i])` for every index of `bs` (R12). -/
def Memory.writeBytes : Memory → Nat → List Byte → Memory
  | m, _, [] => m
  | m, a, b :: bs => Memory.writeBytes (m.write a b) (a + 1) bs

/-- The little-endian natural of a byte sequence (R12, R66): `sum of byte(k) * 256^k`. -/
def leNat : List Byte → Nat
  | [] => 0
  | b :: bs => b.toNat + 256 * leNat bs

/-- `MemRead(a, n)` (R12). -/
def Memory.readLE (m : Memory) (a n : Nat) : Nat := leNat (m.readBytes a n)

/-- The four bytes of a word, lowest address first (R66). -/
def leBytes (w : Word) : List Byte :=
  [w.extractLsb' 0 8, w.extractLsb' 8 8, w.extractLsb' 16 8, w.extractLsb' 24 8]

/-- Every byte of `[a, a + n)` takes a value of the `d`-th draw of FAULT_FILL (R64). -/
def Memory.fill (d : Nat) : Memory → Nat → Nat → Memory
  | m, _, 0 => m
  | m, a, n + 1 => (Memory.fill d m a n).write (a + n) (Config.faultFill d (a + n))

/-- A range becomes unspecified (R64): every byte of it that lies below MEM_SIZE. -/
def Memory.fillRange (d memSize : Nat) (m : Memory) (r : Range) : Memory :=
  m.fill d r.start (min r.len (memSize - r.start))

/-- The used destination ranges of a command become unspecified (R64). -/
def fillDsts (i : Instr) (s : State) : Memory :=
  (dstRanges i s.args).foldl (Memory.fillRange s.draws s.params.memSize) s.mem

/-! ## Operand readers and writers (R13) -/

/-- A codebook entry `(sym, len, code)` (R13, R62). -/
structure Entry where
  sym : Byte
  len : Byte
  code : Word
  deriving DecidableEq, Repr

/-- `Bytes(A, N)` of a source operand. -/
def State.bytesOf (s : State) (k : Operand) : List Byte :=
  s.mem.readBytes (operandAddr s.args k) (operandCount s.args k)

/-- `Words(A, N)` of a source operand, as naturals. -/
def State.wordsOf (s : State) (k : Operand) : List Nat :=
  (List.range (operandCount s.args k)).map fun i => s.mem.readLE (operandAddr s.args k + 4 * i) 4

/-- The codebook entry stored at an address (R13). -/
def Memory.readEntry (m : Memory) (a : Nat) : Entry where
  sym := m.read a
  len := m.read (a + 1)
  code := BitVec.ofNat 32 (m.readLE (a + 2) 4)

/-- `Entries(A, N)` of a source operand. -/
def State.entriesOf (s : State) (k : Operand) : List Entry :=
  (List.range (operandCount s.args k)).map fun i => s.mem.readEntry (operandAddr s.args k + 6 * i)

/-- What a command body puts in a destination: a sequence of bytes, of 32-bit words or of codebook entries (R120). -/
inductive Payload where
  | bytes (l : List Byte)
  | words (l : List Word)
  | entries (l : List Entry)
  deriving DecidableEq, Repr

/-- The element count of a payload. -/
def Payload.count : Payload → Nat
  | .bytes l => l.length
  | .words l => l.length
  | .entries l => l.length

/-- The six bytes of a codebook entry: sym, len, code little-endian (R13, R62). -/
def Entry.toBytes (e : Entry) : List Byte := e.sym :: e.len :: leBytes e.code

/-- The bytes `PutBytes`, `PutWords` or `PutEntries` writes (R13). -/
def Payload.toBytes : Payload → List Byte
  | .bytes l => l
  | .words l => l.flatMap leBytes
  | .entries l => l.flatMap Entry.toBytes

/-! ## Acceptance, the end of a command, faults, reset -/

/-- Acceptance of the word `w` (R110, R111): CMD is written, STATUS becomes BUSY, ERRINFO and the results are cleared. The
time to completion is drawn (R112; log 4). -/
def accept (w : Word) (s : State) : State :=
  { s with
    cmd := w
    status := busyStatus
    errinfo := 0
    res := Results.zero
    delay := Config.completionDelay s.draws
    raced := false
    draws := s.draws + 1 }

/-- The command in progress ends (R112: BUSY becomes 0): STATUS, ERRINFO, the results and memory as given. CMD and the
argument registers keep their values (R26, R262). Until the host reads STATUS it may still see memory as it was (R298;
log 26). -/
def finish (st : Status) (info : Word) (res : Results) (m : Memory) (s : State) : State :=
  { s with
    status := st
    errinfo := info
    res := res
    mem := m
    delay := 0
    raced := false
    draws := s.draws + 1
    stale := s.mem :: s.stale }

/-- Memory after a fault of the given stage (R262): destinations unspecified from stage 5 on, unchanged before. An illegal
word names no command and has no destination. -/
def faultMem (i : Option Instr) (stage : Nat) (s : State) : Memory :=
  match i with
  | some i => if 5 ≤ stage then fillDsts i s else s.mem
  | none => s.mem

/-- Taking a fault: `Fault(E, v, stage, fill)` of R262, the one operation by which a command ends with an error. There is
no return from it: the next acceptance clears it (R266). -/
def takeFault (i : Option Instr) (r : Raise) (s : State) : State :=
  finish (errStatus r.kind) r.info Results.zero (faultMem i r.kind.stage s) s

/-- Memory after a reset (R291, R292): unchanged, but for the destinations of a command in progress. A byte that lies in a
source range too (R117 has not run yet) is filled as a destination byte (log 29). -/
def resetMem (s : State) : Memory :=
  if s.status.busy then
    match decode s.cmd with
    | .ok i => fillDsts i s
    | .error _ => s.mem
  else s.mem

/-- The reset event (R290 to R293): every register of the window takes its reset value (R40), a command in progress is
abandoned. The host's own side, what it has yet to see of memory included, is not the block's and stays (logs 16, 26). -/
def resetEvent (s : State) : State :=
  { s with
    cmd := 0
    status := Status.reset
    errinfo := 0
    args := Args.reset
    res := Results.zero
    mem := resetMem s
    delay := 0
    raced := false
    draws := s.draws + 1 }

end Sys2Proof.Machine
end

