-- ==== Sys2Proof/Machine/Window.lean ====
section
/-! DEFINITION. The register window (10_state.md R21 to R31): the map of offsets, reads and writes. -/

namespace Sys2Proof.Machine

/-- The offset of a register (R21). -/
def regOffset : Reg → Nat
  | .id => 0x00
  | .cmd => 0x04
  | .status => 0x08
  | .errinfo => 0x0C
  | .src0Addr => 0x10
  | .src0Len => 0x14
  | .src1Addr => 0x18
  | .src1Len => 0x1C
  | .dst0Addr => 0x20
  | .dst0Cap => 0x24
  | .dst1Addr => 0x28
  | .dst1Cap => 0x2C
  | .param => 0x30
  | .res0 => 0x34
  | .res1 => 0x38
  | .res2 => 0x3C

/-- The registers, in the order of their offsets (R21). -/
def allRegs : List Reg :=
  [.id, .cmd, .status, .errinfo, .src0Addr, .src0Len, .src1Addr, .src1Len, .dst0Addr, .dst0Cap, .dst1Addr, .dst1Cap,
    .param, .res0, .res1, .res2]

/-- The register at an offset; none at the reserved offsets 0x40 to 0xFC (R28). -/
def regAt (offset : Nat) : Option Reg := allRegs.find? fun r => regOffset r == offset

/-- The value of a register (R21). -/
def readReg (s : State) : Reg → Word
  | .id => s.params.implId
  | .cmd => s.cmd
  | .status => s.status.toWord
  | .errinfo => s.errinfo
  | .src0Addr => s.args.src0Addr
  | .src0Len => s.args.src0Len
  | .src1Addr => s.args.src1Addr
  | .src1Len => s.args.src1Len
  | .dst0Addr => s.args.dst0Addr
  | .dst0Cap => s.args.dst0Cap
  | .dst1Addr => s.args.dst1Addr
  | .dst1Cap => s.args.dst1Cap
  | .param => s.args.param
  | .res0 => s.res.res0
  | .res1 => s.res.res1
  | .res2 => s.res.res2

/-- What a window read at an offset returns: the register's value, 0 at a reserved offset (R28, R30). -/
def readWindowAt (s : State) (offset : Nat) : Word :=
  match regAt offset with
  | some r => readReg s r
  | none => 0

/-- A window write while BUSY = 0 (R29): an argument register stores the value, CMD accepts a command (R110), a read-only
register and a reserved offset take no effect. -/
def writeRegIdle (s : State) (v : Word) : Reg → State
  | .id => s
  | .cmd => accept v s
  | .status => s
  | .errinfo => s
  | .src0Addr => { s with args := { s.args with src0Addr := v } }
  | .src0Len => { s with args := { s.args with src0Len := v } }
  | .src1Addr => { s with args := { s.args with src1Addr := v } }
  | .src1Len => { s with args := { s.args with src1Len := v } }
  | .dst0Addr => { s with args := { s.args with dst0Addr := v } }
  | .dst0Cap => { s with args := { s.args with dst0Cap := v } }
  | .dst1Addr => { s with args := { s.args with dst1Addr := v } }
  | .dst1Cap => { s with args := { s.args with dst1Cap := v } }
  | .param => { s with args := { s.args with param := v } }
  | .res0 => s
  | .res1 => s
  | .res2 => s

/-- A window write (R29): while BUSY = 1 it has no effect, whatever the offset. -/
def writeWindowAt (s : State) (offset : Nat) (v : Word) : State :=
  if s.status.busy then s
  else
    match regAt offset with
    | some r => writeRegIdle s v r
    | none => s

end Sys2Proof.Machine
end

