-- ==== Sys2Proof/Machine/HostScript.lean ====
section
/-! DEFINITION. Host scripts (30_encoding.md R98 to R100): what each statement and pseudo-statement is as host actions. -/

namespace Sys2Proof.Machine

/-- Byte writes to consecutive addresses (R98 `MEMW`, `MEMW32`). R98 calls a statement one host action, R20 and R60 let the
host reach memory by byte accesses: here each byte is an action, so the completion can come between two of them (log 28). -/
def writeBytesActions (addr : Nat) (bs : List Byte) : List HostAction :=
  bs.zipIdx.map fun p => .writeByte (addr + p.2) p.1

/-- The ASCII codes of a text (R98). -/
def asciiBytes (text : String) : List Byte := text.toList.map fun c => BitVec.ofNat 8 c.toNat

/-- The offset a `REG` of a script stands for (R98, R100 `offset(REG)`). -/
def refOffset : RegRef → Nat
  | .name r => regOffset r
  | .offset n => n

/-- `WR REG, v` as the bus transaction (offset, value) (R100). -/
def wrAction (offset : Nat) (v : Word) : HostAction := .writeWindow 4 offset v

/-- `RD REG` as the bus transaction (offset) (R100). -/
def rdAction (offset : Nat) : HostAction := .readWindow 4 offset

/-- `CMD MNEMONIC` (R99): the write of its word to CMD. -/
def commandAction (i : Instr) : HostAction := wrAction (regOffset .cmd) (encode i)

/-- The actions of a statement (R98, R99). -/
def stmtActions : Stmt → List HostAction
  | .memw addr bs => writeBytesActions addr bs
  | .memwText addr text => writeBytesActions addr (asciiBytes text)
  | .memw32 addr vs => writeBytesActions addr (vs.flatMap leBytes)
  | .wr r v => [wrAction (refOffset r) v]
  | .rd r => [rdAction (refOffset r)]
  | .comment _ => []
  | .command i => [commandAction i]
  | .wait => [.wait]
  | .run i writes => (writes.map fun p => wrAction (refOffset p.1) p.2) ++ [commandAction i, .wait]
  | .expectReg r v => [rdAction (refOffset r), .expectData v]
  | .expectMem addr bs => bs.zipIdx.flatMap fun p => [.readByte (addr + p.2), .expectData (p.1.setWidth 32)]

/-- The actions of a script, in program order (R98). -/
def scriptActions (p : List Stmt) : List HostAction := p.flatMap stmtActions

/-- The state with a host script to run (R98, R303). -/
def State.withScript (s : State) (p : List Stmt) : State := { s with host := scriptActions p }

end Sys2Proof.Machine
end

