-- ==== Sys2Proof/Machine/Constants.lean ====
section
/-! DEFINITION. The fixed constants of SAB-CORE (00_scope.md R7). The source's literals are unaudited
(93_implementation_defined.md section 3), so each stands here once. -/

namespace Sys2Proof.Machine

/-- `SENTINEL` (R7): byte value 0. -/
def sentinel : Byte := 0

/-- `RUN_CAP` (R7): 255, the longest run one length byte of RLE0 says. -/
def runCap : Nat := 255

/-- `MAX_CODE_LEN` (R7): 32, the longest code of a Codebook. -/
def maxCodeLen : Nat := 32

/-- `ALPHA_MAX` (R7): 256, the number of byte values. -/
def alphaMax : Nat := 256

end Sys2Proof.Machine
end

