-- ==== Sys2Proof/Machine/Complete.lean ====
section
/-! DEFINITION. The completion step every command shares (40_sequencer.md R114): the checks of stages 2 to 4 and 6, the
commit (R113), and the completion of a command whose host raced (20_memory.md R72). -/

namespace Sys2Proof.Machine

/-- What a command body returns (R114 stage 5): the outputs for DST0 and DST1 (empty where the command has no such
destination), the results, and TRAIL. -/
structure BodyResult where
  dst0 : Payload
  dst1 : Payload
  res : Results
  trail : Bool
  deriving DecidableEq, Repr

/-- An operand or pair value for ERRINFO (R263). -/
def infoOf (n : Nat) : Word := BitVec.ofNat 32 n

/-! ## Stage 2: size limits (R115) -/

/-- `tooLarge` of a used source: over LEN_MAX, or for SA_PREP at or over it (R115). -/
def srcTooLarge (i : Instr) (s : State) (k : Operand) : Bool :=
  match i with
  | .saPrep => decide (s.params.lenMax ≤ operandCount s.args k)
  | _ => decide (s.params.lenMax < operandCount s.args k)

/-- `tooLarge(op, k)` (R115). Destinations are never checked. -/
def tooLarge (i : Instr) (s : State) (k : Operand) : Bool :=
  match k with
  | .param => usesParam i && decide (s.params.lenMax < operandCount s.args .param)
  | k => (operandSize i k).isSome && srcTooLarge i s k

/-- Stage 2: SRC0, SRC1, PARAM, in that order. -/
def sizeCheck (i : Instr) (s : State) : Option Raise :=
  ([.src0, .src1, .param] : List Operand).findSome? fun k =>
    if tooLarge i s k then some ⟨.tooLarge, infoOf k.id⟩ else none

/-! ## Stage 3: address ranges (R116) -/

/-- `outOfMemory` of a range: not empty, and not wholly below MEM_SIZE, on unbounded integers (R116). -/
def Range.outOfMemory (memSize : Nat) (r : Range) : Bool := decide (0 < r.len ∧ memSize < r.start + r.len)

/-- Stage 3: SRC0, SRC1, DST0, DST1, in that order. -/
def addressCheck (i : Instr) (s : State) : Option Raise :=
  ([.src0, .src1, .dst0, .dst1] : List Operand).findSome? fun k =>
    match operandSize i k with
    | some u =>
      if (rangeOfSize s.args k u).outOfMemory s.params.memSize then some ⟨.addressError, infoOf k.id⟩ else none
    | none => none

/-! ## Stage 4: overlap (R117) -/

/-- The pairs of R114, in its order. -/
def overlapPairs : List (Operand × Operand) :=
  [(.src0, .dst0), (.src0, .dst1), (.src1, .dst0), (.src1, .dst1), (.dst0, .dst1)]

/-- Stage 4. -/
def overlapCheck (i : Instr) (s : State) : Option Raise :=
  overlapPairs.findSome? fun p =>
    match operandSize i p.1, operandSize i p.2 with
    | some u, some v =>
      if (rangeOfSize s.args p.1 u).overlaps (rangeOfSize s.args p.2 v) then
        some ⟨.bufferOverlap, infoOf (16 * p.1.id + p.2.id)⟩
      else none
    | _, _ => none

/-- Stages 2 to 4, the first that raises (R114, R265). -/
def preCheck (i : Instr) (s : State) : Option Raise :=
  match sizeCheck i s with
  | some r => some r
  | none =>
    match addressCheck i s with
    | some r => some r
    | none => overlapCheck i s

/-! ## Stage 6 and commit (R118, R113) -/

/-- The output of a body for a destination. -/
def BodyResult.out (b : BodyResult) : Operand → Payload
  | .dst1 => b.dst1
  | _ => b.dst0

/-- Stage 6: DST0, then DST1 (R118). -/
def capacityCheck (i : Instr) (b : BodyResult) (s : State) : Option Raise :=
  ([.dst0, .dst1] : List Operand).findSome? fun k =>
    if (operandSize i k).isSome && decide (operandCount s.args k < (b.out k).count) then
      some ⟨.outputOverflow, infoOf k.id⟩
    else none

/-- `Put(DSTk_ADDR, outs[k])` for each used destination (R114, R65). -/
def commitMem (i : Instr) (b : BodyResult) (s : State) : Memory :=
  ([.dst0, .dst1] : List Operand).foldl
    (fun m k =>
      if (operandSize i k).isSome then m.writeBytes (operandAddr s.args k) (b.out k).toBytes else m)
    s.mem

/-- Successful completion (R113): the outputs are written, the results too, ERRINFO stays 0. -/
def commit (i : Instr) (b : BodyResult) (s : State) : State :=
  finish (doneStatus b.trail) 0 b.res (commitMem i b s) s

/-! ## Races (R72) -/

/-- What ERRINFO may hold after a fault (R261, R263). -/
inductive InfoForm where
  /-- A value the table of R261 gives. -/
  | value (w : Word)
  /-- The index of an element, symbol or entry, below LEN_MAX (R263). -/
  | index
  /-- A byte value (CODETOOLONG, R263). -/
  | symbol
  deriving DecidableEq, Repr

/-- The faults of a command: the table of R261. -/
def faultTable : Instr → List (ErrorKind × InfoForm)
  | .nop => []
  | .saPrep => oneSource ++ [(.sentinelViolation, .index)]
  | .saSais => oneSource ++ [(.sentinelViolation, .index)]
  | .saPd => oneSource ++ [(.sentinelViolation, .index)]
  | .bwtFwd => twoSources ++ [(.invalidArgument, .value 1), (.entryOutOfRange, .index)]
  | .bwtInv => oneSource ++ [(.missingSentinel, .value 0), (.multipleSentinel, .index)]
  | .alphaScan => oneSource
  | .mtfEnc => twoSources ++ [(.invalidArgument, .value 1), (.symbolNotInAlphabet, .index)]
  | .mtfDec => twoSources ++ [(.invalidArgument, .value 1), (.indexOutOfRange, .index)]
  | .rleEnc => oneSource
  | .rleDec => oneSource
  | .hufBuild =>
    oneSource ++ [(.addressError, .value 3), (.bufferOverlap, .value 0x03), (.bufferOverlap, .value 0x23),
      (.outputOverflow, .value 3), (.codeTooLong, .symbol)]
  | .hufDec =>
    twoSources ++ [(.tooLarge, .value 4), (.codebookCorrupt, .index), (.truncatedBitstream, .index),
      (.invalidCode, .index)]
where
  /-- Stages 2, 3, 4 and 6 of a command with SRC0 and DST0. -/
  oneSource : List (ErrorKind × InfoForm) :=
    [(.tooLarge, .value 0), (.addressError, .value 0), (.addressError, .value 2), (.bufferOverlap, .value 0x02),
      (.outputOverflow, .value 2)]
  /-- Stages 2, 3, 4 and 6 of a command with SRC0, SRC1 and DST0. -/
  twoSources : List (ErrorKind × InfoForm) :=
    oneSource ++ [(.tooLarge, .value 1), (.addressError, .value 1), (.bufferOverlap, .value 0x12)]

/-- A value of the form, from a free number (log 7). -/
def InfoForm.pick (lenMax free : Nat) : InfoForm → Word
  | .value w => w
  | .index => infoOf (free % lenMax)
  | .symbol => infoOf (free % alphaMax)

/-- The outcome a race leaves (R72): DONE, or a fault of the command's row of R261. -/
def raceChoice (i : Instr) (s : State) : Option (ErrorKind × InfoForm) :=
  (faultTable i)[Config.raceOutcome s.draws % ((faultTable i).length + 1)]?

/-- The result registers after a race: unspecified (R72). -/
def raceResults (d : Nat) : Results := ⟨Config.raceResult d 0, Config.raceResult d 1, Config.raceResult d 2⟩

/-- The completion of a command during which the host raced (R72): destinations and results unspecified, DONE or any fault
of the command. -/
def completeRaced (i : Instr) (s : State) : State :=
  match raceChoice i s with
  | none =>
    finish (doneStatus (decide (i = .rleDec) && Config.raceTrail s.draws)) 0 (raceResults s.draws) (fillDsts i s) s
  | some (k, f) =>
    finish (errStatus k) (f.pick s.params.lenMax (Config.raceIndex s.draws)) (raceResults s.draws) (fillDsts i s) s

/-! ## The completion of a command with a given body (R114) -/

/-- Stages 2 to 6 of `Complete` (R114), for the command `i` with the body `body` of its rule. -/
def completeWith (i : Instr) (body : State → Except Raise BodyResult) (s : State) : State :=
  match preCheck i s with
  | some r => takeFault (some i) r s
  | none =>
    match body s with
    | .error r => takeFault (some i) r s
    | .ok b =>
      match capacityCheck i b s with
      | some r => takeFault (some i) r s
      | none => commit i b s

/-- A command runs: as R114 says, or as R72 says if the host raced. It always completes (R112). -/
def runCommand (i : Instr) (body : State → Except Raise BodyResult) (s : State) :
    Host.Outcome State Fault Refusal :=
  .next (if s.raced then completeRaced i s else completeWith i body s)

end Sys2Proof.Machine
end

