-- ==== Sys2Proof/Machine/Bwt.lean ====
section
/-! DEFINITION. Engines 2 and 3: BWT_FWD (42_bwt_forward.md R170) and BWT_INV (43_bwt_inverse.md R180 to R183). -/

namespace Sys2Proof.Machine

/-- `L[i] = T[(SA[i] + n - 1) mod n]` (R170). -/
def bwtForward (t : List Byte) (sa : List Nat) : List Byte :=
  sa.map fun e => t.getD ((e + t.length - 1) % t.length) 0

/-- The body of BWT_FWD on its operands (R170): the length check, then the range check at the least index, then L. -/
def forwardTransform (t : List Byte) (sa : List Nat) : Except Raise BodyResult :=
  if sa.length ≠ t.length then .error ⟨.invalidArgument, 1⟩
  else
    match sa.findIdx? (fun e => decide (t.length ≤ e)) with
    | some i => .error ⟨.entryOutOfRange, infoOf i⟩
    | none => .ok ⟨.bytes (bwtForward t sa), .bytes [], ⟨infoOf t.length, 0, 0⟩, false⟩

/-- `C[c]` (R181): how many bytes of L are less than c. -/
def cumulative (l : List Byte) (c : Byte) : Nat := l.countP fun b => decide (b.toNat < c.toNat)

/-- `rank[p]` (R182): how often the byte at p occurs before p. -/
def rankAt (l : List Byte) (p : Nat) : Nat := (l.take p).count (l.getD p 0)

/-- The LF-mapping `p ↦ C[L[p]] + rank[p]` (R183). -/
def lfMap (l : List Byte) (p : Nat) : Nat := cumulative l (l.getD p 0) + rankAt l p

/-- `Walk` (R183), filling T from its end: `k` bytes are still to come in front of `acc`. -/
def lfWalk (l : List Byte) : Nat → Nat → List Byte → List Byte
  | 0, _, acc => acc
  | k + 1, p, acc => lfWalk l k (lfMap l p) (l.getD p 0 :: acc)

/-- The indexes of the 0 bytes of L, ascending (R180). -/
def zeroIndexes (l : List Byte) : List Nat := (List.range l.length).filter fun i => l.getD i 1 == sentinel

/-- The body of BWT_INV on its operand (R180). -/
def inverseTransform (l : List Byte) : Except Raise BodyResult :=
  match zeroIndexes l with
  | [] => .error ⟨.missingSentinel, 0⟩
  | [p0] => .ok ⟨.bytes (lfWalk l l.length p0 []), .bytes [], ⟨infoOf l.length, 0, 0⟩, false⟩
  | _ :: q :: _ => .error ⟨.multipleSentinel, infoOf q⟩

/-- The body of BWT_FWD (R170). -/
def bodyBwtFwd (s : State) : Except Raise BodyResult := forwardTransform (s.bytesOf .src0) (s.wordsOf .src1)

/-- The body of BWT_INV (R180). -/
def bodyBwtInv (s : State) : Except Raise BodyResult := inverseTransform (s.bytesOf .src0)

/-- BWT_FWD (R170). -/
def execBwtFwd (s : State) : Host.Outcome State Fault Refusal := runCommand .bwtFwd bodyBwtFwd s

/-- BWT_INV (R180). -/
def execBwtInv (s : State) : Host.Outcome State Fault Refusal := runCommand .bwtInv bodyBwtInv s

end Sys2Proof.Machine
end

