-- ==== Sys2Proof/Machine/Mtf.lean ====
section
/-! DEFINITION. Engine 4, mtf_encoder: ALPHA_SCAN, MTF_ENC, MTF_DEC (44_mtf.md R190 to R194). -/

namespace Sys2Proof.Machine

/-- The 256 byte values, ascending. -/
def allBytes : List Byte := (List.range alphaMax).map (BitVec.ofNat 8)

/-- The Alphabet of a byte sequence (R190): the distinct bytes, ascending. -/
def alphabetOf (l : List Byte) : List Byte := allBytes.filter fun c => l.contains c

/-- `MoveToFront(R, j)` (R194). -/
def moveToFront (r : List Byte) (j : Nat) : List Byte :=
  if j = 0 then r else r.getD j 0 :: (r.take j ++ r.drop (j + 1))

/-- The loop of MTF_ENC (R192) from input index `i` with recency list `r`. -/
def mtfEncode : Nat → List Byte → List Byte → Except Raise (List Byte)
  | _, _, [] => .ok []
  | i, r, b :: bs =>
    match r.findIdx? (· == b) with
    | none => .error ⟨.symbolNotInAlphabet, infoOf i⟩
    | some j =>
      match mtfEncode (i + 1) (moveToFront r j) bs with
      | .error e => .error e
      | .ok out => .ok (BitVec.ofNat 8 j :: out)

/-- The loop of MTF_DEC (R193) from input index `i` with recency list `r`. -/
def mtfDecode : Nat → List Byte → List Byte → Except Raise (List Byte)
  | _, _, [] => .ok []
  | i, r, b :: bs =>
    if r.length ≤ b.toNat then .error ⟨.indexOutOfRange, infoOf i⟩
    else
      match mtfDecode (i + 1) (moveToFront r b.toNat) bs with
      | .error e => .error e
      | .ok out => .ok (r.getD b.toNat 0 :: out)

/-- The body both coders share (R192, R193): an Alphabet over 256 bytes is refused, then the loop from the Alphabet as the
recency list (R191). -/
def recencyCoder (loop : Nat → List Byte → List Byte → Except Raise (List Byte)) (l alphabet : List Byte) :
    Except Raise BodyResult :=
  if alphaMax < alphabet.length then .error ⟨.invalidArgument, 1⟩
  else
    match loop 0 alphabet l with
    | .error e => .error e
    | .ok out => .ok ⟨.bytes out, .bytes [], ⟨infoOf l.length, 0, 0⟩, false⟩

/-- The body of ALPHA_SCAN (R190). -/
def bodyAlphaScan (s : State) : Except Raise BodyResult :=
  let a := alphabetOf (s.bytesOf .src0)
  .ok ⟨.bytes a, .bytes [], ⟨infoOf a.length, 0, 0⟩, false⟩

/-- The body of MTF_ENC (R192). -/
def bodyMtfEnc (s : State) : Except Raise BodyResult := recencyCoder mtfEncode (s.bytesOf .src0) (s.bytesOf .src1)

/-- The body of MTF_DEC (R193). -/
def bodyMtfDec (s : State) : Except Raise BodyResult := recencyCoder mtfDecode (s.bytesOf .src0) (s.bytesOf .src1)

/-- ALPHA_SCAN (R190). -/
def execAlphaScan (s : State) : Host.Outcome State Fault Refusal := runCommand .alphaScan bodyAlphaScan s

/-- MTF_ENC (R192). -/
def execMtfEnc (s : State) : Host.Outcome State Fault Refusal := runCommand .mtfEnc bodyMtfEnc s

/-- MTF_DEC (R193). -/
def execMtfDec (s : State) : Host.Outcome State Fault Refusal := runCommand .mtfDec bodyMtfDec s

end Sys2Proof.Machine
end

