-- ==== Sys2Proof/Machine/Huffman.lean ====
section
/-! DEFINITION. Engine 6, huffman_tree_builder: HUF_BUILD (46_huffman.md R230 to R239) and HUF_DEC (R240 to R243). -/

namespace Sys2Proof.Machine

/-! ## Building the code (R231 to R237) -/

/-- A Huffman tree (R232, R234): left child for bit 0, right child for bit 1. -/
inductive HufTree where
  | leaf (sym : Byte)
  | node (left right : HufTree)
  deriving DecidableEq, Repr

/-- A live node (R232, R233): its frequency, its creation-order identifier, its tree. -/
structure LiveNode where
  freq : Nat
  id : Nat
  tree : HufTree
  deriving DecidableEq, Repr

/-- The key `(frequency, id)` of the first is less than that of the second (R233). -/
def LiveNode.before (a b : LiveNode) : Bool :=
  decide (a.freq < b.freq) || (decide (a.freq = b.freq) && decide (a.id < b.id))

/-- Extract-min (R233): the node with the least key among `a` and `rest`, and the others. -/
def extractMin (a : LiveNode) : List LiveNode → LiveNode × List LiveNode
  | [] => (a, [])
  | b :: rest =>
    if a.before b then
      let r := extractMin a rest
      (r.1, b :: r.2)
    else
      let r := extractMin b rest
      (r.1, a :: r.2)

/-- Merging (R234): `next` is the next identifier. The fuel is the number of live nodes, each merge leaving one less. -/
def mergeLoop : Nat → Nat → List LiveNode → Option HufTree
  | 0, _, _ => none
  | _ + 1, _, [] => none
  | _ + 1, _, [root] => some root.tree
  | fuel + 1, next, x :: y :: rest =>
    let first := extractMin x (y :: rest)
    match first.2 with
    | [] => some first.1.tree
    | z :: others =>
      let second := extractMin z others
      let merged : LiveNode := ⟨first.1.freq + second.1.freq, next, .node first.1.tree second.1.tree⟩
      mergeLoop fuel (next + 1) (merged :: second.2)

/-- A code (R236): symbol, length, value, the value an unbounded natural. -/
structure Code where
  sym : Byte
  len : Nat
  value : Nat
  deriving DecidableEq, Repr

/-- `Assign(node, c, l)` (R236). -/
def assignCodes : HufTree → Nat → Nat → List Code
  | .leaf s, c, l => [⟨s, l, c⟩]
  | .node left right, c, l => assignCodes left (2 * c) (l + 1) ++ assignCodes right (2 * c + 1) (l + 1)

/-- The symbols present, ascending (R231). -/
def symbolsOf (d : List Byte) : List Byte := alphabetOf d

/-- The leaves (R232): ids 0, 1, ... in ascending symbol order, with their frequencies (R231). -/
def leaves (d : List Byte) : List LiveNode :=
  (symbolsOf d).zipIdx.map fun p => ⟨d.count p.1, p.2, .leaf p.1⟩

/-- The codes of a data sequence (R235 for one symbol, R232 to R236 for more), in traversal order. -/
def buildCodes (d : List Byte) : List Code :=
  match symbolsOf d with
  | [] => []
  | [c] => [⟨c, 1, 0⟩]
  | syms =>
    match mergeLoop syms.length syms.length (leaves d) with
    | some root => assignCodes root 0 0
    | none => []

/-- The code of a symbol. -/
def codeFor (codes : List Code) (c : Byte) : Option Code := codes.find? fun e => e.sym == c

/-! ## Bits (R67, R239) -/

/-- `Bits(v, l)`: the l-bit string of v, most significant bit first (R9, R230). -/
def bitsOf (v l : Nat) : List Bool := (List.range l).map fun j => v.testBit (l - 1 - j)

/-- The number of bytes that hold `n` bits (R9 `ceil_div`). -/
def ceilBytes (n : Nat) : Nat := (n + 7) / 8

/-- `Pack(bits)` (R239): bit j of the string is bit `7 - (j mod 8)` of byte `j div 8`, the rest of the last byte 0. -/
def packBits (bits : List Bool) : List Byte :=
  (List.range (ceilBytes bits.length)).map fun q =>
    BitVec.ofNat 8 ((List.range 8).map fun b => if bits.getD (8 * q + b) false then 2 ^ (7 - b) else 0).sum

/-- The bits of a Bitstream in stream order (R67, R243). -/
def unpackBits (bs : List Byte) : List Bool := bs.flatMap fun b => bitsOf b.toNat 8

/-! ## HUF_BUILD (R230, R237, R238) -/

/-- The bit string of the data (R230): the codes of its bytes, one after another. -/
def encodeBits (codes : List Code) (d : List Byte) : List Bool :=
  d.flatMap fun c =>
    match codeFor codes c with
    | some e => bitsOf e.value e.len
    | none => []

/-- The Codebook (R238): one entry per symbol present, ascending. -/
def codebookOf (codes : List Code) (syms : List Byte) : List Entry :=
  syms.filterMap fun c => (codeFor codes c).map fun e => ⟨c, BitVec.ofNat 8 e.len, BitVec.ofNat 32 e.value⟩

/-- The least symbol whose code is longer than 32 bits (R237). -/
def firstTooLong (codes : List Code) (syms : List Byte) : Option Byte :=
  syms.find? fun c =>
    match codeFor codes c with
    | some e => decide (maxCodeLen < e.len)
    | none => false

/-- The body of HUF_BUILD on its operand (R230). An empty input gives an empty Codebook and Bitstream. -/
def hufBuild (d : List Byte) : Except Raise BodyResult :=
  if d = [] then .ok ⟨.entries [], .bytes [], Results.zero, false⟩
  else
    let syms := symbolsOf d
    let codes := buildCodes d
    match firstTooLong codes syms with
    | some c => .error ⟨.codeTooLong, infoOf c.toNat⟩
    | none =>
      let bits := encodeBits codes d
      let nB := ceilBytes bits.length
      .ok ⟨.entries (codebookOf codes syms), .bytes (packBits bits),
        ⟨infoOf syms.length, infoOf nB, infoOf (8 * nB - bits.length)⟩, false⟩

/-! ## HUF_DEC (R240 to R243) -/

/-- `PrefixRelated` (R241): one code is a prefix of the other, or they are equal. -/
def prefixRelated (a b : Entry) : Bool :=
  (decide (a.len.toNat ≤ b.len.toNat) && decide (b.code.toNat >>> (b.len.toNat - a.len.toNat) = a.code.toNat))
    || (decide (b.len.toNat ≤ a.len.toNat) && decide (a.code.toNat >>> (a.len.toNat - b.len.toNat) = b.code.toNat))

/-- The four tests of one entry against the entries before it (R241). -/
def entryOk (earlier : List Entry) (e : Entry) : Bool :=
  decide (e.len.toNat ≠ 0) && decide (e.len.toNat ≤ maxCodeLen) && decide (e.code.toNat < 2 ^ e.len.toNat)
    && earlier.all fun f => decide (f.sym ≠ e.sym) && !prefixRelated e f

/-- `Validate(CB)` (R241): the index of the first failing entry, if any; `earlier` are the entries before index `j`. -/
def firstCorrupt : Nat → List Entry → List Entry → Option Nat
  | _, _, [] => none
  | j, earlier, e :: rest => if entryOk earlier e then firstCorrupt (j + 1) (e :: earlier) rest else some j

/-- A bit-trie (R242): no node, a leaf holding a symbol, or an inner node with a child for bit 0 and one for bit 1. -/
inductive Trie where
  | missing
  | leaf (sym : Byte)
  | inner (zero one : Trie)
  deriving DecidableEq, Repr

/-- Insertion of a symbol along the bits of its code (R242), creating missing inner nodes. A leaf on the path of another
code (which R241 excludes) stays (log 20). -/
def Trie.insert (s : Byte) : List Bool → Trie → Trie
  | [], _ => .leaf s
  | _ :: _, .leaf f => .leaf f
  | false :: bs, .missing => .inner (Trie.insert s bs .missing) .missing
  | true :: bs, .missing => .inner .missing (Trie.insert s bs .missing)
  | false :: bs, .inner z o => .inner (Trie.insert s bs z) o
  | true :: bs, .inner z o => .inner z (Trie.insert s bs o)

/-- `BuildTrie(CB)` (R242), from a root with no children. -/
def buildTrie (cb : List Entry) : Trie :=
  cb.foldl (fun t e => t.insert e.sym (bitsOf e.code.toNat e.len.toNat)) (.inner .missing .missing)

/-- The child of a node for a bit (R242); a leaf or a missing node has none. -/
def Trie.child : Trie → Bool → Trie
  | .inner z _, false => z
  | .inner _ o, true => o
  | .leaf _, _ => .missing
  | .missing, _ => .missing

/-- `WalkDecode` (R243): at `node`, decoding symbol `k`, with `left` symbols still to produce (this one among them) and
`pos` bits consumed. It answers the rest of the output and the number of bits consumed in all. -/
def walkDecode (root : Trie) : List Bool → Trie → Nat → Nat → Nat → Except Raise (List Byte × Nat)
  | _, _, _, 0, pos => .ok ([], pos)
  | [], _, k, _ + 1, _ => .error ⟨.truncatedBitstream, infoOf k⟩
  | b :: bs, node, k, left + 1, pos =>
    match node.child b with
    | .missing => .error ⟨.invalidCode, infoOf k⟩
    | .leaf s =>
      match walkDecode root bs root (k + 1) left (pos + 1) with
      | .error e => .error e
      | .ok r => .ok (s :: r.1, r.2)
    | .inner z o => walkDecode root bs (.inner z o) k (left + 1) (pos + 1)

/-- The body of HUF_DEC on its operands (R240). -/
def hufDecode (stream : List Byte) (cb : List Entry) (n : Nat) : Except Raise BodyResult :=
  match firstCorrupt 0 [] cb with
  | some j => .error ⟨.codebookCorrupt, infoOf j⟩
  | none =>
    let trie := buildTrie cb
    match walkDecode trie (unpackBits stream) trie 0 n 0 with
    | .error e => .error e
    | .ok r => .ok ⟨.bytes r.1, .bytes [], ⟨infoOf n, infoOf (ceilBytes r.2), 0⟩, false⟩

/-- The body of HUF_BUILD (R230). -/
def bodyHufBuild (s : State) : Except Raise BodyResult := hufBuild (s.bytesOf .src0)

/-- The body of HUF_DEC (R240). -/
def bodyHufDec (s : State) : Except Raise BodyResult :=
  hufDecode (s.bytesOf .src0) (s.entriesOf .src1) (operandCount s.args .param)

/-- HUF_BUILD (R230). -/
def execHufBuild (s : State) : Host.Outcome State Fault Refusal := runCommand .hufBuild bodyHufBuild s

/-- HUF_DEC (R240). -/
def execHufDec (s : State) : Host.Outcome State Fault Refusal := runCommand .hufDec bodyHufDec s

end Sys2Proof.Machine
end

