-- ==== Sys2Proof/Machine/Nop.lean ====
section
/-! DEFINITION. Engine 0, the sequencer: NOP (40_sequencer.md R122). -/

namespace Sys2Proof.Machine

/-- The body of NOP (R122): no outputs, results 0. -/
def bodyNop (_ : State) : Except Raise BodyResult := .ok ⟨.bytes [], .bytes [], Results.zero, false⟩

/-- NOP (R122). -/
def execNop (s : State) : Host.Outcome State Fault Refusal := runCommand .nop bodyNop s

end Sys2Proof.Machine
end

