-- ==== Sys2Proof/Machine/Rle.lean ====
section
/-! DEFINITION. Engine 5, rle0_zero_run_encoder: RLE_ENC, RLE_DEC (45_rle0.md R210 to R213). -/

namespace Sys2Proof.Machine

/-- `EncodeRun(k)` (R211): a pair (0, 255) for every full 255, then (0, remaining) with remaining below 255
(90_conflicts.md C1, C2). -/
def encodeRun (k : Nat) : List Byte :=
  (List.replicate (k / runCap) [0, BitVec.ofNat 8 runCap]).flatten ++ [0, BitVec.ofNat 8 (k % runCap)]

/-- What a zero-run counter of `k` emits when the run ends: nothing if there was no run (R210). -/
def flushRun (k : Nat) : List Byte := if k = 0 then [] else encodeRun k

/-- The loop of RLE_ENC (R210), with the zero-run counter (10_state.md R38). -/
def rleEncode : List Byte → Nat → List Byte
  | [], k => flushRun k
  | b :: bs, k => if b = 0 then rleEncode bs (k + 1) else flushRun k ++ b :: rleEncode bs 0

/-- The loop of RLE_DEC (R212, R213): the output, and whether the input ended in an unterminated 0. -/
def rleDecode : List Byte → List Byte × Bool
  | [] => ([], false)
  | [b] => if b = 0 then ([], true) else ([b], false)
  | b :: c :: rest =>
    if b = 0 then
      let r := rleDecode rest
      (List.replicate c.toNat 0 ++ r.1, r.2)
    else
      let r := rleDecode (c :: rest)
      (b :: r.1, r.2)

/-- The body of RLE_ENC (R210). -/
def bodyRleEnc (s : State) : Except Raise BodyResult :=
  let out := rleEncode (s.bytesOf .src0) 0
  .ok ⟨.bytes out, .bytes [], ⟨infoOf out.length, 0, 0⟩, false⟩

/-- The body of RLE_DEC (R212). -/
def bodyRleDec (s : State) : Except Raise BodyResult :=
  let r := rleDecode (s.bytesOf .src0)
  .ok ⟨.bytes r.1, .bytes [], ⟨infoOf r.1.length, 0, 0⟩, r.2⟩

/-- RLE_ENC (R210). -/
def execRleEnc (s : State) : Host.Outcome State Fault Refusal := runCommand .rleEnc bodyRleEnc s

/-- RLE_DEC (R212). -/
def execRleDec (s : State) : Host.Outcome State Fault Refusal := runCommand .rleDec bodyRleDec s

end Sys2Proof.Machine
end

