-- ==== Sys2Proof/Machine/SuffixArray.lean ====
section
/-! DEFINITION. Engine 1, suffix_array_builder: SA_PREP, SA_SAIS, SA_PD (41_suffix_array.md). The induced-sorting procedure
R145 to R151 and the prefix-doubling procedure R153 are written out as the rules give them, over sequences of naturals. -/

namespace Sys2Proof.Machine

/-! ## Text and sentinel (R140, R141) -/

/-- The least index before the last one that holds a 0 byte (R140, R141). -/
def interiorZero (t : List Byte) : Option Nat := t.dropLast.findIdx? (· == sentinel)

/-- A well-formed Text (R141): not empty, its last byte 0, no other byte 0. -/
def wellFormedText (t : List Byte) : Bool := (t.getLast? == some sentinel) && (interiorZero t).isNone

/-- `sentinelInfo(T)` (R141). -/
def sentinelInfo (t : List Byte) : Nat :=
  match interiorZero t with
  | some i => i
  | none => t.length - 1

/-- The body of SA_PREP on its input (R140). -/
def prepText (input : List Byte) : Except Raise BodyResult :=
  match interiorZero input with
  | some i => .error ⟨.sentinelViolation, infoOf i⟩
  | none =>
    let had := input.getLast? == some sentinel
    let t := if had then input else input ++ [sentinel]
    .ok ⟨.bytes t, .bytes [], ⟨infoOf t.length, infoOf (t.length - 1), infoOf had.toNat⟩, false⟩

/-! ## Induced sorting (R145 to R151) -/

/-- Types (R145), `true` for S: from the last position, always S, to the first. -/
def slTypes : List Nat → List Bool
  | [] => []
  | [_] => [true]
  | a :: b :: rest =>
    let ts := slTypes (b :: rest)
    (decide (a < b) || (decide (a = b) && ts.headD true)) :: ts

/-- `isLMS(i)` (R146): the final position, or an S position right after an L position. -/
def isLMS (t : List Bool) (i : Nat) : Bool :=
  decide (i + 1 = t.length) || (decide (0 < i) && t.getD i false && !(t.getD (i - 1) true))

/-- The LMS positions in ascending order (R146). -/
def lmsPositions (t : List Bool) : List Nat := (List.range t.length).filter (isLMS t)

/-- The LMS substring of an LMS position, as its symbols with their types (R146): to the next LMS position inclusive; for
the final position that one symbol. -/
def lmsSub (sym : List Nat) (t : List Bool) (j : Nat) : List (Nat × Bool) :=
  match (lmsPositions t).find? (fun k => decide (j < k)) with
  | some k => ((sym.zip t).drop j).take (k - j + 1)
  | none => (sym.zip t).drop j

/-- `head[c]` for each symbol c (R147): how many elements are less than c. -/
def bucketHeads (sym : List Nat) (k : Nat) : List Nat :=
  (List.range k).map fun c => sym.countP (fun x => decide (x < c))

/-- `tail[c] + 1` for each symbol c (R147): `tail` kept one higher, so that the tail of an empty bucket at index 0 is a
natural number too (log 17). -/
def bucketEnds (sym : List Nat) (k : Nat) : List Nat :=
  (List.range k).map fun c => sym.countP (fun x => decide (x ≤ c))

/-- The array being built (`none` is EMPTY) and the bucket pointers of a pass (R148). -/
structure Induction where
  arr : List (Option Nat)
  ptr : List Nat
  deriving DecidableEq, Repr

/-- `A[tl[S[j]]] <- j; tl[S[j]] <- tl[S[j]] - 1` (R148), with the pointer one higher than `tl`. -/
def placeAtTail (sym : List Nat) (p : Induction) (j : Nat) : Induction :=
  let c := sym.getD j 0
  let e := p.ptr.getD c 0
  ⟨p.arr.set (e - 1) (some j), p.ptr.set c (e - 1)⟩

/-- `A[hd[S[j]]] <- j; hd[S[j]] <- hd[S[j]] + 1` (R148). -/
def placeAtHead (sym : List Nat) (p : Induction) (j : Nat) : Induction :=
  let c := sym.getD j 0
  let e := p.ptr.getD c 0
  ⟨p.arr.set e (some j), p.ptr.set c (e + 1)⟩

/-- The predecessor of the entry at index `i`, if there is one and it has the given type (R148). -/
def predecessor (t : List Bool) (wantS : Bool) (arr : List (Option Nat)) (i : Nat) : Option Nat :=
  match arr.getD i none with
  | some j => if 0 < j ∧ t.getD (j - 1) false = wantS then some (j - 1) else none
  | none => none

/-- One step of the L pass (R148). -/
def lStep (sym : List Nat) (t : List Bool) (p : Induction) (i : Nat) : Induction :=
  match predecessor t false p.arr i with
  | some j => placeAtHead sym p j
  | none => p

/-- One step of the S pass (R148). -/
def sStep (sym : List Nat) (t : List Bool) (p : Induction) (i : Nat) : Induction :=
  match predecessor t true p.arr i with
  | some j => placeAtTail sym p j
  | none => p

/-- `Induce(seeds)` (R148): seeds at the tails of their buckets in the given order, the L pass from the heads, the S pass
from the tails. -/
def induce (sym : List Nat) (t : List Bool) (k : Nat) (seeds : List Nat) : List (Option Nat) :=
  let n := sym.length
  let seeded := seeds.foldl (placeAtTail sym) ⟨List.replicate n none, bucketEnds sym k⟩
  let afterL := (List.range n).foldl (lStep sym t) ⟨seeded.arr, bucketHeads sym k⟩
  let afterS := (List.range n).reverse.foldl (sStep sym t) ⟨afterL.arr, bucketEnds sym k⟩
  afterS.arr

/-- The names given so far (R149): by position, with how many there are and the last LMS position named. -/
structure Naming where
  names : List Nat
  count : Nat
  prev : Option Nat
  deriving DecidableEq, Repr

/-- One LMS position gets its name (R149): a new one if its substring differs from the one named before it. -/
def nameStep (sym : List Nat) (t : List Bool) (w : Naming) (j : Nat) : Naming :=
  let fresh :=
    match w.prev with
    | none => true
    | some p => decide (lmsSub sym t j ≠ lmsSub sym t p)
  let count := if fresh then w.count + 1 else w.count
  ⟨w.names.set j (count - 1), count, some j⟩

/-- Naming in first-induction encounter order (R149). -/
def nameLMS (sym : List Nat) (t : List Bool) (a1 : List (Option Nat)) : Naming :=
  ((a1.filterMap fun e => e).filter (isLMS t)).foldl (nameStep sym t) ⟨List.replicate sym.length 0, 0, none⟩

/-- `order[S1[k]] := lms[k]` for each k (R150), when all names are distinct. -/
def orderByName (lms s1 : List Nat) : List Nat :=
  (s1.zip lms).foldl (fun o p => o.set p.1 p.2) (List.replicate lms.length 0)

/-- `SAIS(S, K)` (R150, R151). The fuel bounds the recursion depth; the length of S is always enough, since a reduced
sequence has at most half the length (R152; log 17). -/
def sais : Nat → List Nat → Nat → List Nat
  | 0, _, _ => []
  | fuel + 1, sym, k =>
    if sym.length = 1 then [0]
    else
      let t := slTypes sym
      let lms := lmsPositions t
      let named := nameLMS sym t (induce sym t k lms.reverse)
      let s1 := lms.map fun j => named.names.getD j 0
      let order :=
        if named.count = lms.length then orderByName lms s1
        else (sais fuel s1 named.count).map fun b => lms.getD b 0
      (induce sym t k order.reverse).map fun e => e.getD 0

/-! ## Prefix doubling (R153) -/

/-- `key(i)` (R153): `(rank[i], rank[i+k])`, or -1 for the second where `i + k` is out of range. -/
def pdKey (rank : List Nat) (k i : Nat) : Nat × Int :=
  (rank.getD i 0, if i + k < rank.length then (rank.getD (i + k) 0 : Int) else -1)

/-- Keys compared lexicographically (R153). -/
def keyLe (a b : Nat × Int) : Bool := decide (a.1 < b.1) || (decide (a.1 = b.1) && decide (a.2 ≤ b.2))

/-- Put `i` before the first position whose key is not less than its own. -/
def insertByKey (rank : List Nat) (k i : Nat) : List Nat → List Nat
  | [] => [i]
  | j :: js =>
    if keyLe (pdKey rank k i) (pdKey rank k j) then i :: j :: js else j :: insertByKey rank k i js

/-- `[0 .. n-1]` sorted ascending by key (R153). Which of two equal keys comes first is unobservable (log 18). -/
def orderByKey (rank : List Nat) (k : Nat) : List Nat :=
  (List.range rank.length).foldr (insertByKey rank k) []

/-- The new ranks (R153): from the rank `r` of the position before (`prev`), each position of `rest` gets the same rank if
its key equals its predecessor's, else one more. -/
def assignRanks (rank : List Nat) (k : Nat) : List Nat → Nat → Nat → List Nat → List Nat
  | new, _, _, [] => new
  | new, r, prev, i :: rest =>
    let r' := if pdKey rank k i = pdKey rank k prev then r else r + 1
    assignRanks rank k (new.set i r') r' i rest

/-- `new[ord[0]] := 0` and the ranks after it (R153). -/
def rerank (rank : List Nat) (k : Nat) (ord : List Nat) : List Nat :=
  match ord with
  | [] => []
  | i :: rest => assignRanks rank k ((List.replicate rank.length 0).set i 0) 0 i rest

/-- The loop of `PD` (R153): the stop test only after a round's re-ranking (90_conflicts.md C4). The fuel is more than the
number of rounds, at most `ceil(log2 n) + 1` (R153; log 17). -/
def pdLoop : Nat → List Nat → Nat → List Nat
  | 0, _, _ => []
  | fuel + 1, rank, k =>
    let ord := orderByKey rank k
    let new := rerank rank k ord
    if new.foldl max 0 + 1 = rank.length then ord else pdLoop fuel new (2 * k)

/-- `PD(T)` (R153). -/
def prefixDoubling (sym : List Nat) : List Nat := pdLoop (sym.length + 1) sym 1

/-! ## The commands -/

/-- The symbols of a Text as naturals. -/
def symbols (t : List Byte) : List Nat := t.map BitVec.toNat

/-- The body of a builder (R143, R144): a Text that is not well formed is refused; else its suffix array, as 32-bit words. -/
def buildSuffixArray (builder : List Nat → List Nat) (t : List Byte) : Except Raise BodyResult :=
  if wellFormedText t then
    .ok ⟨.words ((builder (symbols t)).map (BitVec.ofNat 32)), .bytes [], ⟨infoOf t.length, 0, 0⟩, false⟩
  else .error ⟨.sentinelViolation, infoOf (sentinelInfo t)⟩

/-- The induced-sorting builder, `SAIS(T, 256)` (R143). -/
def inducedSort (sym : List Nat) : List Nat := sais sym.length sym alphaMax

/-- The body of SA_PREP (R140). -/
def bodySaPrep (s : State) : Except Raise BodyResult := prepText (s.bytesOf .src0)

/-- The body of SA_SAIS (R143). -/
def bodySaSais (s : State) : Except Raise BodyResult := buildSuffixArray inducedSort (s.bytesOf .src0)

/-- The body of SA_PD (R144). -/
def bodySaPd (s : State) : Except Raise BodyResult := buildSuffixArray prefixDoubling (s.bytesOf .src0)

/-- SA_PREP (R140). -/
def execSaPrep (s : State) : Host.Outcome State Fault Refusal := runCommand .saPrep bodySaPrep s

/-- SA_SAIS (R143). -/
def execSaSais (s : State) : Host.Outcome State Fault Refusal := runCommand .saSais bodySaSais s

/-- SA_PD (R144). -/
def execSaPd (s : State) : Host.Outcome State Fault Refusal := runCommand .saPd bodySaPd s

end Sys2Proof.Machine
end

