-- ==== Sys2Proof/Machine/Dispatch.lean ====
section
/-! DEFINITION. The dispatch of the 13 commands of 30_encoding.md R94 to their meanings: stages 2 to 6 of `Complete`
(40_sequencer.md R114). -/

namespace Sys2Proof.Machine

def exec (i : Instr) (s : State) : Host.Outcome State Fault Refusal :=
  match i with
  | .nop => Sys2Proof.Machine.execNop s
  | .saPrep => Sys2Proof.Machine.execSaPrep s
  | .saSais => Sys2Proof.Machine.execSaSais s
  | .saPd => Sys2Proof.Machine.execSaPd s
  | .bwtFwd => Sys2Proof.Machine.execBwtFwd s
  | .bwtInv => Sys2Proof.Machine.execBwtInv s
  | .alphaScan => Sys2Proof.Machine.execAlphaScan s
  | .mtfEnc => Sys2Proof.Machine.execMtfEnc s
  | .mtfDec => Sys2Proof.Machine.execMtfDec s
  | .rleEnc => Sys2Proof.Machine.execRleEnc s
  | .rleDec => Sys2Proof.Machine.execRleDec s
  | .hufBuild => Sys2Proof.Machine.execHufBuild s
  | .hufDec => Sys2Proof.Machine.execHufDec s

end Sys2Proof.Machine
end

