-- ==== Sys2Proof/Machine/HostAgent.lean ====
section
/-! DEFINITION. The host's and the platform's actions (10_state.md R20): window accesses (R29 to R31), byte accesses of
buffer memory with the races of 20_memory.md R72, polling and EXPECT (30_encoding.md R99), reset (70_reset_and_hazards.md
R290). -/

namespace Sys2Proof.Machine

/-- The source ranges of the command in progress (R63): none when the block is idle or the word names no command. -/
def activeSrc (s : State) : List Range :=
  if s.status.busy then
    match decode s.cmd with
    | .ok i => srcRanges i s.args
    | .error _ => []
  else []

/-- The destination ranges of the command in progress (R63). -/
def activeDst (s : State) : List Range :=
  if s.status.busy then
    match decode s.cmd with
    | .ok i => dstRanges i s.args
    | .error _ => []
  else []

/-- A host write of this byte is a race (R72). -/
def writeRaces (s : State) (addr : Nat) : Bool := inRanges (activeSrc s) addr || inRanges (activeDst s) addr

/-- A host read of this byte is a race (R72): only of a destination range. A byte that lies in a source range too (R117 has
not run yet) counts as a destination byte (log 27). -/
def readRaces (s : State) (addr : Nat) : Bool := inRanges (activeDst s) addr

/-- A host byte write to buffer memory (R20, R71, R72). The host sees its own write whatever else it has yet to see. -/
def hostWriteByte (s : State) (addr : Nat) (v : Byte) : Host.Outcome State Fault Refusal :=
  if addr < s.params.memSize then
    .next { s with
      mem := s.mem.write addr v
      raced := s.raced || writeRaces s addr
      stale := s.stale.map fun m => m.write addr v }
  else .fault (.bufferAddressOutside addr)

/-- The contents of memory that a host read meets before the host has read STATUS with BUSY = 0: the present ones or stale
ones (R298; log 26). They differ at most where a completion since then wrote. -/
def earlyMem (s : State) : Memory := (s.mem :: s.stale).getD (Config.earlyByte s.draws % (s.stale.length + 1)) s.mem

/-- A host read of this byte returns the byte of memory for sure: the host has seen every completion (R71 (c)), or the byte is
a source byte of the command in progress (R72). -/
def readsMemory (s : State) (addr : Nat) : Bool := s.stale.isEmpty || inRanges (activeSrc s) addr

/-- A host byte read of buffer memory (R20, R71, R72, R298): any byte if the read races; the byte of memory; or, as long as
the host has not read STATUS with BUSY = 0 since a completion, a present or a stale byte (log 26). -/
def hostReadByte (s : State) (addr : Nat) : Host.Outcome State Fault Refusal :=
  if addr < s.params.memSize then
    if readRaces s addr then
      .next { s with
        raced := true
        readData := (Config.raceByte s.draws).setWidth 32
        draws := s.draws + 1 }
    else if readsMemory s addr then .next { s with readData := (s.mem.read addr).setWidth 32 }
    else .next { s with readData := ((earlyMem s).read addr).setWidth 32, draws := s.draws + 1 }
  else .fault (.bufferAddressOutside addr)

/-- A window write (R29), refused if it is not an aligned 32-bit access (R31). -/
def hostWriteWindow (s : State) (bytes offset : Nat) (v : Word) : Host.Outcome State Fault Refusal :=
  if windowAccessOk bytes offset then .next (writeWindowAt s offset v) else .refused (.windowAccess bytes offset)

/-- A window read (R30), refused if it is not an aligned 32-bit access (R31). -/
def hostReadWindow (s : State) (bytes offset : Nat) : Host.Outcome State Fault Refusal :=
  if windowAccessOk bytes offset then .next { s with readData := readWindowAt s offset }
  else .refused (.windowAccess bytes offset)

/-- One turn of `WAIT` (R99): a read of STATUS; with BUSY = 1 the loop goes on. -/
def hostWait (s : State) : Host.Outcome State Fault Refusal :=
  .next { s with
    readData := s.status.toWord
    host := if s.status.busy then .wait :: s.host else s.host }

/-- The comparison of `EXPECT` (R99). -/
def hostExpect (s : State) (v : Word) : Host.Outcome State Fault Refusal :=
  if s.readData = v then .next s else .fault .expectFailed

/-- The effect of one host action. -/
def hostAct (a : HostAction) (s : State) : Host.Outcome State Fault Refusal :=
  match a with
  | .writeWindow bytes offset v => hostWriteWindow s bytes offset v
  | .readWindow bytes offset => hostReadWindow s bytes offset
  | .writeByte addr v => hostWriteByte s addr v
  | .readByte addr => hostReadByte s addr
  | .wait => hostWait s
  | .expectData v => hostExpect s v
  | .reset => .next (resetEvent s)

/-- The action is a host read of STATUS: RD STATUS, or a turn of WAIT (R99). -/
def readsStatus : HostAction → Bool
  | .readWindow bytes offset => windowAccessOk bytes offset && decide (offset = regOffset .status)
  | .wait => true
  | .writeWindow _ _ _ => false
  | .writeByte _ _ => false
  | .readByte _ => false
  | .expectData _ => false
  | .reset => false

/-- The host takes the action `a`, and `rest` is left: one host action less is left before the completion of a command in
progress (log 4). If it is a read of STATUS that returns BUSY = 0, the host's later reads of memory come after it in program
order and see every completed command's writes (R71 (c); log 26). No register and no byte of the block changes (R30). -/
def takeAction (a : HostAction) (rest : List HostAction) (s : State) : State :=
  { s with
    host := rest
    delay := s.delay - 1
    stale := if readsStatus a && !s.status.busy then [] else s.stale }

/-- The host takes its next action, and it has its effect. With nothing left to do the block stays as it is (R293, R303; log 9). -/
def hostTurn (s : State) : Host.Outcome State Fault Refusal :=
  match s.host with
  | [] => .next s
  | a :: rest => hostAct a (takeAction a rest s)

end Sys2Proof.Machine
end

