-- ==== Sys2Proof/Machine/Sequencer.lean ====
section
/-! DEFINITION. The sequencer (40_sequencer.md R112, R114): whose turn it is, and the step `Complete` with its stage 1. -/

namespace Sys2Proof.Machine

/-- The accepted command word (R35): SAB-CORE fetches no instructions (R36); the word in CMD is the command. -/
def fetchWord (s : State) : Word := s.cmd

/-- The sequencer moves: its step is enabled (BUSY = 1, R112), and it is the next to come (log 4), either because the host
actions drawn at acceptance are over or because the host has none left. -/
def sequencerTurn (s : State) : Bool := s.status.busy && (s.delay == 0 || s.host.isEmpty)

/-- `Complete` (R114): stage 1 decodes the word; an illegal one raises IllegalCommand with the word as ERRINFO (R96, R263);
a command runs. -/
def complete (s : State) : Host.Outcome State Fault Refusal :=
  match decode (fetchWord s) with
  | .ok i => exec i s
  | .error _ => .next (takeFault none ⟨.illegalCommand, fetchWord s⟩ s)

/-- The state with the word `w` in progress and its completion next: the effect of acceptance (R111), with no host action
before the completion (log 10). -/
def withCommand (s : State) (w : Word) : State :=
  { s with
    cmd := w
    status := busyStatus
    errinfo := 0
    res := Results.zero
    delay := 0
    raced := false }

end Sys2Proof.Machine
end

