-- ==== Sys2Proof/Machine/Step.lean ====
section
/-! DEFINITION. One step of the machine: of the sequencer, or of the host (10_state.md R20, 40_sequencer.md R112). -/

namespace Sys2Proof.Machine

/-- One step. -/
def step (s : State) : Host.Outcome State Fault Refusal :=
  if sequencerTurn s then complete s else hostTurn s

/-- The state in which the next step runs the command word `w` (R90: one 32-bit word; `nbits` adds nothing). -/
def State.withFetchWord (s : State) (_nbits w : Nat) : State := withCommand s (BitVec.ofNat 32 w)

end Sys2Proof.Machine
end

