-- ==== Sys2Proof/Safety.lean ====
section
/-! DEFINITION. The terms claims about SAB-CORE are stated in: the invariant of every state a run may meet, legal operands,
what a completion leaves unchanged, and the mathematical objects the command rules name. Written from the rules, not from
the machine's own check functions. -/

namespace Sys2Proof.Machine

/-! ## The invariant -/

/-- The legal values of STATUS (R24, R260): at most one of BUSY, DONE, ERR; TRAIL only with DONE; ERRCODE not 0 exactly with
ERR, and never one of the reserved codes 0x11 to 0xFF. -/
def Status.legal (st : Status) : Bool :=
  !(st.busy && st.done) && !(st.busy && st.err) && !(st.done && st.err) && (!st.trail || st.done)
    && (st.err == (st.errcode != 0)) && decide (st.errcode.toNat ≤ 0x10)

/-- A memory in canonical form that holds nothing at or above `size` (R34). -/
def Memory.Inside (size : Nat) (m : Memory) : Prop := m.wf ∧ ∀ c ∈ m, c.1 < size

/-- What holds in every state of a run. -/
structure Inv (s : State) : Prop where
  /-- Memory has its canonical form. -/
  memCanonical : s.mem.wf
  /-- Memory holds nothing at or above MEM_SIZE (R34). -/
  memInside : ∀ c ∈ s.mem, c.1 < s.params.memSize
  /-- STATUS is legal (R24). -/
  statusLegal : s.status.legal = true
  /-- ERRINFO is 0 unless the last command ended with a fault (R25). -/
  infoOnlyAfterFault : s.status.err = false → s.errinfo = 0
  /-- The results are 0 while a command is in progress (R27, R111). -/
  noResultsWhileBusy : s.status.busy = true → s.res = Results.zero
  /-- A race is recorded only while a command is in progress (R72). -/
  raceOnlyWhileBusy : s.raced = true → s.status.busy = true
  /-- What the host may still see of memory is memory too (R298; log 26). -/
  staleInside : ∀ m ∈ s.stale, m.Inside s.params.memSize

/-- STATUS describes the command in CMD (R24: "the last command"): TRAIL only after RLE_DEC, and an error code only one
the row of R261 gives that command, or IllegalCommand with the word in ERRINFO if CMD is illegal (R96). -/
structure DescribesLastCommand (s : State) : Prop where
  trailIsRleDec : s.status.trail = true → decode s.cmd = .ok .rleDec
  errOfCommand : s.status.err = true → ∀ i, decode s.cmd = .ok i → ∃ e ∈ faultTable i, s.status.errcode = e.1.code
  errOfIllegal : s.status.err = true → ∀ e, decode s.cmd = .error e →
    s.status.errcode = ErrorKind.code .illegalCommand ∧ s.errinfo = s.cmd

/-! ## Legal operands (R115 to R117) -/

/-- A used source or PARAM is over its limit (R115). -/
abbrev OverLimit (i : Instr) (s : State) (k : Operand) : Prop :=
  if k = .param then i = .hufDec ∧ s.params.lenMax < s.args.param.toNat
  else (operandSize i k).isSome = true ∧
    if i = .saPrep then s.params.lenMax ≤ operandCount s.args k else s.params.lenMax < operandCount s.args k

/-- A used operand is not empty and not wholly below MEM_SIZE (R116). -/
abbrev OutsideMemory (i : Instr) (s : State) (k : Operand) : Prop :=
  (operandSize i k).isSome = true ∧ 0 < operandCount s.args k ∧
    s.params.memSize < operandAddr s.args k + (operandSize i k).getD 0 * operandCount s.args k

/-- Two used operands overlap (R117): with ranges `[p, p + l)` and `[q, q + m)`, `l > 0`, `m > 0`, `p < q + m`, `q < p + l`. -/
abbrev Overlapping (i : Instr) (s : State) (a b : Operand) : Prop :=
  (operandSize i a).isSome = true ∧ (operandSize i b).isSome = true ∧
    0 < (operandSize i a).getD 0 * operandCount s.args a ∧ 0 < (operandSize i b).getD 0 * operandCount s.args b ∧
    operandAddr s.args a < operandAddr s.args b + (operandSize i b).getD 0 * operandCount s.args b ∧
    operandAddr s.args b < operandAddr s.args a + (operandSize i a).getD 0 * operandCount s.args a

/-- The operands pass stages 2, 3 and 4: no limit, no address and no overlap problem. -/
abbrev OperandsLegal (i : Instr) (s : State) : Prop :=
  (∀ k ∈ ([.src0, .src1, .param] : List Operand), ¬ OverLimit i s k) ∧
    (∀ k ∈ ([.src0, .src1, .dst0, .dst1] : List Operand), ¬ OutsideMemory i s k) ∧
    ∀ p ∈ ([(.src0, .dst0), (.src0, .dst1), (.src1, .dst0), (.src1, .dst1), (.dst0, .dst1)] : List (Operand × Operand)),
      ¬ Overlapping i s p.1 p.2

/-- The body of a command's rule (R121), as its meaning uses it. -/
def bodyOf : Instr → State → Except Raise BodyResult
  | .nop => bodyNop
  | .saPrep => bodySaPrep
  | .saSais => bodySaSais
  | .saPd => bodySaPd
  | .bwtFwd => bodyBwtFwd
  | .bwtInv => bodyBwtInv
  | .alphaScan => bodyAlphaScan
  | .mtfEnc => bodyMtfEnc
  | .mtfDec => bodyMtfDec
  | .rleEnc => bodyRleEnc
  | .rleDec => bodyRleDec
  | .hufBuild => bodyHufBuild
  | .hufDec => bodyHufDec

/-! ## What a completion leaves -/

/-- The parts no command writes: the parameters with ID, CMD, the argument registers (R22, R26, R262), and the host's own
side. -/
structure KeepsInputs (s t : State) : Prop where
  params : t.params = s.params
  cmd : t.cmd = s.cmd
  args : t.args = s.args
  host : t.host = s.host
  readData : t.readData = s.readData

/-- The command ended with this STATUS, ERRINFO and results, and kept its inputs. Until it reads STATUS the host may still see
memory as it was before (R298; log 26). -/
structure EndsWith (s t : State) (st : Status) (info : Word) (res : Results) : Prop where
  keeps : KeepsInputs s t
  status : t.status = st
  errinfo : t.errinfo = info
  results : t.res = res
  unseen : t.stale = s.mem :: s.stale

/-- `out` stands at address `a`, and every byte outside `[a, a + len(out))` reads as before (R65). -/
def Stores (s t : State) (a : Nat) (out : List Byte) : Prop :=
  t.mem.readBytes a out.length = out ∧ ∀ b, b < a ∨ a + out.length ≤ b → t.mem.read b = s.mem.read b

/-- Every byte outside the ranges reads as before. -/
def UnchangedOutside (rs : List Range) (s t : State) : Prop :=
  ∀ b, inRanges rs b = false → t.mem.read b = s.mem.read b

/-- The command ended with the fault `E(v)` of stage 5 or 6 (R262): destination ranges open, all else unchanged. -/
def FaultsLate (i : Instr) (s : State) (k : ErrorKind) (info : Word) : Prop :=
  ∃ t, exec i s = .next t ∧ EndsWith s t (errStatus k) info Results.zero ∧ UnchangedOutside (dstRanges i s.args) s t

/-- The command ended with the fault `E(v)` of stage 2, 3 or 4 (R262): no byte of memory is written. -/
def FaultsEarly (i : Instr) (s : State) (k : ErrorKind) (info : Word) : Prop :=
  ∃ t, exec i s = .next t ∧ EndsWith s t (errStatus k) info Results.zero ∧ t.mem = s.mem

/-- A host action that cannot stop the model: a defined window access, a buffer address that exists, no EXPECT. -/
def actionRuns (memSize : Nat) : HostAction → Bool
  | .writeByte addr _ => decide (addr < memSize)
  | .readByte addr => decide (addr < memSize)
  | .expectData _ => false
  | a => a.wellFormed

/-- No register of the window and no parameter changed. -/
structure SameRegisters (s t : State) : Prop where
  params : t.params = s.params
  cmd : t.cmd = s.cmd
  status : t.status = s.status
  errinfo : t.errinfo = s.errinfo
  args : t.args = s.args
  res : t.res = s.res

/-- The address lies in one of the ranges `rs` gives for the command in progress (R63: active from acceptance to
completion). -/
def Active (s : State) (rs : Instr → Args → List Range) (addr : Nat) : Prop :=
  s.status.busy = true ∧ ∃ i, decode s.cmd = .ok i ∧ inRanges (rs i s.args) addr = true

/-! ## The mathematics of the command rules -/

/-- A well-formed Text (R141). -/
def IsText (t : List Byte) : Prop := ∃ body, t = body ++ [0] ∧ ∀ b ∈ body, b ≠ 0

/-- `sa` is the suffix array of `t` (R142): a permutation of [0, n) whose suffixes rise in the order of R11. -/
def IsSuffixArray (t : List Byte) (sa : List Nat) : Prop :=
  sa.Perm (List.range t.length) ∧ (sa.map fun i => (t.map BitVec.toNat).drop i).Pairwise (· < ·)

/-! ### Codebook entries and bits in memory -/

/-- The bit string of a codebook entry (R9): its `len` low bits, bit `len - 1` first. -/
def Entry.bits (e : Entry) : List Bool := (List.range e.len.toNat).map fun j => e.code.getLsbD (e.len.toNat - 1 - j)

/-- The Codebook `cb` stands at address `a` (R13, R62, R238): entry k is sym at `a + 6k`, len at `a + 6k + 1`, and the four
bytes of code from `a + 6k + 2` on, bits 7:0 first (R66). -/
abbrev EntriesAt (m : Memory) (a : Nat) (cb : List Entry) : Prop :=
  ∀ p ∈ cb.zipIdx, m.read (a + 6 * p.2) = p.1.sym ∧ m.read (a + 6 * p.2 + 1) = p.1.len ∧
    ∀ j, j < 4 → m.read (a + 6 * p.2 + 2 + j) = p.1.code.extractLsb' (8 * j) 8

/-- Bit j of a byte sequence as a Bitstream (R67): bit `7 - (j mod 8)` of byte `j div 8`. -/
def streamBit (bs : List Byte) (j : Nat) : Bool := (bs.getD (j / 8) 0).getLsbD (7 - j % 8)

/-- The bits of a Bitstream in stream order (R67). -/
def streamBits (bs : List Byte) : List Bool := (List.range (8 * bs.length)).map (streamBit bs)

/-! ### Huffman codes (R231 to R236), as a relation on the data -/

/-- The symbols present in `d`, ascending (R231). -/
def IsAlphabet (syms d : List Byte) : Prop := syms.Pairwise (fun b c => b.toNat < c.toNat) ∧ ∀ c, c ∈ syms ↔ c ∈ d

/-- The key `(frequency, id)` of `a` is less than that of `b`, lexicographically (R233). -/
def KeyLess (a b : LiveNode) : Prop := a.freq < b.freq ∨ a.freq = b.freq ∧ a.id < b.id

/-- Merging (R234): from the live nodes, the next new id being `next`, the tree `root` results. The node `a` of the least key
becomes the left child, the node `b` of the least key among the others the right child of a new node with the summed
frequency. -/
inductive Merges : Nat → List LiveNode → HufTree → Prop
  | root (next : Nat) (n : LiveNode) : Merges next [n] n.tree
  | merge (next : Nat) (live rest : List LiveNode) (a b : LiveNode) (root : HufTree) (others : live.Perm (a :: b :: rest))
    (first : ∀ n ∈ b :: rest, KeyLess a n) (second : ∀ n ∈ rest, KeyLess b n)
    (more : Merges (next + 1) (⟨a.freq + b.freq, next, .node a.tree b.tree⟩ :: rest) root) : Merges next live root

/-- The path from the root of the tree to the leaf of a symbol (R236): `false` (bit 0) for left, `true` (bit 1) for right. -/
inductive PathTo : HufTree → Byte → List Bool → Prop
  | leaf (c : Byte) : PathTo (.leaf c) c []
  | left (l r : HufTree) (c : Byte) (bits : List Bool) (below : PathTo l c bits) : PathTo (.node l r) c (false :: bits)
  | right (l r : HufTree) (c : Byte) (bits : List Bool) (below : PathTo r c bits) : PathTo (.node l r) c (true :: bits)

/-- `bits` is the code of `c` for the data `d`: the one bit 0 if `c` is the only symbol (R235); else the path to `c` in the
tree merged from one leaf per symbol, in ascending order with ids 0, 1, ... and their frequencies (R231, R232). -/
def HuffmanCode (d : List Byte) (c : Byte) (bits : List Bool) : Prop :=
  ∃ syms, IsAlphabet syms d ∧
    (syms = [c] ∧ bits = [false] ∨
      2 ≤ syms.length ∧ ∃ root, Merges syms.length (syms.zipIdx.map fun p => ⟨d.count p.1, p.2, .leaf p.1⟩) root ∧
        PathTo root c bits)

/-- The number whose binary digits the bits are, most significant first (R9; `2*c`, `2*c + 1` of R236). -/
def bitsValue (bits : List Bool) : Nat := bits.foldl (fun v b => 2 * v + b.toNat) 0

/-- The Codebook of R238 for the symbols `syms` with the codes `code`. -/
def codebookFor (syms : List Byte) (code : Byte → List Bool) : List Entry :=
  syms.map fun c => ⟨c, BitVec.ofNat 8 (code c).length, BitVec.ofNat 32 (bitsValue (code c))⟩

/-! ### Codebooks (R241) and decoding -/

/-- A valid Codebook (R241): lengths 1 to 32, codes below 2^len, no symbol twice, no code a prefix of another's. -/
def ValidCodebook (cb : List Entry) : Prop :=
  (∀ e ∈ cb, e.len.toNat ≠ 0 ∧ e.len.toNat ≤ 32 ∧ e.code.toNat < 2 ^ e.len.toNat) ∧
    cb.Pairwise fun e f => e.sym ≠ f.sym ∧ ¬ e.bits <+: f.bits ∧ ¬ f.bits <+: e.bits

/-- `used` is a bit string that decodes to `out` with the Codebook: the codes of its symbols one after another. -/
inductive DecodesTo (cb : List Entry) : List Bool → List Byte → Prop
  | nil : DecodesTo cb [] []
  | cons (e : Entry) (rest : List Bool) (out : List Byte) (mem : e ∈ cb) (tail : DecodesTo cb rest out) :
    DecodesTo cb (e.bits ++ rest) (e.sym :: out)

end Sys2Proof.Machine
end

