-- ==== Sys2Proof/Certificates/Slice0/Obligations.lean ====
section
/-! DEFINITION. The statements of this model, each from a numbered rule of spec/. -/

open Sys2Proof Sys2Proof.Machine

/-! ## Command words and steps -/

/-- R94, R95 and the encoder: every command is well formed, and decoding its word gives it back. -/
def Obligations.DecodeOfEncodeIsTheCommand : Prop :=
  ∀ i : Instr, i.wellFormed = true ∧ decode (encode i) = .ok i

/-- R94, R95: the decoder accepts exactly the 13 words of the opcode map, each as its command, and the completion decodes
the word in CMD. -/
def Obligations.DecoderAcceptsExactlyTheOpcodeMap : Prop :=
  (∀ (w : Word) (i : Instr), decode w = .ok i ↔
    (w, i) ∈ ([(0x00000000, .nop), (0x00000011, .saPrep), (0x00000012, .saSais), (0x00000013, .saPd),
      (0x00000021, .bwtFwd), (0x00000031, .bwtInv), (0x00000041, .alphaScan), (0x00000042, .mtfEnc),
      (0x00000043, .mtfDec), (0x00000051, .rleEnc), (0x00000052, .rleDec), (0x00000061, .hufBuild),
      (0x00000062, .hufDec)] : List (Word × Instr))) ∧
  ∀ (s : State) (i : Instr), decode s.cmd = .ok i → complete s = exec i s

/-- R94, R96: a few words, legal and illegal. -/
def Obligations.SampleWordsDecodeAsTheTableSays : Prop :=
  decode 0x00000000 = .ok .nop ∧ decode 0x00000012 = .ok .saSais ∧ decode 0x00000051 = .ok .rleEnc ∧
    decode 0x00000062 = .ok .hufDec ∧ decode 0x00000014 = .error .undefinedFunc ∧
    decode 0x00000151 = .error .reservedBits ∧ decode 0x00000071 = .error .reservedEngine

/-- A step of the sequencer runs the command in CMD. When the sequencer moves (no host action left before the completion,
or none at all) is the model's choice, log 4; withFetchWord is log 10. -/
def Obligations.StepRunsTheAcceptedCommand : Prop :=
  (∀ (s : State) (i : Instr), s.status.busy = true → s.delay = 0 ∨ s.host = [] → decode s.cmd = .ok i →
    step s = exec i s) ∧
  ∀ (s : State) (w : Word) (i : Instr), decode w = .ok i →
    step (s.withFetchWord 32 w.toNat) = exec i (s.withFetchWord 32 w.toNat)

/-- R96: which words are illegal, that an illegal word is accepted like any other, and that its completion raises
IllegalCommand with the word and has no other effect. -/
def Obligations.IllegalWordsAreAcceptedAndFault : Prop :=
  (∀ w : Word, (∀ i, decode w ≠ .ok i) ↔
    w.extractLsb' 8 24 ≠ 0 ∨ 7 ≤ (w.extractLsb' 4 4).toNat ∨
      ((w.extractLsb' 4 4).toNat, (w.extractLsb' 0 4).toNat) ∉
        ([(0, 0), (1, 1), (1, 2), (1, 3), (2, 1), (3, 1), (4, 1), (4, 2), (4, 3), (5, 1), (5, 2), (6, 1), (6, 2)] :
          List (Nat × Nat))) ∧
  (∀ (s : State) (w : Word) (rest : List HostAction), s.status.busy = false →
    s.host = .writeWindow 4 0x04 w :: rest → ∃ t, step s = .next t ∧ t.status.busy = true ∧ t.cmd = w) ∧
  ∀ s : State, s.status.busy = true → s.delay = 0 ∨ s.host = [] → (∀ i, decode s.cmd ≠ .ok i) →
    ∃ t, step s = .next t ∧ EndsWith s t (errStatus .illegalCommand) s.cmd Results.zero ∧ t.mem = s.mem

/-- R293, R303: an idle block with nothing to do stays as it is (that this is a step is the model's choice, log 9). -/
def Obligations.IdleBlockStays : Prop :=
  ∀ s : State, s.status.busy = false → s.host = [] → step s = .next s

/-! ## The register window -/

/-- R111: the effects of acceptance, when the host's next action is a write to CMD. (What the host may still see of memory is
as before: log 26.) -/
def Obligations.CommandWriteWhileIdleIsAccepted : Prop :=
  ∀ (s : State) (w : Word) (rest : List HostAction), s.status.busy = false → s.host = .writeWindow 4 0x04 w :: rest →
    ∃ t, step s = .next t ∧ t.cmd = w ∧ t.status = ⟨true, false, false, false, 0⟩ ∧ t.errinfo = 0 ∧ t.res = ⟨0, 0, 0⟩ ∧
      t.params = s.params ∧ t.args = s.args ∧ t.mem = s.mem ∧ t.stale = s.stale

/-- R29 (a), (b), R28: a write while BUSY = 1, and a write to a read-only register or a reserved offset, has no effect on
any register or on memory. (The action leaves the model's queue, and its delay counts down: logs 3, 4.) -/
def Obligations.IneffectiveWindowWritesChangeNothing : Prop :=
  ∀ (s : State) (offset : Nat) (v : Word) (rest : List HostAction), s.host = .writeWindow 4 offset v :: rest →
    offset % 4 = 0 → offset < 0x100 →
    (s.status.busy = true ∧ s.delay ≠ 0 ∨
      s.status.busy = false ∧ (offset ∈ [0x00, 0x08, 0x0C, 0x34, 0x38, 0x3C] ∨ 0x40 ≤ offset)) →
    step s = .next { s with host := rest, delay := s.delay - 1 }

/-- R26, R29 (c): a write to an argument register while BUSY = 0 stores all 32 bits, reads back as written, and changes
nothing else. -/
def Obligations.ArgumentWriteIsStored : Prop :=
  ∀ (s : State) (offset : Nat) (v : Word) (rest : List HostAction), s.status.busy = false →
    s.host = .writeWindow 4 offset v :: rest →
    offset ∈ [0x10, 0x14, 0x18, 0x1C, 0x20, 0x24, 0x28, 0x2C, 0x30] →
    ∃ t, step s = .next t ∧ readWindowAt t offset = v ∧
      (∀ other, other ≠ offset → readWindowAt t other = readWindowAt s other) ∧
      t.status = s.status ∧ t.mem = s.mem ∧ t.params = s.params ∧ t.host = rest ∧ t.raced = s.raced ∧ t.stale = s.stale

/-- R21, R28, R30: what a window read returns, at every offset and in every state in which the host moves (that ERRINFO and the
results are read as they are right after a completion is the model's deduction from R30 where R298 says 0, log 30), and that it
changes no state of the block. The model's own fields change as logs 3, 4 and 8 say; and after a read of STATUS that returns
BUSY = 0, WAIT's too (log 14), the host's reads of memory are ordered after every completion (R71 (c): nothing is `stale`,
log 26). -/
def Obligations.WindowReadReturnsTheRegister : Prop :=
  ∀ (s : State) (offset : Nat) (rest : List HostAction), s.status.busy = false ∨ s.delay ≠ 0 →
    (s.host = .readWindow 4 offset :: rest → offset % 4 = 0 → offset < 0x100 →
      step s = .next { s with
        host := rest
        delay := s.delay - 1
        readData :=
          if 0x40 ≤ offset then 0
          else [s.params.implId, s.cmd, s.status.toWord, s.errinfo, s.args.src0Addr, s.args.src0Len, s.args.src1Addr,
            s.args.src1Len, s.args.dst0Addr, s.args.dst0Cap, s.args.dst1Addr, s.args.dst1Cap, s.args.param, s.res.res0,
            s.res.res1, s.res.res2].getD (offset / 4) 0
        stale := if offset = 0x08 ∧ s.status.busy = false then [] else s.stale }) ∧
    (s.host = .wait :: rest →
      step s = .next { s with
        host := if s.status.busy then .wait :: rest else rest
        delay := s.delay - 1
        readData := s.status.toWord
        stale := if s.status.busy = false then [] else s.stale })

/-- R31: when the host moves (log 4), any other window access is refused. That a malformed WRITE is refused while BUSY = 1
too is the model's reading (log 12) of R31 against R29 (b), which says that a write to any offset while busy has no
effect. -/
def Obligations.MalformedWindowAccessIsRefused : Prop :=
  ∀ (s : State) (bytes offset : Nat) (v : Word) (rest : List HostAction), s.status.busy = false ∨ s.delay ≠ 0 →
    bytes ≠ 4 ∨ offset % 4 ≠ 0 ∨ 0x100 ≤ offset →
    (s.host = .writeWindow bytes offset v :: rest → step s = .refused (.windowAccess bytes offset)) ∧
    (s.host = .readWindow bytes offset :: rest → step s = .refused (.windowAccess bytes offset))

/-- R24: the layout of the STATUS word. -/
def Obligations.StatusWordLayout : Prop :=
  ∀ st : Status, st.toWord.getLsbD 0 = st.busy ∧ st.toWord.getLsbD 1 = st.done ∧ st.toWord.getLsbD 2 = st.err ∧
    st.toWord.getLsbD 3 = st.trail ∧ st.toWord.extractLsb' 4 4 = 0 ∧ st.toWord.extractLsb' 8 8 = st.errcode ∧
    st.toWord.extractLsb' 16 16 = 0

/-- R98, R99, R100: the worked example of R100 as host actions, with register names and with offsets; EXPECT of a register,
of the reserved offset 0x40 and of memory; CMD and WAIT. WAIT as one action is the model's choice (log 14), and so is one read
and one comparison per byte in EXPECT of memory (log 28). -/
def Obligations.RunStatementIsTheWritesOfItsExample : Prop :=
  (let actions : List HostAction := [.writeWindow 4 0x10 0x00000100, .writeWindow 4 0x14 0x00000007,
      .writeWindow 4 0x20 0x00000200, .writeWindow 4 0x24 0x00000007, .writeWindow 4 0x04 0x00000012, .wait]
   stmtActions (.run .saSais [(.name .src0Addr, 0x100), (.name .src0Len, 7), (.name .dst0Addr, 0x200),
      (.name .dst0Cap, 7)]) = actions ∧
   stmtActions (.run .saSais [(.offset 0x10, 0x100), (.name .src0Len, 7), (.offset 0x20, 0x200),
      (.offset 0x24, 7)]) = actions) ∧
  stmtActions (.expectReg (.name .res0) 7) = [.readWindow 4 0x34, .expectData 7] ∧
  stmtActions (.expectReg (.offset 0x40) 0) = [.readWindow 4 0x40, .expectData 0] ∧
  stmtActions (.expectMem 0x200 [0x61, 0]) =
    [.readByte 0x200, .expectData 0x61, .readByte 0x201, .expectData 0] ∧
  stmtActions (.command .hufDec) = [.writeWindow 4 0x04 0x00000062] ∧ stmtActions .wait = [.wait]

/-! ## The 13 commands on operands they succeed on -/

/-- R122: NOP, from any state. -/
def Obligations.NopCompletes : Prop :=
  encode .nop = 0x00000000 ∧
  ∀ s : State, s.raced = false →
    ∃ t, exec .nop s = .next t ∧ EndsWith s t (doneStatus false) 0 ⟨0, 0, 0⟩ ∧ t.status.toWord = 0x00000002 ∧
      t.mem = s.mem

/-- R140: SA_PREP of an input with no 0 byte before its last. -/
def Obligations.SaPrepAppendsTheSentinel : Prop :=
  ∀ (s : State) (input text : List Byte), s.raced = false → s.mem.wf → OperandsLegal .saPrep s →
    s.bytesOf .src0 = input → (∀ k, k + 1 < input.length → input.getD k 1 ≠ 0) →
    text = (if input.getLast? = some 0 then input else input ++ [0]) →
    text.length ≤ operandCount s.args .dst0 →
    ∃ t, exec .saPrep s = .next t ∧
      EndsWith s t (doneStatus false) 0 ⟨BitVec.ofNat 32 text.length, BitVec.ofNat 32 (text.length - 1),
        if input.getLast? = some 0 then 1 else 0⟩ ∧
      Stores s t (operandAddr s.args .dst0) text

/-- R143 (its frame and results; that the array is SA(T) is `InducedSortingBuildsTheSuffixArray`): SA_SAIS of a Text. -/
def Obligations.SaSaisWritesItsArray : Prop :=
  ∀ s : State, s.raced = false → s.mem.wf → OperandsLegal .saSais s → IsText (s.bytesOf .src0) →
    operandCount s.args .src0 ≤ operandCount s.args .dst0 →
    ∃ t, exec .saSais s = .next t ∧ EndsWith s t (doneStatus false) 0 ⟨s.args.src0Len, 0, 0⟩ ∧
      Stores s t (operandAddr s.args .dst0)
        ((inducedSort ((s.bytesOf .src0).map BitVec.toNat)).flatMap fun e => leBytes (BitVec.ofNat 32 e))

/-- R144 (its frame and results; that the array is SA(T) is `PrefixDoublingBuildsTheSuffixArray`): SA_PD of a
Text. -/
def Obligations.SaPdWritesItsArray : Prop :=
  ∀ s : State, s.raced = false → s.mem.wf → OperandsLegal .saPd s → IsText (s.bytesOf .src0) →
    operandCount s.args .src0 ≤ operandCount s.args .dst0 →
    ∃ t, exec .saPd s = .next t ∧ EndsWith s t (doneStatus false) 0 ⟨s.args.src0Len, 0, 0⟩ ∧
      Stores s t (operandAddr s.args .dst0)
        ((prefixDoubling ((s.bytesOf .src0).map BitVec.toNat)).flatMap fun e => leBytes (BitVec.ofNat 32 e))

/-- R170: BWT_FWD of a Text and an array of in-range entries. -/
def Obligations.BwtFwdWritesTheLastColumn : Prop :=
  ∀ (s : State) (text : List Byte) (sa : List Nat), s.raced = false → s.mem.wf → OperandsLegal .bwtFwd s →
    s.bytesOf .src0 = text → s.wordsOf .src1 = sa → sa.length = text.length → (∀ e ∈ sa, e < text.length) →
    text.length ≤ operandCount s.args .dst0 →
    ∃ t, exec .bwtFwd s = .next t ∧ EndsWith s t (doneStatus false) 0 ⟨s.args.src0Len, 0, 0⟩ ∧
      Stores s t (operandAddr s.args .dst0)
        (sa.map fun e => if e = 0 then text.getD (text.length - 1) 0 else text.getD (e - 1) 0)

/-- R180 to R183: BWT_INV of a sequence with exactly one 0 byte, at `p0`: there is a walk `p`, from `p0` at the last index
down, by the LF-mapping, and the output holds the bytes met. -/
def Obligations.BwtInvWalksTheLfMapping : Prop :=
  ∀ (s : State) (l : List Byte) (p0 : Nat), s.raced = false → s.mem.wf → OperandsLegal .bwtInv s →
    s.bytesOf .src0 = l → p0 < l.length → (∀ k, k < l.length → (l.getD k 1 = 0 ↔ k = p0)) →
    l.length ≤ operandCount s.args .dst0 →
    ∃ (t : State) (text : List Byte) (p : Nat → Nat), exec .bwtInv s = .next t ∧
      EndsWith s t (doneStatus false) 0 ⟨s.args.src0Len, 0, 0⟩ ∧ Stores s t (operandAddr s.args .dst0) text ∧
      text.length = l.length ∧ p (l.length - 1) = p0 ∧
      ∀ k, k < l.length → p k < l.length ∧ text.getD k 0 = l.getD (p k) 0 ∧
        (0 < k → p (k - 1) =
          (l.filter fun b => b.toNat < (l.getD (p k) 0).toNat).length + ((l.take (p k)).count (l.getD (p k) 0)))

/-- R190: ALPHA_SCAN writes the distinct bytes of its source, ascending. -/
def Obligations.AlphaScanWritesTheAlphabet : Prop :=
  ∀ (s : State) (l : List Byte), s.raced = false → s.mem.wf → OperandsLegal .alphaScan s → s.bytesOf .src0 = l →
    l.dedup.length ≤ operandCount s.args .dst0 →
    ∃ (t : State) (a : List Byte), exec .alphaScan s = .next t ∧
      EndsWith s t (doneStatus false) 0 ⟨BitVec.ofNat 32 a.length, 0, 0⟩ ∧ Stores s t (operandAddr s.args .dst0) a ∧
      a.Pairwise (fun b c => b.toNat < c.toNat) ∧ ∀ c, c ∈ a ↔ c ∈ l

/-- R192, R194: MTF_ENC of bytes that all occur in the Alphabet: recency lists `r 0` (the Alphabet), `r 1`, ... with, at
each index, the least index of the byte in the list as output, and the next list by MoveToFront. -/
def Obligations.MtfEncWritesTheIndexes : Prop :=
  ∀ (s : State) (l a : List Byte), s.raced = false → s.mem.wf → OperandsLegal .mtfEnc s → s.bytesOf .src0 = l →
    s.bytesOf .src1 = a → a.length ≤ 256 → (∀ b ∈ l, b ∈ a) → l.length ≤ operandCount s.args .dst0 →
    ∃ (t : State) (m : List Byte) (r : Nat → List Byte), exec .mtfEnc s = .next t ∧
      EndsWith s t (doneStatus false) 0 ⟨s.args.src0Len, 0, 0⟩ ∧ Stores s t (operandAddr s.args .dst0) m ∧
      m.length = l.length ∧ r 0 = a ∧
      ∀ i, i < l.length → (r i)[(m.getD i 0).toNat]? = some (l.getD i 0) ∧
        (∀ j, j < (m.getD i 0).toNat → (r i)[j]? ≠ some (l.getD i 0)) ∧
        r (i + 1) = (if (m.getD i 0).toNat = 0 then r i
          else l.getD i 0 :: ((r i).take (m.getD i 0).toNat ++ (r i).drop ((m.getD i 0).toNat + 1)))

/-- R193, R194: MTF_DEC of indexes all below the Alphabet's length. -/
def Obligations.MtfDecWritesTheBytes : Prop :=
  ∀ (s : State) (m a : List Byte), s.raced = false → s.mem.wf → OperandsLegal .mtfDec s → s.bytesOf .src0 = m →
    s.bytesOf .src1 = a → a.length ≤ 256 → (∀ j ∈ m, j.toNat < a.length) → m.length ≤ operandCount s.args .dst0 →
    ∃ (t : State) (l : List Byte) (r : Nat → List Byte), exec .mtfDec s = .next t ∧
      EndsWith s t (doneStatus false) 0 ⟨s.args.src0Len, 0, 0⟩ ∧ Stores s t (operandAddr s.args .dst0) l ∧
      l.length = m.length ∧ r 0 = a ∧
      ∀ i, i < m.length → (r i)[(m.getD i 0).toNat]? = some (l.getD i 0) ∧
        r (i + 1) = (if (m.getD i 0).toNat = 0 then r i
          else l.getD i 0 :: ((r i).take (m.getD i 0).toNat ++ (r i).drop ((m.getD i 0).toNat + 1)))

/-- R210: RLE_ENC writes the encoding of its source (`ZeroRunsAreEncodedAsPairs` says what that encoding is). -/
def Obligations.RleEncWritesTheEncoding : Prop :=
  ∀ (s : State) (out : List Byte), s.raced = false → s.mem.wf → OperandsLegal .rleEnc s →
    out = rleEncode (s.bytesOf .src0) 0 → out.length ≤ operandCount s.args .dst0 →
    ∃ t, exec .rleEnc s = .next t ∧ EndsWith s t (doneStatus false) 0 ⟨BitVec.ofNat 32 out.length, 0, 0⟩ ∧
      Stores s t (operandAddr s.args .dst0) out

/-- R210, R211: the encoding of a maximal run of `k ≥ 1` zeros, at the end or before a non-zero byte, and of non-zero
bytes; a full 255 is the pair (0, 255), a remainder `r < 255` the final pair (0, r). -/
def Obligations.ZeroRunsAreEncodedAsPairs : Prop :=
  (rleEncode [] 0 = []) ∧
  (∀ (b : Byte) (rest : List Byte), b ≠ 0 → rleEncode (b :: rest) 0 = b :: rleEncode rest 0) ∧
  (∀ k, 0 < k → rleEncode (List.replicate k 0) 0 = encodeRun k) ∧
  (∀ (k : Nat) (b : Byte) (rest : List Byte), 0 < k → b ≠ 0 →
    rleEncode (List.replicate k 0 ++ b :: rest) 0 = encodeRun k ++ rleEncode (b :: rest) 0) ∧
  (∀ r, 255 ≤ r → encodeRun r = [0, 255] ++ encodeRun (r - 255)) ∧
  ∀ r, r < 255 → encodeRun r = [0, BitVec.ofNat 8 r]

/-- R212, R213: RLE_DEC writes the decoding of its source: `out` and TRAIL given by how the source is read, each 0 with the
byte after it, the others alone, a last lone 0 setting TRAIL and emitting nothing. -/
def Obligations.RleDecWritesTheDecoding : Prop :=
  ∀ (s : State) (blocks : List (Byte × Byte)) (trail : Bool) (out : List Byte), s.raced = false → s.mem.wf →
    OperandsLegal .rleDec s →
    s.bytesOf .src0 = (blocks.flatMap fun p => if p.1 = 0 then [0, p.2] else [p.1]) ++ (if trail then [0] else []) →
    out = (blocks.flatMap fun p => if p.1 = 0 then List.replicate p.2.toNat 0 else [p.1]) →
    out.length ≤ operandCount s.args .dst0 →
    ∃ t, exec .rleDec s = .next t ∧ EndsWith s t (doneStatus trail) 0 ⟨BitVec.ofNat 32 out.length, 0, 0⟩ ∧
      Stores s t (operandAddr s.args .dst0) out

/-- R230 to R236, R238, R239: every symbol of the data has a code, as `HuffmanCode` says; and HUF_BUILD of data whose codes all
fit 32 bits writes one Codebook entry per symbol, ascending, the codes of the data one after another as a Bitstream with
bit j at bit `7 - (j mod 8)` of byte `j div 8` and 0 after the last, the three results, and no other byte. An empty input
gives an empty Codebook and Bitstream. -/
def Obligations.HufBuildWritesCodebookAndBitstream : Prop :=
  (∀ d : List Byte, ∃ code : Byte → List Bool, ∀ c ∈ d, HuffmanCode d c (code c)) ∧
  ∀ (s : State) (d syms : List Byte) (code : Byte → List Bool) (bits : List Bool) (nB : Nat), s.raced = false →
    s.mem.wf → OperandsLegal .hufBuild s → s.bytesOf .src0 = d → IsAlphabet syms d →
    (∀ c ∈ d, HuffmanCode d c (code c) ∧ (code c).length ≤ 32) →
    bits = d.flatMap code → nB = (bits.length + 7) / 8 →
    syms.length ≤ operandCount s.args .dst0 → nB ≤ operandCount s.args .dst1 →
    ∃ t, exec .hufBuild s = .next t ∧
      EndsWith s t (doneStatus false) 0
        ⟨BitVec.ofNat 32 syms.length, BitVec.ofNat 32 nB, BitVec.ofNat 32 (8 * nB - bits.length)⟩ ∧
      EntriesAt t.mem (operandAddr s.args .dst0) (codebookFor syms code) ∧
      (∀ j, j < 8 * nB →
        (t.mem.read (operandAddr s.args .dst1 + j / 8)).getLsbD (7 - j % 8) = bits.getD j false) ∧
      ∀ b, (b < operandAddr s.args .dst0 ∨ operandAddr s.args .dst0 + 6 * syms.length ≤ b) →
        (b < operandAddr s.args .dst1 ∨ operandAddr s.args .dst1 + nB ≤ b) → t.mem.read b = s.mem.read b

/-- R240, R242, R243, R67, R13: HUF_DEC with a valid Codebook in memory (entry k: sym, len, code little-endian at 6k) of a
Bitstream (bit j at bit `7 - (j mod 8)` of byte `j div 8`) that begins with the codes of PARAM symbols writes those
symbols, and RES1 is the number of bytes that hold a consumed bit; what follows is ignored. -/
def Obligations.HufDecWritesTheSymbols : Prop :=
  ∀ (s : State) (cb : List Entry) (used rest : List Bool) (out : List Byte), s.raced = false → s.mem.wf →
    OperandsLegal .hufDec s → cb.length = operandCount s.args .src1 →
    EntriesAt s.mem (operandAddr s.args .src1) cb → ValidCodebook cb → DecodesTo cb used out →
    streamBits (s.bytesOf .src0) = used ++ rest → out.length = operandCount s.args .param →
    out.length ≤ operandCount s.args .dst0 →
    ∃ t, exec .hufDec s = .next t ∧
      EndsWith s t (doneStatus false) 0 ⟨s.args.param, BitVec.ofNat 32 ((used.length + 7) / 8), 0⟩ ∧
      Stores s t (operandAddr s.args .dst0) out

/-! ## The checks every command shares -/

/-- R115: TooLarge is reported exactly for an operand over its limit, the first in the order SRC0, SRC1, PARAM. -/
def Obligations.SizeLimitIsCheckedInOrder : Prop :=
  ∀ (i : Instr) (s : State), s.raced = false →
    (∀ (k : Operand) (before after : List Operand), [.src0, .src1, .param] = before ++ k :: after →
      OverLimit i s k → (∀ j ∈ before, ¬ OverLimit i s j) →
      FaultsEarly i s .tooLarge (BitVec.ofNat 32 k.id)) ∧
    ((∀ k ∈ ([.src0, .src1, .param] : List Operand), ¬ OverLimit i s k) →
      ∃ t, exec i s = .next t ∧ t.status.errcode ≠ ErrorKind.code .tooLarge)

/-- R116: AddressError is reported exactly for a used, non-empty operand that is not wholly below MEM_SIZE, the first in
the order SRC0, SRC1, DST0, DST1, once the sizes pass. -/
def Obligations.AddressRangeIsCheckedInOrder : Prop :=
  ∀ (i : Instr) (s : State), s.raced = false → (∀ k ∈ ([.src0, .src1, .param] : List Operand), ¬ OverLimit i s k) →
    (∀ (k : Operand) (before after : List Operand), [.src0, .src1, .dst0, .dst1] = before ++ k :: after →
      OutsideMemory i s k → (∀ j ∈ before, ¬ OutsideMemory i s j) →
      FaultsEarly i s .addressError (BitVec.ofNat 32 k.id)) ∧
    ((∀ k ∈ ([.src0, .src1, .dst0, .dst1] : List Operand), ¬ OutsideMemory i s k) →
      ∃ t, exec i s = .next t ∧ t.status.errcode ≠ ErrorKind.code .addressError)

/-- R117: BufferOverlap is reported exactly for two overlapping operands, the first pair in the order of R114, once sizes
and addresses pass. -/
def Obligations.OverlapIsCheckedInOrder : Prop :=
  ∀ (i : Instr) (s : State), s.raced = false → (∀ k ∈ ([.src0, .src1, .param] : List Operand), ¬ OverLimit i s k) →
    (∀ k ∈ ([.src0, .src1, .dst0, .dst1] : List Operand), ¬ OutsideMemory i s k) →
    (∀ (a b : Operand) (before after : List (Operand × Operand)),
      [(.src0, .dst0), (.src0, .dst1), (.src1, .dst0), (.src1, .dst1), (.dst0, .dst1)] = before ++ (a, b) :: after →
      Overlapping i s a b → (∀ p ∈ before, ¬ Overlapping i s p.1 p.2) →
      FaultsEarly i s .bufferOverlap (BitVec.ofNat 32 (16 * a.id + b.id))) ∧
    (OperandsLegal i s → ∃ t, exec i s = .next t ∧ t.status.errcode ≠ ErrorKind.code .bufferOverlap)

/-- R118: a body error is reported before any capacity; outputs that fit their capacities are no error; else the first destination, DST0 before DST1, whose output has more
elements than its capacity raises OutputOverflow. -/
def Obligations.CapacityIsCheckedAfterTheBody : Prop :=
  ∀ (i : Instr) (s : State), s.raced = false → OperandsLegal i s →
    (∀ r, bodyOf i s = .error r → FaultsLate i s r.kind r.info ∧ r.kind ≠ .outputOverflow) ∧
    (∀ b, bodyOf i s = .ok b →
      (∀ k ∈ ([.dst0, .dst1] : List Operand), (operandSize i k).isSome = true →
        (b.out k).count ≤ operandCount s.args k) →
      ∃ t, exec i s = .next t ∧ EndsWith s t (doneStatus b.trail) 0 b.res) ∧
    ∀ (b : BodyResult) (k : Operand) (before after : List Operand), bodyOf i s = .ok b →
      [.dst0, .dst1] = before ++ k :: after →
      (operandSize i k).isSome = true → operandCount s.args k < (b.out k).count →
      (∀ j ∈ before, (operandSize i j).isSome = true → (b.out j).count ≤ operandCount s.args j) →
      FaultsLate i s .outputOverflow (BitVec.ofNat 32 k.id)

/-! ## The errors of the command bodies -/

/-- R140: SA_PREP refuses an input with a 0 byte before its last, at the least such index. -/
def Obligations.SaPrepRefusesAnInteriorZero : Prop :=
  ∀ (s : State) (k : Nat), s.raced = false → OperandsLegal .saPrep s → k + 1 < (s.bytesOf .src0).length →
    (s.bytesOf .src0).getD k 1 = 0 → (∀ j, j < k → (s.bytesOf .src0).getD j 1 ≠ 0) →
    FaultsLate .saPrep s .sentinelViolation (BitVec.ofNat 32 k)

/-- R141, R143, R144: the builders refuse a sequence that is not a well-formed Text, with `sentinelInfo`: 0 if it is empty,
the least index of a misplaced 0, or n - 1 if the last byte is not 0. -/
def Obligations.BuildersRefuseAMalformedText : Prop :=
  ∀ (i : Instr) (s : State) (text : List Byte), i = .saSais ∨ i = .saPd → s.raced = false → OperandsLegal i s →
    s.bytesOf .src0 = text →
    (text = [] → FaultsLate i s .sentinelViolation 0) ∧
    (∀ k, k + 1 < text.length → text.getD k 1 = 0 → (∀ j, j < k → text.getD j 1 ≠ 0) →
      FaultsLate i s .sentinelViolation (BitVec.ofNat 32 k)) ∧
    (text ≠ [] → (∀ j, j < text.length → text.getD j 1 ≠ 0) →
      FaultsLate i s .sentinelViolation (BitVec.ofNat 32 (text.length - 1)))

/-- R170: BWT_FWD refuses an array of another length than the Text, and then the least entry that is not below n. -/
def Obligations.BwtFwdRefusesABadArray : Prop :=
  ∀ (s : State) (text : List Byte) (sa : List Nat), s.raced = false → OperandsLegal .bwtFwd s →
    s.bytesOf .src0 = text → s.wordsOf .src1 = sa →
    (sa.length ≠ text.length → FaultsLate .bwtFwd s .invalidArgument 1) ∧
    ∀ k, sa.length = text.length → k < sa.length → text.length ≤ sa.getD k 0 →
      (∀ j, j < k → sa.getD j 0 < text.length) → FaultsLate .bwtFwd s .entryOutOfRange (BitVec.ofNat 32 k)

/-- R180: BWT_INV refuses a sequence with no 0 byte, and one with two or more, at the index of the second. -/
def Obligations.BwtInvRefusesABadSentinelCount : Prop :=
  ∀ (s : State) (l : List Byte), s.raced = false → OperandsLegal .bwtInv s → s.bytesOf .src0 = l →
    ((∀ b ∈ l, b ≠ 0) → FaultsLate .bwtInv s .missingSentinel 0) ∧
    ∀ q, q < l.length → l.getD q 1 = 0 → (l.take q).count 0 = 1 →
      FaultsLate .bwtInv s .multipleSentinel (BitVec.ofNat 32 q)

/-- R192, R193: the coders refuse an Alphabet over 256 bytes; MTF_ENC refuses the least byte absent from the Alphabet,
MTF_DEC the least index not below the Alphabet's length. -/
def Obligations.MtfCodersRefuseBadOperands : Prop :=
  ∀ (s : State) (l a : List Byte), s.raced = false → s.bytesOf .src0 = l → s.bytesOf .src1 = a →
    (∀ i, i = .mtfEnc ∨ i = .mtfDec → OperandsLegal i s → 256 < a.length → FaultsLate i s .invalidArgument 1) ∧
    (∀ k, OperandsLegal .mtfEnc s → a.length ≤ 256 → k < l.length → l.getD k 0 ∉ a →
      (∀ j, j < k → l.getD j 0 ∈ a) → FaultsLate .mtfEnc s .symbolNotInAlphabet (BitVec.ofNat 32 k)) ∧
    ∀ k, OperandsLegal .mtfDec s → a.length ≤ 256 → k < l.length → a.length ≤ (l.getD k 0).toNat →
      (∀ j, j < k → (l.getD j 0).toNat < a.length) → FaultsLate .mtfDec s .indexOutOfRange (BitVec.ofNat 32 k)

/-- R237: HUF_BUILD refuses data with a code (`HuffmanCode`) longer than 32 bits, with the least such symbol. -/
def Obligations.HufBuildRefusesALongCode : Prop :=
  ∀ (s : State) (d : List Byte) (c : Byte) (bits : List Bool), s.raced = false → OperandsLegal .hufBuild s →
    s.bytesOf .src0 = d → c ∈ d → HuffmanCode d c bits → 32 < bits.length →
    (∀ c' ∈ d, ∀ bits', HuffmanCode d c' bits' → 32 < bits'.length → c.toNat ≤ c'.toNat) →
    FaultsLate .hufBuild s .codeTooLong (BitVec.ofNat 32 c.toNat)

/-- R241: HUF_DEC refuses the first entry in memory that fails: a length of 0 or over 32, a code not below 2^len, a symbol of
an earlier entry, or a code related by prefix to an earlier one. -/
def Obligations.HufDecRefusesACorruptCodebook : Prop :=
  ∀ (s : State) (good : List Entry) (bad : Entry) (rest : List Entry), s.raced = false → OperandsLegal .hufDec s →
    (good ++ bad :: rest).length = operandCount s.args .src1 →
    EntriesAt s.mem (operandAddr s.args .src1) (good ++ bad :: rest) → ValidCodebook good →
    (bad.len.toNat = 0 ∨ 32 < bad.len.toNat ∨ 2 ^ bad.len.toNat ≤ bad.code.toNat ∨
      ∃ e ∈ good, e.sym = bad.sym ∨ e.bits <+: bad.bits ∨ bad.bits <+: e.bits) →
    FaultsLate .hufDec s .codebookCorrupt (BitVec.ofNat 32 good.length)

/-- R243: with a valid Codebook in memory and a Bitstream that begins with the codes of `out`, fewer symbols than PARAM,
HUF_DEC raises TruncatedBitstream if the bits end before or inside the next code, and InvalidCode if they leave every
code. -/
def Obligations.HufDecRefusesABadBitstream : Prop :=
  ∀ (s : State) (cb : List Entry) (used rest : List Bool) (out : List Byte), s.raced = false →
    OperandsLegal .hufDec s → cb.length = operandCount s.args .src1 →
    EntriesAt s.mem (operandAddr s.args .src1) cb → ValidCodebook cb → DecodesTo cb used out →
    streamBits (s.bytesOf .src0) = used ++ rest → out.length < operandCount s.args .param →
    ((rest = [] ∨ ∃ e ∈ cb, rest <+: e.bits ∧ rest ≠ e.bits) →
      FaultsLate .hufDec s .truncatedBitstream (BitVec.ofNat 32 out.length)) ∧
    (rest ≠ [] → (∀ e ∈ cb, ¬ rest <+: e.bits ∧ ¬ e.bits <+: rest) →
      FaultsLate .hufDec s .invalidCode (BitVec.ofNat 32 out.length))

/-! ## What completions leave alone -/

/-- Every command completes (R112), and whatever its outcome, a race included, it keeps ID, CMD, the argument registers and
every byte outside its destination ranges (R65, R262, R72). Memory as it was may still be seen by the host until it reads
STATUS (R298; log 26). -/
def Obligations.EveryCommandCompletesInsideItsDestinations : Prop :=
  ∀ (i : Instr) (s : State), ∃ t, exec i s = .next t ∧ KeepsInputs s t ∧ UnchangedOutside (dstRanges i s.args) s t ∧
    t.status.busy = false ∧ t.status.done = !t.status.err ∧ t.stale = s.mem :: s.stale

/-- R262: the effects of a fault: RES0..2 are 0, ERR with a code, no DONE, no TRAIL; no byte of memory is written by a fault
of stages 1 to 4 (codes 1 to 4), and only destination bytes by any other. -/
def Obligations.FaultsHaveTheEffectsOfTheFaultRule : Prop :=
  ∀ (i : Instr) (s t : State), s.raced = false → exec i s = .next t → t.status.err = true →
    t.res = ⟨0, 0, 0⟩ ∧ t.status.busy = false ∧ t.status.done = false ∧ t.status.trail = false ∧
      t.status.errcode ≠ 0 ∧ KeepsInputs s t ∧ (t.status.errcode.toNat ≤ 4 → t.mem = s.mem) ∧
      UnchangedOutside (dstRanges i s.args) s t

/-- R261, R263: a fault is one of the command's row of R261, and ERRINFO is the value the row gives, an index below LEN_MAX,
or a byte value. -/
def Obligations.FaultsAreOfTheCommandsRow : Prop :=
  ∀ (i : Instr) (s t : State), s.raced = false → exec i s = .next t → t.status.err = true →
    ∃ e ∈ faultTable i, t.status.errcode = e.1.code ∧
      match e.2 with
      | .value w => t.errinfo = w
      | .index => t.errinfo.toNat < s.params.lenMax
      | .symbol => t.errinfo.toNat < 256

/-- R77: a command leaves every byte of its source ranges unchanged, whether it succeeds or faults; after a race (R72) too,
unless a source range is also a destination range. -/
def Obligations.SourcesAreNeverWritten : Prop :=
  ∀ (i : Instr) (s : State), s.raced = false ∨ OperandsLegal i s →
    ∃ t, exec i s = .next t ∧ ∀ b, inRanges (srcRanges i s.args) b = true → t.mem.read b = s.mem.read b

/-- R119: the outcome (STATUS, ERRINFO, results, and the bytes a success writes) depends only on the command, the used
argument registers and the bytes of the used source ranges. -/
def Obligations.OutcomeDependsOnlyOnUsedOperands : Prop :=
  ∀ (i : Instr) (s1 s2 : State), s1.raced = false → s2.raced = false → s1.params = s2.params →
    (∀ k, (operandSize i k).isSome = true →
      operandAddr s1.args k = operandAddr s2.args k ∧ operandCount s1.args k = operandCount s2.args k) →
    (i = .hufDec → s1.args.param = s2.args.param) →
    (∀ b, inRanges (srcRanges i s1.args) b = true → s1.mem.read b = s2.mem.read b) →
    ∃ t1 t2, exec i s1 = .next t1 ∧ exec i s2 = .next t2 ∧ t1.status = t2.status ∧ t1.errinfo = t2.errinfo ∧
      t1.res = t2.res ∧
      (t1.status.done = true → ∃ b, t1.mem = commitMem i b s1 ∧ t2.mem = commitMem i b s2)

/-! ## Sequencer, races, reset -/

/-- R112: the sequencer's step clears BUSY; and from any busy state with host actions that cannot stop the model, BUSY is
cleared within `delay + 1` steps (the bound is the model's own field, log 4). -/
def Obligations.BusyBlockCompletes : Prop :=
  (∀ s : State, s.status.busy = true → s.delay = 0 ∨ s.host = [] →
    ∃ t, step s = .next t ∧ t.status.busy = false) ∧
  ∀ s : State, s.status.busy = true → (∀ a ∈ s.host, actionRuns s.params.memSize a = true) →
    ∃ k t, k ≤ s.delay + 1 ∧ core.run k s = .next t ∧ t.status.busy = false

/-- R20, R60, R71, R72, R298, R34: a host byte access to buffer memory, in every state in which the host moves (idle, busy with a
command, busy with an illegal word; log 4). A write stores its byte and changes no other, and the host sees it. A read changes
no byte. Unless it is in a destination range of the command in progress, a read returns the byte of memory: for sure if it is in
a source range of that command (R72), or if the host has read STATUS with BUSY = 0 since every completion (R71 (c)); else that
byte or a stale one (R298; which of the two is free, log 26). Neither changes a register. A write to a used source or
destination range, or a read of a used destination range, while the command is in progress is recorded as a race (log 6; a byte
in both counts as a destination, log 27); no other access is. That an access at or above MEM_SIZE stops the model is its choice
(log 11). -/
def Obligations.RacesAreHostAccessesToActiveRanges : Prop :=
  ∀ (s : State) (addr : Nat) (v : Byte) (rest : List HostAction), s.status.busy = false ∨ s.delay ≠ 0 →
    (s.host = .writeByte addr v :: rest → addr < s.params.memSize →
      ∃ t, step s = .next t ∧ SameRegisters s t ∧ t.host = rest ∧ t.mem = s.mem.write addr v ∧
        t.stale = s.stale.map (fun m => m.write addr v) ∧
        ((∀ m ∈ s.mem :: s.stale, m.wf) → ∀ m ∈ t.mem :: t.stale, m.read addr = v) ∧
        (∀ b, b ≠ addr → t.mem.read b = s.mem.read b) ∧
        (t.raced = true ↔ s.raced = true ∨ Active s srcRanges addr ∨ Active s dstRanges addr)) ∧
    (s.host = .readByte addr :: rest → addr < s.params.memSize →
      ∃ t, step s = .next t ∧ SameRegisters s t ∧ t.host = rest ∧ t.mem = s.mem ∧ t.stale = s.stale ∧
        (t.raced = true ↔ s.raced = true ∨ Active s dstRanges addr) ∧
        (¬ Active s dstRanges addr → s.stale = [] ∨ Active s srcRanges addr →
          t.readData = (s.mem.read addr).setWidth 32) ∧
        (¬ Active s dstRanges addr → ∃ m ∈ s.mem :: s.stale, t.readData = (m.read addr).setWidth 32)) ∧
    (s.params.memSize ≤ addr → s.host = .writeByte addr v :: rest ∨ s.host = .readByte addr :: rest →
      step s = .fault (.bufferAddressOutside addr))

/-- R72: a command that raced completes with DONE or with a fault of its row, keeps its inputs, and leaves every byte outside
its destination ranges (its results and destinations are open). -/
def Obligations.RacedCommandEndsWithSomeOutcome : Prop :=
  ∀ (i : Instr) (s : State), s.raced = true → ∃ t, exec i s = .next t ∧ KeepsInputs s t ∧ t.raced = false ∧
    UnchangedOutside (dstRanges i s.args) s t ∧ t.status.busy = false ∧
    (t.status.done = true ∧ t.status.err = false ∧ t.status.errcode = 0 ∧ t.errinfo = 0 ∨
      t.status.done = false ∧ t.status.err = true ∧ ∃ e ∈ faultTable i, t.status.errcode = e.1.code)

/-- R40: the reset values. -/
def Obligations.ResetValues : Prop :=
  readReg State.reset .id = State.reset.params.implId ∧ State.reset.cmd = 0 ∧ State.reset.status.toWord = 0 ∧
    State.reset.errinfo = 0 ∧ State.reset.args = ⟨0, 0, 0, 0, 0, 0, 0, 0, 0⟩ ∧ State.reset.res = ⟨0, 0, 0⟩ ∧
    ∀ offset, 0x40 ≤ offset → readWindowAt State.reset offset = 0

/-- R290 to R292: the reset event, in any state in which the host moves: every register takes its reset value, ID keeps its
own, memory is unchanged when idle, and changes at most in the destination ranges of a command in progress. (The race flag and
what the host has yet to see are the model's: logs 6, 26.) -/
def Obligations.ResetEventEffects : Prop :=
  ∀ (s : State) (rest : List HostAction), s.status.busy = false ∨ s.delay ≠ 0 → s.host = .reset :: rest →
    ∃ t, step s = .next t ∧ t.params = s.params ∧ t.cmd = 0 ∧ t.status = ⟨false, false, false, false, 0⟩ ∧
      t.errinfo = 0 ∧ t.args = ⟨0, 0, 0, 0, 0, 0, 0, 0, 0⟩ ∧ t.res = ⟨0, 0, 0⟩ ∧ t.raced = false ∧ t.stale = s.stale ∧
      (s.status.busy = false → t.mem = s.mem) ∧
      (∀ i, decode s.cmd = .ok i → UnchangedOutside (dstRanges i s.args) s t) ∧
      ∀ e, decode s.cmd = .error e → t.mem = s.mem

/-! ## Memory and the invariant -/

/-- R12, R66: the byte at the lowest address is bits 7:0. A read of n bytes is the sum of byte k times 256^k; a word stored is
its four bytes, byte j being bits `8j + 7 : 8j`, reads back as the word, its low byte alone as the low byte, and no other
byte changes. -/
def Obligations.WordsAreLittleEndian : Prop :=
  (∀ (m : Memory) (a n : Nat),
    m.readLE a n = ((List.range n).map fun k => (m.read (a + k)).toNat * 256 ^ k).sum) ∧
  ∀ (m : Memory) (a : Nat) (w : Word), m.wf →
    (leBytes w).length = 4 ∧
    (∀ j, j < 4 → (m.writeBytes a (leBytes w)).read (a + j) = w.extractLsb' (8 * j) 8) ∧
    (m.writeBytes a (leBytes w)).readLE a 4 = w.toNat ∧
    (m.writeBytes a (leBytes w)).readLE a 1 = w.toNat % 256 ∧
    ∀ b, b < a ∨ a + 4 ≤ b → (m.writeBytes a (leBytes w)).read b = m.read b

/-- The invariants hold at reset. -/
def Obligations.InvariantsHoldAtReset : Prop := Inv State.reset ∧ DescribesLastCommand State.reset

/-- Every step keeps the invariant: memory stays canonical and inside MEM_SIZE, STATUS legal (R24), ERRINFO 0 without a
fault (R25), results 0 while busy (R27), and what the host may still see of memory canonical and inside MEM_SIZE too
(log 26). -/
def Obligations.StepKeepsTheInvariant : Prop :=
  ∀ s t : State, Inv s → step s = .next t → Inv t

/-- R24, R261: STATUS always describes the last command, the one in CMD; every step keeps that. That TRAIL is set only for
RLE_DEC after a RACED completion too is the model's deduction (log 6: TRAIL is free only for an RLE_DEC that ends with
DONE). -/
def Obligations.StepKeepsStatusOfLastCommand : Prop :=
  ∀ s t : State, DescribesLastCommand s → step s = .next t → DescribesLastCommand t

/-! ## What the commands compute -/

/-- R142: there is exactly one suffix array of a Text; the claim here is that there is at most one. -/
def Obligations.SuffixArrayIsUnique : Prop :=
  ∀ (t : List Byte) (sa sb : List Nat), IsSuffixArray t sa → IsSuffixArray t sb → sa = sb

/-- R143, R154: the induced-sorting procedure of R145 to R151 builds the suffix array of every Text. -/
def Obligations.InducedSortingBuildsTheSuffixArray : Prop :=
  ∀ t : List Byte, IsText t → IsSuffixArray t (inducedSort (t.map BitVec.toNat))

/-- R144, R154: the prefix-doubling procedure of R153 builds the suffix array of every Text. -/
def Obligations.PrefixDoublingBuildsTheSuffixArray : Prop :=
  ∀ t : List Byte, IsText t → IsSuffixArray t (prefixDoubling (t.map BitVec.toNat))

/-- R184 (b): BWT invertibility: the body of BWT_INV returns the Text from the output of BWT_FWD on it and its suffix
array. -/
def Obligations.InverseTransformUndoesForward : Prop :=
  ∀ (t : List Byte) (sa : List Nat), IsText t → IsSuffixArray t sa →
    inverseTransform (bwtForward t sa) = .ok ⟨.bytes t, .bytes [], ⟨BitVec.ofNat 32 t.length, 0, 0⟩, false⟩

/-- R195: MTF round trip, for any Alphabet of at most 256 bytes, duplicates included; every index is below the Alphabet's
length, and the first is the index of the first byte in the Alphabet itself. -/
def Obligations.MtfRoundTrip : Prop :=
  ∀ l a : List Byte, a.length ≤ 256 → (∀ b ∈ l, b ∈ a) →
    ∃ m, mtfEncode 0 a l = .ok m ∧ mtfDecode 0 a m = .ok l ∧ (∀ j ∈ m, j.toNat < a.length) ∧
      ∀ b rest, l = b :: rest → ∃ j, a.findIdx? (· == b) = some j ∧ m.head? = some (BitVec.ofNat 8 j)

/-- R214 (a): RLE0 round trip, with TRAIL = 0. -/
def Obligations.RleRoundTrip : Prop :=
  ∀ m : List Byte, rleDecode (rleEncode m 0) = (m, false)

/-- R239, R243: `packBits` puts bit j of a string at bit `7 - (j mod 8)` of byte `j div 8`, 0 after the last, and `unpackBits`
reads the bits of a Bitstream there. R244 (a): Huffman round trip: for data whose codes (`HuffmanCode`) fit 32 bits, the body
of HUF_BUILD outputs the Codebook of these codes and the codes of the data one after another, padded with 0 bits, and the
body of HUF_DEC turns them back into the data, with the same number of Bitstream bytes; (c): the Codebook is valid. -/
def Obligations.HuffmanRoundTrip : Prop :=
  (∀ (bits : List Bool) (j : Nat), (packBits bits).length = (bits.length + 7) / 8 ∧
    (j < 8 * (packBits bits).length → streamBit (packBits bits) j = bits.getD j false)) ∧
  (∀ stream : List Byte, unpackBits stream = streamBits stream) ∧
  ∀ (d syms : List Byte) (code : Byte → List Bool), IsAlphabet syms d →
    (∀ c ∈ d, HuffmanCode d c (code c) ∧ (code c).length ≤ 32) →
    ∃ (stream : List Byte) (pad : Nat),
      hufBuild d = .ok ⟨.entries (codebookFor syms code), .bytes stream,
        ⟨BitVec.ofNat 32 syms.length, BitVec.ofNat 32 stream.length, BitVec.ofNat 32 pad⟩, false⟩ ∧
      pad < 8 ∧ streamBits stream = d.flatMap code ++ List.replicate pad false ∧
      ValidCodebook (codebookFor syms code) ∧
      hufDecode stream (codebookFor syms code) d.length = .ok ⟨.bytes d, .bytes [],
        ⟨BitVec.ofNat 32 d.length, BitVec.ofNat 32 stream.length, 0⟩, false⟩
end

