-- ==== Sys2Proof/Laws/Memory.lean ====
section
/-! SUPPORT. Buffer memory: read after write, the canonical form, byte sequences, FAULT_FILL. -/

namespace Sys2Proof.Machine

/-! ## One byte -/

@[simp] theorem Memory.read_nil (a : Nat) : Memory.read [] a = Memory.unlisted := rfl

theorem Memory.read_cons (b : Nat) (w : Byte) (m : Memory) (a : Nat) :
    Memory.read ((b, w) :: m) a = if a = b then w else Memory.read m a := rfl

/-- An address below every listed one reads as unlisted. -/
theorem Memory.read_below (m : Memory) (a : Nat) (h : ∀ c ∈ m, a < c.1) : m.read a = Memory.unlisted := by
  induction m with
  | nil => rfl
  | cons c m ih =>
    obtain ⟨b, w⟩ := c
    have hb : a < b := h (b, w) (by simp)
    rw [Memory.read_cons, if_neg (by omega)]
    exact ih fun c hc => h c (by simp [hc])

/-- Every entry after a write is the written address or an entry from before. -/
theorem Memory.mem_write (m : Memory) (a : Nat) (v : Byte) (c : Host.Cell) (hc : c ∈ m.write a v) :
    (c = (a, v) ∧ v ≠ Memory.unlisted) ∨ c ∈ m := by
  induction m with
  | nil =>
    unfold Memory.write at hc
    split at hc
    · simp at hc
    · rename_i hv
      exact .inl ⟨by simpa using hc, hv⟩
  | cons d m ih =>
    obtain ⟨b, w⟩ := d
    unfold Memory.write at hc
    split_ifs at hc with h1 hv h2 hv
    · exact .inr hc
    · rcases List.mem_cons.1 hc with h | h
      · exact .inl ⟨h, hv⟩
      · exact .inr h
    · exact .inr (List.mem_cons_of_mem _ hc)
    · rcases List.mem_cons.1 hc with h | h
      · exact .inl ⟨h, hv⟩
      · exact .inr (List.mem_cons_of_mem _ h)
    · rcases List.mem_cons.1 hc with h | h
      · exact .inr (by simp [h])
      · rcases ih h with h | h
        · exact .inl h
        · exact .inr (List.mem_cons_of_mem _ h)

theorem Memory.wf_nil : Memory.wf [] := ⟨List.Pairwise.nil, by simp⟩

theorem Memory.wf_tail {c : Host.Cell} {m : Memory} (h : Memory.wf (c :: m)) : m.wf :=
  ⟨(List.pairwise_cons.1 h.1).2, fun d hd => h.2 d (List.mem_cons_of_mem _ hd)⟩

/-- A write keeps the canonical form. -/
theorem Memory.write_wf (m : Memory) (a : Nat) (v : Byte) (h : m.wf) : (m.write a v).wf := by
  induction m with
  | nil =>
    unfold Memory.write
    split
    · exact Memory.wf_nil
    · rename_i hv
      exact ⟨by simp, by simpa using hv⟩
  | cons c m ih =>
    obtain ⟨b, w⟩ := c
    have hm := Memory.wf_tail h
    have hp := List.pairwise_cons.1 h.1
    have hw : w ≠ Memory.unlisted := h.2 (b, w) (by simp)
    unfold Memory.write
    split_ifs with h1 hv h2 hv
    · exact h
    · refine ⟨List.pairwise_cons.2 ⟨?_, h.1⟩, ?_⟩
      · intro d hd
        rcases List.mem_cons.1 hd with hd | hd
        · subst hd; exact h1
        · exact Nat.lt_trans h1 (hp.1 d hd)
      · intro d hd
        rcases List.mem_cons.1 hd with hd | hd
        · subst hd; exact hv
        · exact h.2 d hd
    · exact hm
    · subst h2
      refine ⟨List.pairwise_cons.2 ⟨hp.1, hp.2⟩, ?_⟩
      intro d hd
      rcases List.mem_cons.1 hd with hd | hd
      · subst hd; exact hv
      · exact hm.2 d hd
    · have ih' := ih hm
      refine ⟨List.pairwise_cons.2 ⟨?_, ih'.1⟩, ?_⟩
      · intro d hd
        rcases Memory.mem_write m a v d hd with hd | hd
        · rw [hd.1]
          change b < a
          omega
        · exact hp.1 d hd
      · intro d hd
        rcases List.mem_cons.1 hd with hd | hd
        · subst hd; exact hw
        · exact ih'.2 d hd

/-- A write leaves every other byte alone. -/
theorem Memory.read_write_ne (m : Memory) (a b : Nat) (v : Byte) (hab : b ≠ a) :
    (m.write a v).read b = m.read b := by
  induction m with
  | nil =>
    unfold Memory.write
    split
    · rfl
    · simp [Memory.read_cons, hab]
  | cons c m ih =>
    obtain ⟨k, w⟩ := c
    unfold Memory.write
    split_ifs with h1 hv h2 hv
    · rfl
    · simp [Memory.read_cons, hab]
    · subst h2
      simp [Memory.read_cons, hab]
    · subst h2
      simp [Memory.read_cons, hab]
    · simp only [Memory.read_cons]
      rw [ih]

/-- A read after a write to the same address gives the value written. -/
theorem Memory.read_write_same (m : Memory) (a : Nat) (v : Byte) (h : m.wf) : (m.write a v).read a = v := by
  induction m with
  | nil =>
    unfold Memory.write
    split
    · rename_i hv
      simp [hv]
    · simp [Memory.read_cons]
  | cons c m ih =>
    obtain ⟨k, w⟩ := c
    have hp := List.pairwise_cons.1 h.1
    unfold Memory.write
    split_ifs with h1 hv h2 hv
    · rw [hv, Memory.read_below]
      intro c hc
      rcases List.mem_cons.1 hc with hc | hc
      · subst hc; exact h1
      · exact Nat.lt_trans h1 (hp.1 c hc)
    · simp [Memory.read_cons]
    · subst h2
      rw [hv, Memory.read_below]
      exact hp.1
    · simp [Memory.read_cons]
    · rw [Memory.read_cons, if_neg h2]
      exact ih (Memory.wf_tail h)

/-- A byte read after a write, in one equation. -/
theorem Memory.read_write (m : Memory) (a b : Nat) (v : Byte) (h : m.wf) :
    (m.write a v).read b = if b = a then v else m.read b := by
  split
  · rename_i hb
    subst hb
    exact Memory.read_write_same m b v h
  · rename_i hb
    exact Memory.read_write_ne m a b v hb

/-- In canonical form, equal readings are equal memories. -/
theorem Memory.ext_of_read {m n : Memory} (hm : m.wf) (hn : n.wf) (h : ∀ a, m.read a = n.read a) : m = n := by
  have listed : ∀ (m : Memory), m.wf → ∀ c, c ∈ m ↔ Memory.read m c.1 = c.2 ∧ c.2 ≠ Memory.unlisted := by
    intro m hm c
    induction m with
    | nil =>
      constructor
      · intro hc; simp at hc
      · rintro ⟨h1, h2⟩
        exact absurd h1.symm (by simpa using h2)
    | cons d m ih =>
      obtain ⟨b, w⟩ := d
      have hp := List.pairwise_cons.1 hm.1
      rw [List.mem_cons, ih (Memory.wf_tail hm), Memory.read_cons]
      have hw : w ≠ Memory.unlisted := hm.2 (b, w) (by simp)
      by_cases hcb : c.1 = b
      · rw [if_pos hcb]
        have hbelow : Memory.read m c.1 = Memory.unlisted := by
          rw [hcb]; exact Memory.read_below m b hp.1
        constructor
        · rintro (rfl | ⟨h1, h2⟩)
          · exact ⟨rfl, hw⟩
          · exact absurd (h1.symm.trans hbelow) h2
        · rintro ⟨h1, _⟩
          exact .inl (Prod.ext hcb h1.symm)
      · rw [if_neg hcb]
        constructor
        · rintro (rfl | h1)
          · exact absurd rfl hcb
          · exact h1
        · exact .inr
  have hmem : ∀ c, c ∈ m ↔ c ∈ n := fun c => by rw [listed m hm, listed n hn, h]
  have hnd : ∀ (m : Memory), m.wf → m.Nodup := fun m hm =>
    hm.1.imp (fun {a b} (hab : a.1 < b.1) (he : a = b) => absurd (he ▸ hab) (Nat.lt_irrefl _))
  have hperm : m.Perm n := (List.perm_ext_iff_of_nodup (hnd m hm) (hnd n hn)).2 hmem
  exact hperm.eq_of_pairwise (fun _ _ _ _ h1 h2 => absurd h1 (Nat.lt_asymm h2)) hm.1 hn.1

/-! ## Byte sequences -/

@[simp] theorem Memory.length_readBytes (m : Memory) (a n : Nat) : (m.readBytes a n).length = n := by
  simp [Memory.readBytes]

theorem Memory.getElem_readBytes (m : Memory) (a n i : Nat) (h : i < (m.readBytes a n).length) :
    (m.readBytes a n)[i] = m.read (a + i) := by
  simp [Memory.readBytes]

/-- Two memories that agree on a range give the same bytes of it. -/
theorem Memory.readBytes_congr (m m' : Memory) (a n : Nat) (h : ∀ b, a ≤ b → b < a + n → m.read b = m'.read b) :
    m.readBytes a n = m'.readBytes a n := by
  refine List.map_congr_left fun i hi => h _ (by omega) ?_
  have := List.mem_range.1 hi
  omega

theorem Memory.writeBytes_wf (m : Memory) (a : Nat) (bs : List Byte) (h : m.wf) : (m.writeBytes a bs).wf := by
  induction bs generalizing m a with
  | nil => exact h
  | cons b bs ih => exact ih _ _ (Memory.write_wf m a b h)

/-- A byte read after a byte sequence is written. -/
theorem Memory.read_writeBytes (m : Memory) (a b : Nat) (bs : List Byte) (h : m.wf) :
    (m.writeBytes a bs).read b = if a ≤ b ∧ b < a + bs.length then bs.getD (b - a) 0 else m.read b := by
  induction bs generalizing m a with
  | nil => simp [Memory.writeBytes]
  | cons x bs ih =>
    rw [Memory.writeBytes, ih _ _ (Memory.write_wf m a x h), Memory.read_write m a b x h, List.length_cons]
    by_cases hba : b = a
    · subst hba
      simp
    · by_cases hin : a + 1 ≤ b ∧ b < a + 1 + bs.length
      · rw [if_pos hin, if_pos (by omega), show b - a = (b - (a + 1)) + 1 by omega]
        simp
      · rw [if_neg hin, if_neg hba, if_neg (by omega)]

/-- A byte sequence reads back as written. -/
theorem Memory.readBytes_writeBytes (m : Memory) (a : Nat) (bs : List Byte) (h : m.wf) :
    (m.writeBytes a bs).readBytes a bs.length = bs := by
  refine List.ext_getElem (by simp) fun i h1 h2 => ?_
  rw [Memory.getElem_readBytes, Memory.read_writeBytes m a _ bs h, if_pos (by omega)]
  simp [h2]

/-- A byte sequence leaves every byte outside it alone. -/
theorem Memory.read_writeBytes_outside (m : Memory) (a b : Nat) (bs : List Byte)
    (hb : b < a ∨ a + bs.length ≤ b) : (m.writeBytes a bs).read b = m.read b := by
  induction bs generalizing m a with
  | nil => rfl
  | cons x bs ih =>
    rw [List.length_cons] at hb
    rw [Memory.writeBytes, ih _ _ (by omega), Memory.read_write_ne _ _ _ _ (by omega)]

/-- An entry after a byte sequence is written is one of its addresses or an entry from before. -/
theorem Memory.mem_writeBytes (m : Memory) (a : Nat) (bs : List Byte) (c : Host.Cell) (hc : c ∈ m.writeBytes a bs) :
    (a ≤ c.1 ∧ c.1 < a + bs.length) ∨ c ∈ m := by
  induction bs generalizing m a with
  | nil => exact .inr hc
  | cons b bs ih =>
    rw [List.length_cons]
    rcases ih _ _ hc with h | h
    · exact .inl (by omega)
    · rcases Memory.mem_write m a b c h with h | h
      · rw [h.1]
        exact .inl (by constructor <;> simp)
      · exact .inr h

/-! ## FAULT_FILL -/

theorem Memory.fill_wf (d : Nat) (m : Memory) (a n : Nat) (h : m.wf) : (m.fill d a n).wf := by
  induction n with
  | zero => exact h
  | succ n ih => exact Memory.write_wf _ _ _ ih

theorem Memory.read_fill_outside (d : Nat) (m : Memory) (a n b : Nat) (hb : b < a ∨ a + n ≤ b) :
    (m.fill d a n).read b = m.read b := by
  induction n with
  | zero => rfl
  | succ n ih =>
    rw [Memory.fill, Memory.read_write_ne _ _ _ _ (by omega)]
    exact ih (by omega)

theorem Memory.mem_fill (d : Nat) (m : Memory) (a n : Nat) (c : Host.Cell) (hc : c ∈ m.fill d a n) :
    (a ≤ c.1 ∧ c.1 < a + n) ∨ c ∈ m := by
  induction n with
  | zero => exact .inr hc
  | succ n ih =>
    rcases Memory.mem_write _ _ _ c hc with h | h
    · rw [h.1]
      exact .inl (by constructor <;> simp)
    · rcases ih h with h | h
      · exact .inl (by omega)
      · exact .inr h

theorem Memory.fillRange_wf (d k : Nat) (m : Memory) (r : Range) (h : m.wf) : (m.fillRange d k r).wf :=
  Memory.fill_wf d m _ _ h

/-- Filling a range changes no byte outside it. -/
theorem Memory.read_fillRange_outside (d k : Nat) (m : Memory) (r : Range) (b : Nat)
    (hb : r.contains b = false) : (m.fillRange d k r).read b = m.read b := by
  refine Memory.read_fill_outside d m _ _ b ?_
  simp only [Range.contains, decide_eq_false_iff_not] at hb
  omega

/-- Filling a range lists nothing at or above MEM_SIZE that was not listed before. -/
theorem Memory.mem_fillRange (d k : Nat) (m : Memory) (r : Range) (c : Host.Cell) (hc : c ∈ m.fillRange d k r) :
    c.1 < k ∨ c ∈ m := by
  rcases Memory.mem_fill d m _ _ c hc with h | h
  · exact .inl (by omega)
  · exact .inr h

theorem foldl_fillRange_wf (d k : Nat) (rs : List Range) (m : Memory) (h : m.wf) :
    (rs.foldl (Memory.fillRange d k) m).wf := by
  induction rs generalizing m with
  | nil => exact h
  | cons r rs ih => exact ih _ (Memory.fillRange_wf d k m r h)

theorem read_foldl_fillRange (d k : Nat) (rs : List Range) (m : Memory) (b : Nat)
    (hb : inRanges rs b = false) : (rs.foldl (Memory.fillRange d k) m).read b = m.read b := by
  induction rs generalizing m with
  | nil => rfl
  | cons r rs ih =>
    simp only [inRanges, List.any_cons, Bool.or_eq_false_iff] at hb
    rw [List.foldl_cons, ih _ hb.2, Memory.read_fillRange_outside d k m r b hb.1]

theorem mem_foldl_fillRange (d k : Nat) (rs : List Range) (m : Memory) (c : Host.Cell)
    (hc : c ∈ rs.foldl (Memory.fillRange d k) m) : c.1 < k ∨ c ∈ m := by
  induction rs generalizing m with
  | nil => exact .inr hc
  | cons r rs ih =>
    rcases ih _ hc with h | h
    · exact .inl h
    · exact Memory.mem_fillRange d k m r c h

/-- FAULT_FILL over a command's destinations keeps the canonical form. -/
theorem fillDsts_wf (i : Instr) (s : State) (h : s.mem.wf) : (fillDsts i s).wf := foldl_fillRange_wf _ _ _ _ h

/-- FAULT_FILL over a command's destinations changes no byte outside them. -/
theorem read_fillDsts (i : Instr) (s : State) (b : Nat) (hb : inRanges (dstRanges i s.args) b = false) :
    (fillDsts i s).read b = s.mem.read b := read_foldl_fillRange _ _ _ _ b hb

/-- FAULT_FILL lists nothing at or above MEM_SIZE that was not listed before. -/
theorem mem_fillDsts (i : Instr) (s : State) (c : Host.Cell) (hc : c ∈ fillDsts i s) :
    c.1 < s.params.memSize ∨ c ∈ s.mem := mem_foldl_fillRange _ _ _ _ c hc

/-- A fault keeps the canonical form. -/
theorem faultMem_wf (i : Option Instr) (n : Nat) (s : State) (h : s.mem.wf) : (faultMem i n s).wf := by
  unfold faultMem
  split
  · split
    · exact fillDsts_wf _ s h
    · exact h
  · exact h

/-- A fault lists nothing at or above MEM_SIZE that was not listed before. -/
theorem mem_faultMem (i : Option Instr) (n : Nat) (s : State) (c : Host.Cell) (hc : c ∈ faultMem i n s) :
    c.1 < s.params.memSize ∨ c ∈ s.mem := by
  unfold faultMem at hc
  split at hc
  · split at hc
    · exact mem_fillDsts _ s c hc
    · exact .inr hc
  · exact .inr hc

/-- A reset keeps the canonical form. -/
theorem resetMem_wf (s : State) (h : s.mem.wf) : (resetMem s).wf := by
  unfold resetMem
  split
  · split
    · exact fillDsts_wf _ s h
    · exact h
  · exact h

/-- A reset lists nothing at or above MEM_SIZE that was not listed before. -/
theorem mem_resetMem (s : State) (c : Host.Cell) (hc : c ∈ resetMem s) : c.1 < s.params.memSize ∨ c ∈ s.mem := by
  unfold resetMem at hc
  split at hc
  · split at hc
    · exact mem_fillDsts _ s c hc
    · exact .inr hc
  · exact .inr hc

end Sys2Proof.Machine
end

