-- ==== Sys2Proof/Laws/State.lean ====
section
/-! SUPPORT. One lemma per field per named update of State, each true by rfl, so that no later proof unfolds an update. -/

namespace Sys2Proof.Machine

/-! ## accept -/

@[simp] theorem accept_params (w : Word) (s : State) : (accept w s).params = s.params := rfl
@[simp] theorem accept_cmd (w : Word) (s : State) : (accept w s).cmd = w := rfl
@[simp] theorem accept_status (w : Word) (s : State) : (accept w s).status = busyStatus := rfl
@[simp] theorem accept_errinfo (w : Word) (s : State) : (accept w s).errinfo = 0 := rfl
@[simp] theorem accept_args (w : Word) (s : State) : (accept w s).args = s.args := rfl
@[simp] theorem accept_res (w : Word) (s : State) : (accept w s).res = Results.zero := rfl
@[simp] theorem accept_mem (w : Word) (s : State) : (accept w s).mem = s.mem := rfl
@[simp] theorem accept_host (w : Word) (s : State) : (accept w s).host = s.host := rfl
@[simp] theorem accept_delay (w : Word) (s : State) : (accept w s).delay = Config.completionDelay s.draws := rfl
@[simp] theorem accept_raced (w : Word) (s : State) : (accept w s).raced = false := rfl
@[simp] theorem accept_draws (w : Word) (s : State) : (accept w s).draws = s.draws + 1 := rfl
@[simp] theorem accept_readData (w : Word) (s : State) : (accept w s).readData = s.readData := rfl
@[simp] theorem accept_stale (w : Word) (s : State) : (accept w s).stale = s.stale := rfl

/-! ## finish -/

@[simp] theorem finish_params (st : Status) (v : Word) (r : Results) (m : Memory) (s : State) : (finish st v r m s).params = s.params := rfl
@[simp] theorem finish_cmd (st : Status) (v : Word) (r : Results) (m : Memory) (s : State) : (finish st v r m s).cmd = s.cmd := rfl
@[simp] theorem finish_status (st : Status) (v : Word) (r : Results) (m : Memory) (s : State) : (finish st v r m s).status = st := rfl
@[simp] theorem finish_errinfo (st : Status) (v : Word) (r : Results) (m : Memory) (s : State) : (finish st v r m s).errinfo = v := rfl
@[simp] theorem finish_args (st : Status) (v : Word) (r : Results) (m : Memory) (s : State) : (finish st v r m s).args = s.args := rfl
@[simp] theorem finish_res (st : Status) (v : Word) (r : Results) (m : Memory) (s : State) : (finish st v r m s).res = r := rfl
@[simp] theorem finish_mem (st : Status) (v : Word) (r : Results) (m : Memory) (s : State) : (finish st v r m s).mem = m := rfl
@[simp] theorem finish_host (st : Status) (v : Word) (r : Results) (m : Memory) (s : State) : (finish st v r m s).host = s.host := rfl
@[simp] theorem finish_delay (st : Status) (v : Word) (r : Results) (m : Memory) (s : State) : (finish st v r m s).delay = 0 := rfl
@[simp] theorem finish_raced (st : Status) (v : Word) (r : Results) (m : Memory) (s : State) : (finish st v r m s).raced = false := rfl
@[simp] theorem finish_draws (st : Status) (v : Word) (r : Results) (m : Memory) (s : State) : (finish st v r m s).draws = s.draws + 1 := rfl
@[simp] theorem finish_readData (st : Status) (v : Word) (r : Results) (m : Memory) (s : State) : (finish st v r m s).readData = s.readData := rfl
@[simp] theorem finish_stale (st : Status) (v : Word) (r : Results) (m : Memory) (s : State) : (finish st v r m s).stale = s.mem :: s.stale := rfl

/-! ## resetEvent -/

@[simp] theorem resetEvent_params (s : State) : (resetEvent s).params = s.params := rfl
@[simp] theorem resetEvent_cmd (s : State) : (resetEvent s).cmd = 0 := rfl
@[simp] theorem resetEvent_status (s : State) : (resetEvent s).status = Status.reset := rfl
@[simp] theorem resetEvent_errinfo (s : State) : (resetEvent s).errinfo = 0 := rfl
@[simp] theorem resetEvent_args (s : State) : (resetEvent s).args = Args.reset := rfl
@[simp] theorem resetEvent_res (s : State) : (resetEvent s).res = Results.zero := rfl
@[simp] theorem resetEvent_mem (s : State) : (resetEvent s).mem = resetMem s := rfl
@[simp] theorem resetEvent_host (s : State) : (resetEvent s).host = s.host := rfl
@[simp] theorem resetEvent_delay (s : State) : (resetEvent s).delay = 0 := rfl
@[simp] theorem resetEvent_raced (s : State) : (resetEvent s).raced = false := rfl
@[simp] theorem resetEvent_draws (s : State) : (resetEvent s).draws = s.draws + 1 := rfl
@[simp] theorem resetEvent_readData (s : State) : (resetEvent s).readData = s.readData := rfl
@[simp] theorem resetEvent_stale (s : State) : (resetEvent s).stale = s.stale := rfl

/-! ## withCommand -/

@[simp] theorem withCommand_params (s : State) (w : Word) : (withCommand s w).params = s.params := rfl
@[simp] theorem withCommand_cmd (s : State) (w : Word) : (withCommand s w).cmd = w := rfl
@[simp] theorem withCommand_status (s : State) (w : Word) : (withCommand s w).status = busyStatus := rfl
@[simp] theorem withCommand_errinfo (s : State) (w : Word) : (withCommand s w).errinfo = 0 := rfl
@[simp] theorem withCommand_args (s : State) (w : Word) : (withCommand s w).args = s.args := rfl
@[simp] theorem withCommand_res (s : State) (w : Word) : (withCommand s w).res = Results.zero := rfl
@[simp] theorem withCommand_mem (s : State) (w : Word) : (withCommand s w).mem = s.mem := rfl
@[simp] theorem withCommand_host (s : State) (w : Word) : (withCommand s w).host = s.host := rfl
@[simp] theorem withCommand_delay (s : State) (w : Word) : (withCommand s w).delay = 0 := rfl
@[simp] theorem withCommand_raced (s : State) (w : Word) : (withCommand s w).raced = false := rfl
@[simp] theorem withCommand_draws (s : State) (w : Word) : (withCommand s w).draws = s.draws := rfl
@[simp] theorem withCommand_readData (s : State) (w : Word) : (withCommand s w).readData = s.readData := rfl
@[simp] theorem withCommand_stale (s : State) (w : Word) : (withCommand s w).stale = s.stale := rfl

/-! ## takeAction -/

@[simp] theorem takeAction_params (a : HostAction) (rest : List HostAction) (s : State) : (takeAction a rest s).params = s.params := rfl
@[simp] theorem takeAction_cmd (a : HostAction) (rest : List HostAction) (s : State) : (takeAction a rest s).cmd = s.cmd := rfl
@[simp] theorem takeAction_status (a : HostAction) (rest : List HostAction) (s : State) : (takeAction a rest s).status = s.status := rfl
@[simp] theorem takeAction_errinfo (a : HostAction) (rest : List HostAction) (s : State) : (takeAction a rest s).errinfo = s.errinfo := rfl
@[simp] theorem takeAction_args (a : HostAction) (rest : List HostAction) (s : State) : (takeAction a rest s).args = s.args := rfl
@[simp] theorem takeAction_res (a : HostAction) (rest : List HostAction) (s : State) : (takeAction a rest s).res = s.res := rfl
@[simp] theorem takeAction_mem (a : HostAction) (rest : List HostAction) (s : State) : (takeAction a rest s).mem = s.mem := rfl
@[simp] theorem takeAction_host (a : HostAction) (rest : List HostAction) (s : State) : (takeAction a rest s).host = rest := rfl
@[simp] theorem takeAction_delay (a : HostAction) (rest : List HostAction) (s : State) : (takeAction a rest s).delay = s.delay - 1 := rfl
@[simp] theorem takeAction_raced (a : HostAction) (rest : List HostAction) (s : State) : (takeAction a rest s).raced = s.raced := rfl
@[simp] theorem takeAction_draws (a : HostAction) (rest : List HostAction) (s : State) : (takeAction a rest s).draws = s.draws := rfl
@[simp] theorem takeAction_readData (a : HostAction) (rest : List HostAction) (s : State) : (takeAction a rest s).readData = s.readData := rfl
@[simp] theorem takeAction_stale (a : HostAction) (rest : List HostAction) (s : State) :
    (takeAction a rest s).stale = if readsStatus a && !s.status.busy then [] else s.stale := rfl

/-- An action that is no read of STATUS only leaves the queue. -/
theorem takeAction_eq (a : HostAction) (rest : List HostAction) (s : State) (h : readsStatus a = false) :
    takeAction a rest s = { s with host := rest, delay := s.delay - 1 } := by simp [takeAction, h]

/-! ## takeFault and commit, both a `finish` -/

theorem takeFault_eq_finish (i : Option Instr) (r : Raise) (s : State) :
    takeFault i r s = finish (errStatus r.kind) r.info Results.zero (faultMem i r.kind.stage s) s := rfl

theorem commit_eq_finish (i : Instr) (b : BodyResult) (s : State) :
    commit i b s = finish (doneStatus b.trail) 0 b.res (commitMem i b s) s := rfl

end Sys2Proof.Machine
end

