-- ==== Sys2Proof/Laws/Complete.lean ====
section
/-! SUPPORT. What the shared completion operations can do: the checks of stages 2 to 4 against the terms of Safety.lean, the
cases of a completion, the shape of a body's outputs, the commit. -/

namespace Sys2Proof.Machine

/-! ## Stages 2 to 4 -/

/-- The machine's size check is the limit of R115. -/
theorem tooLarge_iff (i : Instr) (s : State) (k : Operand) : tooLarge i s k = true ↔ OverLimit i s k := by
  cases k <;> cases i <;> simp [tooLarge, srcTooLarge, OverLimit, usesParam, operandSize]; all_goals rfl

/-- The machine's address check is R116. -/
theorem outOfMemory_iff (i : Instr) (s : State) (k : Operand) (u : Nat) (hu : operandSize i k = some u) :
    (rangeOfSize s.args k u).outOfMemory s.params.memSize = true ↔ OutsideMemory i s k := by
  have hpos : 0 < u := by
    cases i <;> cases k <;> simp [operandSize] at hu <;> omega
  simp only [Range.outOfMemory, decide_eq_true_eq]
  simp only [rangeOfSize, OutsideMemory, hu, Option.isSome_some, true_and, Option.getD_some]
  constructor
  · rintro ⟨h1, h2⟩
    exact ⟨Nat.pos_of_mul_pos_left h1, h2⟩
  · rintro ⟨h1, h2⟩
    exact ⟨Nat.mul_pos hpos h1, h2⟩

/-- The machine's overlap check is R117. -/
theorem overlaps_iff (i : Instr) (s : State) (a b : Operand) (u v : Nat) (hu : operandSize i a = some u)
    (hv : operandSize i b = some v) :
    (rangeOfSize s.args a u).overlaps (rangeOfSize s.args b v) = true ↔ Overlapping i s a b := by
  simp only [Range.overlaps, decide_eq_true_eq]
  simp [rangeOfSize, Overlapping, hu, hv]

theorem sizeCheck_eq_none (i : Instr) (s : State) :
    sizeCheck i s = none ↔ ∀ k ∈ ([.src0, .src1, .param] : List Operand), ¬ OverLimit i s k := by
  unfold sizeCheck
  rw [List.findSome?_eq_none_iff]
  refine forall₂_congr fun k _ => ?_
  rw [← tooLarge_iff]
  cases tooLarge i s k <;> simp

/-- What the address check answers for one operand. -/
theorem addressCheck_one (i : Instr) (s : State) (k : Operand) :
    (match operandSize i k with
      | some u =>
        if (rangeOfSize s.args k u).outOfMemory s.params.memSize then some (Raise.mk .addressError (infoOf k.id)) else none
      | none => none) = if OutsideMemory i s k then some ⟨.addressError, infoOf k.id⟩ else none := by
  split
  · rename_i u hu
    exact if_congr (outOfMemory_iff i s k u hu) rfl rfl
  · rename_i hu
    rw [if_neg (by simp [OutsideMemory, hu])]

/-- What the overlap check answers for one pair. -/
theorem overlapCheck_one (i : Instr) (s : State) (a b : Operand) :
    (match operandSize i a, operandSize i b with
      | some u, some v =>
        if (rangeOfSize s.args a u).overlaps (rangeOfSize s.args b v) then
          some (Raise.mk .bufferOverlap (infoOf (16 * a.id + b.id)))
        else none
      | _, _ => none) =
      if Overlapping i s a b then some ⟨.bufferOverlap, infoOf (16 * a.id + b.id)⟩ else none := by
  split
  · rename_i u v hu hv
    exact if_congr (overlaps_iff i s a b u v hu hv) rfl rfl
  · rename_i hno
    rw [if_neg]
    rintro ⟨ha, hb, -⟩
    obtain ⟨u, hu⟩ := Option.isSome_iff_exists.1 ha
    obtain ⟨v, hv⟩ := Option.isSome_iff_exists.1 hb
    exact hno u v hu hv

theorem addressCheck_eq (i : Instr) (s : State) :
    addressCheck i s = ([.src0, .src1, .dst0, .dst1] : List Operand).findSome? fun k =>
      if OutsideMemory i s k then some ⟨.addressError, infoOf k.id⟩ else none := by
  unfold addressCheck
  exact congrArg (fun f => List.findSome? f _) (funext (addressCheck_one i s))

theorem overlapCheck_eq (i : Instr) (s : State) :
    overlapCheck i s = overlapPairs.findSome? fun p =>
      if Overlapping i s p.1 p.2 then some ⟨.bufferOverlap, infoOf (16 * p.1.id + p.2.id)⟩ else none := by
  unfold overlapCheck
  exact congrArg (fun f => List.findSome? f _) (funext fun p => overlapCheck_one i s p.1 p.2)

theorem addressCheck_eq_none (i : Instr) (s : State) :
    addressCheck i s = none ↔ ∀ k ∈ ([.src0, .src1, .dst0, .dst1] : List Operand), ¬ OutsideMemory i s k := by
  rw [addressCheck_eq, List.findSome?_eq_none_iff]
  exact forall₂_congr fun k _ => by split <;> simp_all

theorem overlapCheck_eq_none (i : Instr) (s : State) :
    overlapCheck i s = none ↔ ∀ p ∈ overlapPairs, ¬ Overlapping i s p.1 p.2 := by
  rw [overlapCheck_eq, List.findSome?_eq_none_iff]
  exact forall₂_congr fun p _ => by split <;> simp_all

/-- Stages 2 to 4 pass exactly on legal operands. -/
theorem preCheck_eq_none_iff (i : Instr) (s : State) : preCheck i s = none ↔ OperandsLegal i s := by
  unfold preCheck OperandsLegal
  rw [← sizeCheck_eq_none, ← addressCheck_eq_none]
  have h := overlapCheck_eq_none i s
  unfold overlapPairs at h
  rw [← h]
  cases h1 : sizeCheck i s <;> cases h2 : addressCheck i s <;> simp

/-- An error of stages 2 to 4 is one of the three kinds, so its stage is at most 4. -/
theorem preCheck_stage (i : Instr) (s : State) (r : Raise) (h : preCheck i s = some r) : r.kind.stage ≤ 4 := by
  unfold preCheck at h
  split at h
  · rename_i h1
    cases h
    obtain ⟨_, _, h1⟩ := List.exists_of_findSome?_eq_some h1
    split at h1 <;> cases h1
    exact Nat.le_of_ble_eq_true rfl
  · split at h
    · rename_i h1
      cases h
      rw [addressCheck_eq] at h1
      obtain ⟨_, _, h1⟩ := List.exists_of_findSome?_eq_some h1
      split at h1 <;> cases h1
      exact Nat.le_of_ble_eq_true rfl
    · rw [overlapCheck_eq] at h
      obtain ⟨_, _, h1⟩ := List.exists_of_findSome?_eq_some h
      split at h1 <;> cases h1
      exact Nat.le_of_ble_eq_true rfl

/-! ## The cases of a completion -/

/-- Every meaning is the shared completion with its body. -/
theorem exec_eq (i : Instr) (s : State) : exec i s = runCommand i (bodyOf i) s := by cases i <;> rfl

/-- A command always completes. -/
theorem exec_next (i : Instr) (s : State) :
    exec i s = .next (if s.raced then completeRaced i s else completeWith i (bodyOf i) s) := exec_eq i s

theorem exec_raced (i : Instr) (s : State) (h : s.raced = true) : exec i s = .next (completeRaced i s) := by
  rw [exec_next, if_pos h]

theorem exec_not_raced (i : Instr) (s : State) (h : s.raced = false) :
    exec i s = .next (completeWith i (bodyOf i) s) := by
  rw [exec_next, h]
  rfl

/-- A completion without a race: an error of stages 2 to 4, of the body, of stage 6, or success (R114). -/
theorem completeWith_cases (i : Instr) (body : State → Except Raise BodyResult) (s : State) :
    (∃ r, preCheck i s = some r ∧ completeWith i body s = takeFault (some i) r s) ∨
    (OperandsLegal i s ∧ ∃ r, body s = .error r ∧ completeWith i body s = takeFault (some i) r s) ∨
    (OperandsLegal i s ∧ ∃ b, body s = .ok b ∧
      ((∃ r, capacityCheck i b s = some r ∧ completeWith i body s = takeFault (some i) r s) ∨
        (capacityCheck i b s = none ∧ completeWith i body s = commit i b s))) := by
  unfold completeWith
  cases hp : preCheck i s with
  | some r => exact .inl ⟨r, rfl, rfl⟩
  | none =>
    have hl := (preCheck_eq_none_iff i s).1 hp
    cases hb : body s with
    | error r => exact .inr (.inl ⟨hl, r, rfl, rfl⟩)
    | ok b =>
      refine .inr (.inr ⟨hl, b, rfl, ?_⟩)
      cases hc : capacityCheck i b s with
      | some r => exact .inl ⟨r, rfl, by simp only [hc]⟩
      | none => exact .inr ⟨rfl, by simp only [hc]⟩

/-- On legal operands a body that raises ends the command with its error. -/
theorem exec_body_error (i : Instr) (s : State) (r : Raise) (hr : s.raced = false) (hl : OperandsLegal i s)
    (hb : bodyOf i s = .error r) : exec i s = .next (takeFault (some i) r s) := by
  rw [exec_not_raced i s hr]
  unfold completeWith
  rw [(preCheck_eq_none_iff i s).2 hl]
  simp only [hb]

/-- On legal operands a body whose outputs fit is committed. -/
theorem exec_commit (i : Instr) (s : State) (b : BodyResult) (hr : s.raced = false) (hl : OperandsLegal i s)
    (hb : bodyOf i s = .ok b) (hc : capacityCheck i b s = none) : exec i s = .next (commit i b s) := by
  rw [exec_not_raced i s hr]
  unfold completeWith
  rw [(preCheck_eq_none_iff i s).2 hl]
  simp only [hb, hc]

/-- The outputs fit exactly if each used destination's capacity is at least its output's element count (R118). -/
theorem capacityCheck_eq_none (i : Instr) (b : BodyResult) (s : State) :
    capacityCheck i b s = none ↔
      ∀ k ∈ ([.dst0, .dst1] : List Operand), (operandSize i k).isSome = true →
        (b.out k).count ≤ operandCount s.args k := by
  unfold capacityCheck
  rw [List.findSome?_eq_none_iff]
  refine forall₂_congr fun k _ => ?_
  cases (operandSize i k).isSome <;> simp

theorem capacityCheck_kind (i : Instr) (b : BodyResult) (s : State) (r : Raise) (h : capacityCheck i b s = some r) :
    r.kind = .outputOverflow := by
  obtain ⟨_, _, h1⟩ := List.exists_of_findSome?_eq_some h
  split at h1 <;> cases h1
  rfl

/-! ## Which stage raises which error (R260) -/

theorem sizeCheck_kind (i : Instr) (s : State) (r : Raise) (h : sizeCheck i s = some r) : r.kind = .tooLarge := by
  obtain ⟨_, _, h1⟩ := List.exists_of_findSome?_eq_some h
  split at h1 <;> cases h1; rfl

theorem addressCheck_kind (i : Instr) (s : State) (r : Raise) (h : addressCheck i s = some r) : r.kind = .addressError := by
  rw [addressCheck_eq] at h
  obtain ⟨_, _, h1⟩ := List.exists_of_findSome?_eq_some h
  split at h1 <;> cases h1; rfl

theorem overlapCheck_kind (i : Instr) (s : State) (r : Raise) (h : overlapCheck i s = some r) : r.kind = .bufferOverlap := by
  rw [overlapCheck_eq] at h
  obtain ⟨_, _, h1⟩ := List.exists_of_findSome?_eq_some h
  split at h1 <;> cases h1; rfl

/-- A body's errors are all of stage 5 (R260). -/
theorem bodyOf_error_stage (i : Instr) (s : State) (r : Raise) (h : bodyOf i s = .error r) : r.kind.stage = 5 := by
  have enc : ∀ (l : List Byte) (n : Nat) (a : List Byte) e, mtfEncode n a l = .error e → e.kind = .symbolNotInAlphabet := by
    intro l
    induction l with
    | nil => intro n a e h; cases h
    | cons b l ih =>
      intro n a e h
      unfold mtfEncode at h
      split at h
      · cases h; rfl
      · split at h
        · cases h; exact ih _ _ _ ‹_›
        · cases h
  have dec : ∀ (l : List Byte) (n : Nat) (a : List Byte) e, mtfDecode n a l = .error e → e.kind = .indexOutOfRange := by
    intro l
    induction l with
    | nil => intro n a e h; cases h
    | cons b l ih =>
      intro n a e h
      unfold mtfDecode at h
      split at h
      · cases h; rfl
      · split at h
        · cases h; exact ih _ _ _ ‹_›
        · cases h
  have walk : ∀ root (l : List Bool) node k left pos e, walkDecode root l node k left pos = .error e → e.kind.stage = 5 := by
    intro root l
    induction l with
    | nil => intro node k left pos e h; cases left <;> cases h; rfl
    | cons b l ih =>
      intro node k left pos e h
      cases left with
      | zero => cases h
      | succ left =>
        unfold walkDecode at h
        split at h
        · cases h; rfl
        · split at h
          · cases h; exact ih _ _ _ _ _ ‹_›
          · cases h
        · exact ih _ _ _ _ _ h
  cases i <;> simp only [bodyOf] at h
  · cases h
  · simp only [bodySaPrep, prepText] at h; split at h <;> cases h; rfl
  · simp only [bodySaSais, buildSuffixArray] at h; split at h <;> cases h; rfl
  · simp only [bodySaPd, buildSuffixArray] at h; split at h <;> cases h; rfl
  · simp only [bodyBwtFwd, forwardTransform] at h; split at h
    · cases h; rfl
    · split at h <;> cases h; rfl
  · simp only [bodyBwtInv, inverseTransform] at h; split at h <;> cases h <;> rfl
  · cases h
  · simp only [bodyMtfEnc, recencyCoder] at h; split at h
    · cases h; rfl
    · split at h <;> cases h; rw [enc _ _ _ _ ‹_›]; rfl
  · simp only [bodyMtfDec, recencyCoder] at h; split at h
    · cases h; rfl
    · split at h <;> cases h; rw [dec _ _ _ _ ‹_›]; rfl
  · cases h
  · cases h
  · simp only [bodyHufBuild, hufBuild] at h; split at h
    · cases h
    · split at h <;> cases h; rfl
  · simp only [bodyHufDec, hufDecode] at h; split at h
    · cases h; rfl
    · split at h <;> cases h; exact walk _ _ _ _ _ _ _ ‹_›

/-- The first element of a list at which a check answers. -/
theorem findSome?_at {α β : Type} (f : α → Option β) (l before after : List α) (k : α)
    (hl : l = before ++ k :: after) (hb : ∀ j ∈ before, f j = none) (r : β)
    (hk : f k = some r) : l.findSome? f = some r := by
  subst hl
  rw [List.findSome?_append, List.findSome?_eq_none_iff.2 hb]
  simp [hk]

/-! ## Outputs and the commit -/

/-- The number of bytes of a payload of words. -/
theorem length_flatMap_leBytes (l : List Word) : (l.flatMap leBytes).length = 4 * l.length := by
  induction l with
  | nil => rfl
  | cons w l ih => rw [List.flatMap_cons, List.length_append, ih, List.length_cons]; simp only [leBytes, List.length_cons, List.length_nil]; omega

/-- The number of bytes of a payload of entries. -/
theorem length_flatMap_entry (l : List Entry) : (l.flatMap Entry.toBytes).length = 6 * l.length := by
  induction l with
  | nil => rfl
  | cons w l ih => rw [List.flatMap_cons, List.length_append, ih, List.length_cons]; simp only [Entry.toBytes, leBytes, List.length_cons, List.length_nil]; omega

/-- The element size of a payload. -/
def Payload.elemSize : Payload → Nat
  | .bytes _ => 1
  | .words _ => 4
  | .entries _ => 6

theorem Payload.length_toBytes (p : Payload) : p.toBytes.length = p.elemSize * p.count := by
  cases p with
  | bytes l => simp [Payload.toBytes, Payload.elemSize, Payload.count]
  | words l => exact length_flatMap_leBytes l
  | entries l => exact length_flatMap_entry l

/-- A body gives each used destination a payload of the element size of R93. -/
theorem bodyOf_elemSize (i : Instr) (s : State) (b : BodyResult) (k : Operand) (u : Nat) (hb : bodyOf i s = .ok b)
    (hk : k ∈ ([.dst0, .dst1] : List Operand)) (hu : operandSize i k = some u) : (b.out k).elemSize = u := by
  simp only [List.mem_cons, List.not_mem_nil, or_false] at hk
  rcases hk with rfl | rfl
  · cases i <;> simp only [operandSize, Option.some.injEq, reduceCtorEq] at hu <;> subst hu <;> simp only [bodyOf] at hb
    · simp only [bodySaPrep, prepText] at hb
      split at hb <;> cases hb
      rfl
    · simp only [bodySaSais, buildSuffixArray] at hb
      split at hb <;> cases hb
      rfl
    · simp only [bodySaPd, buildSuffixArray] at hb
      split at hb <;> cases hb
      rfl
    · simp only [bodyBwtFwd, forwardTransform] at hb
      split at hb
      · cases hb
      · split at hb <;> cases hb
        rfl
    · simp only [bodyBwtInv, inverseTransform] at hb
      split at hb <;> cases hb
      rfl
    · cases hb; rfl
    · simp only [bodyMtfEnc, recencyCoder] at hb
      split at hb
      · cases hb
      · split at hb <;> cases hb
        rfl
    · simp only [bodyMtfDec, recencyCoder] at hb
      split at hb
      · cases hb
      · split at hb <;> cases hb
        rfl
    · cases hb; rfl
    · cases hb; rfl
    · simp only [bodyHufBuild, hufBuild] at hb
      split at hb
      · cases hb; rfl
      · split at hb <;> cases hb
        rfl
    · simp only [bodyHufDec, hufDecode] at hb
      split at hb
      · cases hb
      · split at hb <;> cases hb
        rfl
  · cases i <;> simp only [operandSize, Option.some.injEq, reduceCtorEq] at hu
    subst hu
    simp only [bodyOf, bodyHufBuild, hufBuild] at hb
    split at hb
    · cases hb; rfl
    · split at hb <;> cases hb
      rfl

/-- The commit, written out for the two destinations. -/
theorem commitMem_eq (i : Instr) (b : BodyResult) (s : State) :
    commitMem i b s =
      let m := if (operandSize i .dst0).isSome then s.mem.writeBytes (operandAddr s.args .dst0) b.dst0.toBytes else s.mem
      if (operandSize i .dst1).isSome then m.writeBytes (operandAddr s.args .dst1) b.dst1.toBytes else m := rfl

theorem commitMem_wf (i : Instr) (b : BodyResult) (s : State) (h : s.mem.wf) : (commitMem i b s).wf := by
  rw [commitMem_eq]
  dsimp only
  split_ifs <;> repeat' first | exact h | apply Memory.writeBytes_wf

/-- A commit changes only bytes it stores. -/
theorem read_commitMem (i : Instr) (b : BodyResult) (s : State) (a : Nat)
    (h : ∀ k ∈ ([.dst0, .dst1] : List Operand), (operandSize i k).isSome = true →
      a < operandAddr s.args k ∨ operandAddr s.args k + (b.out k).toBytes.length ≤ a) :
    (commitMem i b s).read a = s.mem.read a := by
  rw [commitMem_eq]
  have h0 := h .dst0 (by simp)
  have h1 := h .dst1 (by simp)
  simp only [BodyResult.out] at h0 h1
  dsimp only
  split_ifs with g1 g0 g0
  · rw [Memory.read_writeBytes_outside _ _ _ _ (h1 g1), Memory.read_writeBytes_outside _ _ _ _ (h0 g0)]
  · rw [Memory.read_writeBytes_outside _ _ _ _ (h1 g1)]
  · rw [Memory.read_writeBytes_outside _ _ _ _ (h0 g0)]
  · rfl

/-- A used destination is one of the destination ranges. -/
theorem mem_dstRanges (i : Instr) (s : State) (k : Operand) (u : Nat) (hk : k ∈ ([.dst0, .dst1] : List Operand))
    (hu : operandSize i k = some u) : rangeOfSize s.args k u ∈ dstRanges i s.args := by
  simp only [dstRanges, rangesOf, List.mem_filterMap]
  exact ⟨k, hk, by simp [hu]⟩

/-- A committed output lies within its destination's range. -/
theorem output_fits (i : Instr) (s : State) (b : BodyResult) (k : Operand) (u : Nat) (hb : bodyOf i s = .ok b)
    (hc : capacityCheck i b s = none) (hk : k ∈ ([.dst0, .dst1] : List Operand)) (hu : operandSize i k = some u) :
    (b.out k).toBytes.length ≤ (rangeOfSize s.args k u).len := by
  rw [Payload.length_toBytes, bodyOf_elemSize i s b k u hb hk hu]
  exact Nat.mul_le_mul_left u ((capacityCheck_eq_none i b s).1 hc k hk (by simp [hu]))

/-- A commit changes no byte outside the destination ranges (R65). -/
theorem read_commitMem_outside (i : Instr) (s : State) (b : BodyResult) (a : Nat) (hb : bodyOf i s = .ok b)
    (hc : capacityCheck i b s = none) (ha : inRanges (dstRanges i s.args) a = false) :
    (commitMem i b s).read a = s.mem.read a := by
  refine read_commitMem i b s a fun k hk hsome => ?_
  obtain ⟨u, hu⟩ := Option.isSome_iff_exists.1 hsome
  have hfit := output_fits i s b k u hb hc hk hu
  have hout := List.any_eq_false.1 ha _ (mem_dstRanges i s k u hk hu)
  simp only [Range.contains, decide_eq_true_eq] at hout
  simp only [rangeOfSize] at hout hfit
  omega

/-! ## Completions in the terms of Safety.lean -/

theorem finish_endsWith (st : Status) (v : Word) (r : Results) (m : Memory) (s : State) :
    EndsWith s (finish st v r m s) st v r := ⟨⟨rfl, rfl, rfl, rfl, rfl⟩, rfl, rfl, rfl, rfl⟩

/-- Success of a command whose only destination is DST0. -/
theorem exec_stores_dst0 (i : Instr) (s : State) (b : BodyResult) (hr : s.raced = false) (hwf : s.mem.wf)
    (hl : OperandsLegal i s) (hb : bodyOf i s = .ok b) (h0 : (operandSize i .dst0).isSome = true)
    (h1 : operandSize i .dst1 = none) (hcap : b.dst0.count ≤ operandCount s.args .dst0) :
    ∃ t, exec i s = .next t ∧ EndsWith s t (doneStatus b.trail) 0 b.res ∧
      Stores s t (operandAddr s.args .dst0) b.dst0.toBytes := by
  have hc : capacityCheck i b s = none := by
    rw [capacityCheck_eq_none]
    intro k hk hk'
    simp only [List.mem_cons, List.not_mem_nil, or_false] at hk
    rcases hk with rfl | rfl
    · exact hcap
    · simp [h1] at hk'
  refine ⟨_, exec_commit i s b hr hl hb hc, finish_endsWith _ _ _ _ _, ?_⟩
  have hm : (commit i b s).mem = s.mem.writeBytes (operandAddr s.args .dst0) b.dst0.toBytes := by
    change commitMem i b s = _
    simp [commitMem_eq, h0, h1]
  exact ⟨by rw [hm]; exact Memory.readBytes_writeBytes _ _ _ hwf,
    fun a ha => by rw [hm]; exact Memory.read_writeBytes_outside _ _ _ _ ha⟩

/-- A fault of any stage changes no byte outside the destination ranges. -/
theorem takeFault_unchangedOutside (i : Instr) (r : Raise) (s : State) :
    UnchangedOutside (dstRanges i s.args) s (takeFault (some i) r s) := by
  intro b hb
  change (faultMem (some i) r.kind.stage s).read b = _
  unfold faultMem
  dsimp only
  split
  · exact read_fillDsts i s b hb
  · rfl

/-- A body that raises ends the command with a late fault. -/
theorem exec_faultsLate (i : Instr) (s : State) (r : Raise) (hr : s.raced = false) (hl : OperandsLegal i s)
    (hb : bodyOf i s = .error r) : FaultsLate i s r.kind r.info :=
  ⟨_, exec_body_error i s r hr hl hb, finish_endsWith _ _ _ _ _, takeFault_unchangedOutside i r s⟩

/-- A check of stages 2 to 4 that raises ends the command with an early fault. -/
theorem exec_faultsEarly (i : Instr) (s : State) (r : Raise) (hr : s.raced = false) (hp : preCheck i s = some r) :
    FaultsEarly i s r.kind r.info := by
  refine ⟨takeFault (some i) r s, ?_, finish_endsWith _ _ _ _ _, ?_⟩
  · rw [exec_not_raced i s hr]
    unfold completeWith
    rw [hp]
  · have hs := preCheck_stage i s r hp
    change faultMem (some i) r.kind.stage s = s.mem
    unfold faultMem
    exact if_neg (by omega)

end Sys2Proof.Machine
end

