-- ==== Sys2Proof/Laws/Engines.lean ====
section
/-! SUPPORT. What the engines' operations can do, one lemma for each: lengths, searches, the walks and the coders. -/

namespace Sys2Proof.Machine

/-! ## Operand readers -/

theorem length_bytesOf (s : State) (k : Operand) : (s.bytesOf k).length = operandCount s.args k := by
  simp [State.bytesOf]

/-- A count register's value is the word itself. -/
theorem infoOf_toNat (w : Word) : infoOf w.toNat = w := by simp [infoOf]

/-! ## Text and sentinel -/

theorem interiorZero_eq_none (l : List Byte) :
    interiorZero l = none ↔ ∀ k, k + 1 < l.length → l.getD k 1 ≠ 0 := by
  unfold interiorZero
  rw [List.findIdx?_eq_none_iff]
  constructor
  · intro h k hk
    have := h l[k] (by rw [List.mem_iff_getElem]; exact ⟨k, by simp; omega, by simp⟩)
    simp [sentinel] at this
    rwa [List.getD_eq_getElem _ _ (by omega)]
  · intro h x hx
    rw [List.mem_iff_getElem] at hx
    obtain ⟨k, hk, rfl⟩ := hx
    simp at hk
    have := h k (by omega)
    rw [List.getD_eq_getElem _ _ (by omega)] at this
    simpa [sentinel] using this

theorem interiorZero_eq_some (l : List Byte) (k : Nat) (h1 : k + 1 < l.length) (h2 : l.getD k 1 = 0)
    (h3 : ∀ j, j < k → l.getD j 1 ≠ 0) : interiorZero l = some k := by
  unfold interiorZero
  rw [List.findIdx?_eq_some_iff_getElem]
  rw [List.getD_eq_getElem _ _ (by omega)] at h2
  refine ⟨by simp; omega, by simpa [sentinel] using h2, fun j hj => ?_⟩
  have := h3 j hj
  rw [List.getD_eq_getElem _ _ (by omega)] at this
  simpa [sentinel] using this

theorem wellFormedText_of_isText (t : List Byte) (h : IsText t) : wellFormedText t = true := by
  obtain ⟨body, rfl, hb⟩ := h
  have : interiorZero (body ++ [0]) = none := by
    rw [interiorZero_eq_none]
    intro k hk
    simp at hk
    rw [List.getD_eq_getElem _ _ (by simp; omega), List.getElem_append_left hk]
    exact hb _ (List.getElem_mem _)
  simp only [wellFormedText, this]
  simp [sentinel]

/-! ## The two builders: how many entries they give -/

theorem length_placeAtTail (sym : List Nat) (p : Induction) (j : Nat) :
    (placeAtTail sym p j).arr.length = p.arr.length := by simp [placeAtTail]

theorem length_placeAtHead (sym : List Nat) (p : Induction) (j : Nat) :
    (placeAtHead sym p j).arr.length = p.arr.length := by simp [placeAtHead]

theorem length_foldl_induction (f : Induction → Nat → Induction) (hf : ∀ p j, (f p j).arr.length = p.arr.length)
    (l : List Nat) (p : Induction) : (l.foldl f p).arr.length = p.arr.length := by
  induction l generalizing p with
  | nil => rfl
  | cons a l ih => rw [List.foldl_cons, ih, hf]

theorem length_induce (sym : List Nat) (t : List Bool) (k : Nat) (seeds : List Nat) :
    (induce sym t k seeds).length = sym.length := by
  unfold induce
  dsimp only
  rw [length_foldl_induction _ (fun p j => by unfold sStep; split <;> simp [length_placeAtTail])]
  dsimp only
  rw [length_foldl_induction _ (fun p j => by unfold lStep; split <;> simp [length_placeAtHead])]
  dsimp only
  rw [length_foldl_induction _ (fun p j => length_placeAtTail sym p j)]
  simp

theorem length_inducedSort (sym : List Nat) : (inducedSort sym).length = sym.length := by
  unfold inducedSort
  cases h : sym.length with
  | zero => rfl
  | succ n =>
    unfold sais
    split
    · rename_i h1; simp; omega
    · simp [length_induce, h]

theorem length_insertByKey (r : List Nat) (k i : Nat) (l : List Nat) :
    (insertByKey r k i l).length = l.length + 1 := by
  induction l with
  | nil => rfl
  | cons j l ih => unfold insertByKey; split <;> simp [*]

theorem length_orderByKey (r : List Nat) (k : Nat) : (orderByKey r k).length = r.length := by
  have : ∀ l : List Nat, (l.foldr (insertByKey r k) []).length = l.length := by
    intro l
    induction l with
    | nil => rfl
    | cons a l ih => simp [length_insertByKey, ih]
  rw [orderByKey, this, List.length_range]

theorem length_assignRanks (r : List Nat) (k : Nat) (new : List Nat) (x p : Nat) (l : List Nat) :
    (assignRanks r k new x p l).length = new.length := by
  induction l generalizing new x p with
  | nil => rfl
  | cons a l ih => unfold assignRanks; dsimp only; rw [ih]; simp

theorem length_rerank (r : List Nat) (k : Nat) (o : List Nat) (ho : o ≠ []) : (rerank r k o).length = r.length := by
  cases o with
  | nil => exact absurd rfl ho
  | cons a l => simp [rerank, length_assignRanks]

theorem length_pdLoop_le (f : Nat) (r : List Nat) (k : Nat) : (pdLoop f r k).length ≤ r.length := by
  induction f generalizing r k with
  | zero => simp [pdLoop]
  | succ f ih =>
    unfold pdLoop
    dsimp only
    split
    · rw [length_orderByKey]
    · refine (ih _ _).trans ?_
      cases ho : orderByKey r k with
      | nil => simp [rerank]
      | cons a l => rw [length_rerank _ _ _ (by simp)]

theorem length_prefixDoubling_le (sym : List Nat) : (prefixDoubling sym).length ≤ sym.length :=
  length_pdLoop_le _ _ _

/-- The bytes of an array of 32-bit entries. -/
theorem words_toBytes (l : List Nat) :
    (l.map (BitVec.ofNat 32)).flatMap leBytes = l.flatMap fun e => leBytes (BitVec.ofNat 32 e) := by
  rw [List.flatMap_map]

/-! ## The inverse transform -/

theorem zeroIndexes_eq_singleton (l : List Byte) (p0 : Nat) (hp : p0 < l.length)
    (h : ∀ k, k < l.length → (l.getD k 1 = 0 ↔ k = p0)) : zeroIndexes l = [p0] := by
  unfold zeroIndexes
  have : (List.range l.length).filter (fun i => l.getD i 1 == sentinel) =
      (List.range l.length).filter (fun i => i == p0) := by
    apply List.filter_congr
    intro i hi
    have := h i (List.mem_range.1 hi)
    simp only [sentinel]
    rw [Bool.eq_iff_iff, beq_iff_eq, beq_iff_eq]
    exact this
  rw [this, List.filter_beq, List.count_eq_one_of_mem List.nodup_range (List.mem_range.2 hp)]
  rfl

/-- R183: the LF-mapping stays in range. -/
theorem lfMap_lt (l : List Byte) (p : Nat) (hp : p < l.length) : lfMap l p < l.length := by
  unfold lfMap cumulative rankAt
  rw [List.getD_eq_getElem _ _ hp]
  generalize hc : l[p] = c
  have h1 : ∀ m : List Byte, m.countP (fun b => decide (b.toNat < c.toNat)) + m.count c ≤ m.length := by
    intro m
    induction m with
    | nil => simp
    | cons a m ih =>
      rw [List.countP_cons, List.count_cons, List.length_cons]
      by_cases h : a = c
      · subst h; simp; omega
      · simp only [beq_iff_eq, h, if_false]; split <;> omega
  have h2 : (l.take p).count c < l.count c := by
    conv_rhs => rw [← List.take_append_drop p l]
    rw [List.count_append]
    have : 0 < (l.drop p).count c := by
      rw [List.count_pos_iff, List.drop_eq_getElem_cons hp, hc]; simp
    omega
  have := h1 l
  omega

/-- The walk of R183 as the positions `f` it visits, by output index. -/
theorem lfWalk_spec (l : List Byte) (k p : Nat) (acc : List Byte) (hp : p < l.length) :
    ∃ f : Nat → Nat, lfWalk l k p acc = (List.range k).map (fun j => l.getD (f j) 0) ++ acc ∧
      (0 < k → f (k - 1) = p) ∧
      ∀ j, j < k → f j < l.length ∧ (0 < j → f (j - 1) = lfMap l (f j)) := by
  induction k generalizing p acc with
  | zero => exact ⟨fun _ => 0, by simp [lfWalk], by simp, by simp⟩
  | succ k ih =>
    obtain ⟨f, h1, h2, h3⟩ := ih (lfMap l p) (l.getD p 0 :: acc) (lfMap_lt l p hp)
    refine ⟨fun j => if j = k then p else f j, ?_, by simp, ?_⟩
    · rw [lfWalk, h1, List.range_succ, List.map_append]
      simp
      intro a ha
      rw [if_neg (by omega)]
    · intro j hj
      by_cases hjk : j = k
      · subst hjk
        simp only [if_true]
        refine ⟨hp, fun h0 => ?_⟩
        rw [if_neg (by omega)]
        exact h2 h0
      · simp only [hjk, if_false]
        rw [if_neg (by omega)]
        exact h3 j (by omega)

/-! ## Alphabet and recency list -/

theorem pairwise_alphabetOf (l : List Byte) : (alphabetOf l).Pairwise (fun b c => b.toNat < c.toNat) := by
  unfold alphabetOf
  apply List.Pairwise.filter
  unfold allBytes alphaMax
  decide +kernel

theorem mem_alphabetOf (l : List Byte) (c : Byte) : c ∈ alphabetOf l ↔ c ∈ l := by
  unfold alphabetOf
  rw [List.mem_filter]
  have : c ∈ allBytes := by
    unfold allBytes
    rw [List.mem_map]
    exact ⟨c.toNat, List.mem_range.2 c.isLt, by simp⟩
  simp [this]

theorem length_alphabetOf (l : List Byte) : (alphabetOf l).length = l.dedup.length := by
  apply List.Perm.length_eq
  rw [List.perm_ext_iff_of_nodup]
  · intro a; rw [mem_alphabetOf, List.mem_dedup]
  · exact (pairwise_alphabetOf l).imp (fun h e => by subst e; omega)
  · exact List.nodup_dedup l

theorem mem_moveToFront (r : List Byte) (j : Nat) (hj : j < r.length) (c : Byte) :
    c ∈ moveToFront r j ↔ c ∈ r := by
  unfold moveToFront
  split
  · rfl
  · rw [List.getD_eq_getElem _ _ hj]
    conv_rhs => rw [← List.take_append_drop j r, List.drop_eq_getElem_cons hj]
    simp only [List.mem_cons, List.mem_append]; tauto

theorem length_moveToFront (r : List Byte) (j : Nat) (hj : j < r.length) :
    (moveToFront r j).length = r.length := by
  unfold moveToFront
  split
  · rfl
  · simp; omega

/-- MTF_ENC over bytes of the Alphabet: its output, the recency lists on the way, and that MTF_DEC undoes it. -/
theorem mtfEncode_spec (l : List Byte) (i : Nat) (a : List Byte) (ha : a.length ≤ 256) (h : ∀ b ∈ l, b ∈ a) :
    ∃ (m : List Byte) (r : Nat → List Byte), mtfEncode i a l = .ok m ∧ m.length = l.length ∧ r 0 = a ∧
      (∀ j ∈ m, j.toNat < a.length) ∧ (∀ k, mtfDecode k a m = .ok l) ∧
      ∀ i, i < l.length → (r i)[(m.getD i 0).toNat]? = some (l.getD i 0) ∧
        (∀ j, j < (m.getD i 0).toNat → (r i)[j]? ≠ some (l.getD i 0)) ∧
        r (i + 1) = moveToFront (r i) (m.getD i 0).toNat := by
  induction l generalizing i a with
  | nil => exact ⟨[], fun _ => a, rfl, rfl, rfl, by simp, fun _ => rfl, by simp⟩
  | cons b l ih =>
    have hb : b ∈ a := h b (by simp)
    cases hf : a.findIdx? (· == b) with
    | none => rw [List.findIdx?_eq_none_iff] at hf; have := hf b hb; simp at this
    | some j =>
      have hf' := hf
      rw [List.findIdx?_eq_some_iff_getElem] at hf
      obtain ⟨hj, hjb, hjl⟩ := hf
      obtain ⟨m, r, h1, h2, h3, h4, h5, h6⟩ := ih (i + 1) (moveToFront a j)
        (by rw [length_moveToFront _ _ hj]; exact ha)
        (fun c hc => by rw [mem_moveToFront _ _ hj]; exact h c (by simp [hc]))
      have hj8 : (BitVec.ofNat 8 j).toNat = j := by simp; omega
      have hjb' : a[j] = b := by simpa using hjb
      refine ⟨BitVec.ofNat 8 j :: m, fun n => match n with | 0 => a | n + 1 => r n, ?_, by simp [h2], rfl, ?_, ?_, ?_⟩
      · rw [mtfEncode, hf']
        simp only [h1]
      · intro x hx
        rcases List.mem_cons.1 hx with rfl | hx
        · rw [hj8]; exact hj
        · rw [← length_moveToFront _ _ hj]; exact h4 x hx
      · intro k
        rw [mtfDecode, hj8, if_neg (by omega), h5, List.getD_eq_getElem _ _ hj, hjb']
      · intro n hn
        cases n with
        | zero =>
          simp only [List.getD_cons_zero, hj8]
          refine ⟨by rw [List.getElem?_eq_getElem hj, hjb'], ?_, h3⟩
          intro x hx
          rw [List.getElem?_eq_getElem (by omega)]
          have := hjl x hx
          simpa using this
        | succ n =>
          simp only [List.getD_cons_succ]
          exact h6 n (by simpa using hn)

/-- MTF_DEC over indexes of the Alphabet: its output and the recency lists on the way. -/
theorem mtfDecode_spec (m : List Byte) (i : Nat) (a : List Byte) (h : ∀ b ∈ m, b.toNat < a.length) :
    ∃ (l : List Byte) (r : Nat → List Byte), mtfDecode i a m = .ok l ∧ l.length = m.length ∧ r 0 = a ∧
      ∀ i, i < m.length → (r i)[(m.getD i 0).toNat]? = some (l.getD i 0) ∧
        r (i + 1) = moveToFront (r i) (m.getD i 0).toNat := by
  induction m generalizing i a with
  | nil => exact ⟨[], fun _ => a, rfl, rfl, rfl, by simp⟩
  | cons b m ih =>
    have hb := h b (by simp)
    obtain ⟨l, r, h1, h2, h3, h6⟩ := ih (i + 1) (moveToFront a b.toNat)
      (fun c hc => by rw [length_moveToFront _ _ hb]; exact h c (by simp [hc]))
    refine ⟨a.getD b.toNat 0 :: l, fun n => match n with | 0 => a | n + 1 => r n, ?_, by simp [h2], rfl, ?_⟩
    · rw [mtfDecode, if_neg (by omega), h1]
    · intro n hn
      cases n with
      | zero =>
        simp only [List.getD_cons_zero]
        exact ⟨by rw [List.getD_eq_getElem _ _ hb, List.getElem?_eq_getElem], h3⟩
      | succ n => simp only [List.getD_cons_succ]; exact h6 n (by simpa using hn)

/-! ## Zero runs -/

theorem encodeRun_of_ge (r : Nat) (h : 255 ≤ r) : encodeRun r = [0, 255] ++ encodeRun (r - 255) := by
  unfold encodeRun runCap
  have h1 : r / 255 = (r - 255) / 255 + 1 := by omega
  have h2 : r % 255 = (r - 255) % 255 := by omega
  rw [h1, h2, List.replicate_succ, List.flatten_cons, List.append_assoc]
  rfl

theorem rleEncode_zeros (k n : Nat) (l : List Byte) :
    rleEncode (List.replicate k 0 ++ l) n = rleEncode l (n + k) := by
  induction k generalizing n with
  | zero => rfl
  | succ k ih => rw [List.replicate_succ, List.cons_append, rleEncode, if_pos rfl, ih]; congr 1; omega

theorem rleDecode_nonzero (b : Byte) (l : List Byte) (hb : b ≠ 0) :
    rleDecode (b :: l) = (b :: (rleDecode l).1, (rleDecode l).2) := by
  cases l with
  | nil => simp only [rleDecode, if_neg hb]
  | cons c l => rw [rleDecode, if_neg hb]

theorem rleDecode_pair (c : Byte) (l : List Byte) :
    rleDecode (0 :: c :: l) = (List.replicate c.toNat 0 ++ (rleDecode l).1, (rleDecode l).2) := by
  rw [rleDecode, if_pos rfl]

end Sys2Proof.Machine
end

