-- ==== Sys2Proof/Laws/Huffman.lean ====
section
/-! SUPPORT. The Huffman construction of Machine/Huffman.lean against the relations of Safety.lean: extract-min, merging, paths,
code values, and the one lemma that joins them; then codebook entries in memory. -/

namespace Sys2Proof.Machine

/-! ## Keys and extract-min (R233) -/

theorem before_iff (a b : LiveNode) : a.before b = true ↔ KeyLess a b := by simp [LiveNode.before, KeyLess]

theorem KeyLess.trans {a b c : LiveNode} (h : KeyLess a b) (g : KeyLess b c) : KeyLess a c := by
  unfold KeyLess at *; omega

theorem KeyLess.asymm {a b : LiveNode} (h : KeyLess a b) : ¬ KeyLess b a := by unfold KeyLess at *; omega

/-- Nodes with different ids have different keys. -/
theorem keyLess_or (a b : LiveNode) (h : a.id ≠ b.id) : KeyLess a b ∨ KeyLess b a := by unfold KeyLess; omega

theorem extractMin_perm (a : LiveNode) (rest : List LiveNode) :
    ((extractMin a rest).1 :: (extractMin a rest).2).Perm (a :: rest) := by
  induction rest generalizing a with
  | nil => exact .refl _
  | cons b rest ih =>
    rw [extractMin]
    split
    · exact (List.Perm.swap _ _ _).trans (((ih a).cons b).trans (.swap _ _ _))
    · exact (List.Perm.swap _ _ _).trans ((ih b).cons a)

/-- What extract-min leaves has greater keys, if the ids differ. -/
theorem extractMin_least (a : LiveNode) (rest : List LiveNode) (hid : ((a :: rest).map LiveNode.id).Nodup) :
    ∀ n ∈ (extractMin a rest).2, KeyLess (extractMin a rest).1 n := by
  -- the extracted node is the least of `x :: l`; then also less than anything `x` is less than
  have below : ∀ (x y : LiveNode) (l : List LiveNode), (∀ n ∈ (extractMin x l).2, KeyLess (extractMin x l).1 n) →
      KeyLess x y → KeyLess (extractMin x l).1 y := by
    intro x y l h hxy
    rcases List.mem_cons.1 ((extractMin_perm x l).mem_iff.2 (List.mem_cons_self)) with hx | hx
    · rwa [← hx]
    · exact (h x hx).trans hxy
  induction rest generalizing a with
  | nil => simp [extractMin]
  | cons b rest ih =>
    simp only [List.map_cons, List.nodup_cons, List.mem_cons, not_or] at hid
    rw [extractMin]
    split
    · rename_i hab
      have h := ih a (by simpa using ⟨by simpa using hid.1.2, hid.2.2⟩)
      rintro n hn
      rcases List.mem_cons.1 hn with rfl | hn
      · exact below a n rest h ((before_iff _ _).1 hab)
      · exact h n hn
    · rename_i hab
      have h := ih b (by simpa using ⟨by simpa using hid.2.1, hid.2.2⟩)
      have hba : KeyLess b a := (keyLess_or a b hid.1.1).resolve_left fun g => hab ((before_iff _ _).2 g)
      rintro n hn
      rcases List.mem_cons.1 hn with rfl | hn
      · exact below b n rest h hba
      · exact h n hn

/-! ## Merging (R234) -/

/-- The loop merges as `Merges` says, from at least one live node with different ids below the next. -/
theorem mergeLoop_merges (fuel next : Nat) (live : List LiveNode) (hne : live ≠ []) (hf : live.length ≤ fuel)
    (hid : (live.map LiveNode.id).Nodup) (hlt : ∀ n ∈ live, n.id < next) :
    ∃ root, mergeLoop fuel next live = some root ∧ Merges next live root := by
  induction fuel generalizing next live with
  | zero => exact absurd (List.length_eq_zero_iff.1 (Nat.le_zero.1 hf)) hne
  | succ fuel ih =>
    match live, hne with
    | [n], _ => exact ⟨n.tree, rfl, .root next n⟩
    | x :: y :: rest, _ =>
      have p1 := extractMin_perm x (y :: rest)
      have l1 := extractMin_least x (y :: rest) hid
      rw [mergeLoop]
      generalize extractMin x (y :: rest) = e1 at p1 l1
      obtain ⟨a, left⟩ := e1
      match left with
      | [] => exact absurd p1.length_eq (by simp)
      | z :: others =>
        have hid1 : ((a :: z :: others).map LiveNode.id).Nodup := (p1.map _).nodup_iff.2 hid
        have hlt1 : ∀ n ∈ a :: z :: others, n.id < next := fun n hn => hlt n (p1.mem_iff.1 hn)
        have p2 := extractMin_perm z others
        have l2 := extractMin_least z others (List.nodup_cons.1 hid1).2
        dsimp only at l1 ⊢
        generalize extractMin z others = e2 at p2 l2
        obtain ⟨b, rest'⟩ := e2
        have p : (x :: y :: rest).Perm (a :: b :: rest') := p1.symm.trans (p2.symm.cons a)
        have hidb : ((b :: rest').map LiveNode.id).Nodup := (p2.map _).nodup_iff.2 (List.nodup_cons.1 hid1).2
        have hltr : ∀ n ∈ rest', n.id < next :=
          fun n hn => hlt n (p.mem_iff.2 (by simp [hn]))
        obtain ⟨root, h1, h2⟩ := ih (next + 1) (⟨a.freq + b.freq, next, .node a.tree b.tree⟩ :: rest') (by simp)
          (by have := p.length_eq; simp at this hf ⊢; omega)
          (by
            simp only [List.map_cons, List.nodup_cons]
            refine ⟨fun hm => ?_, (List.nodup_cons.1 hidb).2⟩
            obtain ⟨n, hn, hn'⟩ := List.mem_map.1 hm
            exact absurd (hltr n hn) (by omega))
          (fun n hn => by
            rcases List.mem_cons.1 hn with rfl | hn
            · exact Nat.lt_succ_self next
            · exact Nat.lt_succ_of_lt (hltr n hn))
        exact ⟨root, h1, .merge next _ rest' a b root p (fun n hn => l1 n (p2.mem_iff.1 hn)) l2 h2⟩

/-- Merging has one result, whatever the order the live nodes are listed in. -/
theorem Merges.unique {next : Nat} {live live' : List LiveNode} {root root' : HufTree} (h : Merges next live root)
    (h' : Merges next live' root') (p : live.Perm live') : root = root' := by
  have least : ∀ {a a' : LiveNode} {l l' : List LiveNode}, (a :: l).Perm (a' :: l') → (∀ n ∈ l, KeyLess a n) →
      (∀ n ∈ l', KeyLess a' n) → a = a' := by
    intro a a' l l' q ha ha'
    by_contra hne
    have h1 : a ∈ l' := (List.mem_cons.1 (q.mem_iff.1 List.mem_cons_self)).resolve_left hne
    have h2 : a' ∈ l := (List.mem_cons.1 (q.mem_iff.2 List.mem_cons_self)).resolve_left (Ne.symm hne)
    exact (ha a' h2).asymm (ha' a h1)
  induction h generalizing live' root' with
  | root next n =>
    cases h' with
    | root _ n' => rw [List.singleton_perm_singleton.1 p]
    | merge _ _ rest a b _ others => exact absurd (p.trans others).length_eq (by simp)
  | merge next live rest a b root others first second more ih =>
    cases h' with
    | root _ n' => exact absurd (others.symm.trans p).length_eq (by simp)
    | merge _ _ rest' a' b' _ others' first' second' more' =>
      have q := (others.symm.trans p).trans others'
      obtain rfl := least q first first'
      have q := q.cons_inv
      obtain rfl := least q second second'
      exact ih more' (q.cons_inv.cons _)

/-! ## Leaves, paths and code values (R236) -/

/-- The symbols at the leaves of a tree, left to right. -/
def HufTree.symbols : HufTree → List Byte
  | .leaf c => [c]
  | .node l r => l.symbols ++ r.symbols

/-- Merging keeps the leaves. -/
theorem Merges.symbols {next : Nat} {live : List LiveNode} {root : HufTree} (h : Merges next live root) :
    root.symbols.Perm (live.flatMap fun n => n.tree.symbols) := by
  induction h with
  | root next n => simp
  | merge next live rest a b root others first second more ih =>
    refine ih.trans (List.Perm.trans ?_ (others.flatMap_right _).symm)
    simp [HufTree.symbols]

theorem PathTo.mem {t : HufTree} {c : Byte} {bits : List Bool} (h : PathTo t c bits) : c ∈ t.symbols := by
  induction h with
  | leaf c => simp [HufTree.symbols]
  | left l r c bits _ ih => simp [HufTree.symbols, ih]
  | right l r c bits _ ih => simp [HufTree.symbols, ih]

theorem exists_path (t : HufTree) (c : Byte) (h : c ∈ t.symbols) : ∃ bits, PathTo t c bits := by
  induction t with
  | leaf s => obtain rfl := List.mem_singleton.1 h; exact ⟨[], .leaf c⟩
  | node l r hl hr =>
    rcases List.mem_append.1 h with h | h
    · obtain ⟨bits, hb⟩ := hl h; exact ⟨_, .left l r c bits hb⟩
    · obtain ⟨bits, hb⟩ := hr h; exact ⟨_, .right l r c bits hb⟩

/-- In a tree whose leaves differ, no path is a proper or improper prefix of a path to another leaf. -/
theorem PathTo.eq_of_prefix {t : HufTree} {c c' : Byte} {bits bits' : List Bool} (h : PathTo t c bits)
    (h' : PathTo t c' bits') (hp : bits <+: bits') : c = c' ∧ bits = bits' := by
  induction h generalizing c' bits' with
  | leaf c => cases h'; exact ⟨rfl, rfl⟩
  | left l r c bits _ ih =>
    cases h' with
    | left _ _ _ bits' below => have := ih below (List.cons_prefix_cons.1 hp).2; simp [this]
    | right _ _ _ bits' below => simp [List.cons_prefix_cons] at hp
  | right l r c bits _ ih =>
    cases h' with
    | right _ _ _ bits' below => have := ih below (List.cons_prefix_cons.1 hp).2; simp [this]
    | left _ _ _ bits' below => simp [List.cons_prefix_cons] at hp

/-- In a tree whose leaves differ, each symbol has one path. -/
theorem PathTo.unique {t : HufTree} {c : Byte} {bits bits' : List Bool} (hn : t.symbols.Nodup) (h : PathTo t c bits)
    (h' : PathTo t c bits') : bits = bits' := by
  induction h generalizing bits' with
  | leaf c => cases h'; rfl
  | left l r c bits below ih =>
    obtain ⟨hl, _, hd⟩ := List.nodup_append.1 hn
    cases h' with
    | left _ _ _ bits' below' => rw [ih hl below']
    | right _ _ _ bits' below' => exact absurd rfl (hd c below.mem c below'.mem)
  | right l r c bits below ih =>
    obtain ⟨_, hr, hd⟩ := List.nodup_append.1 hn
    cases h' with
    | right _ _ _ bits' below' => rw [ih hr below']
    | left _ _ _ bits' below' => exact absurd rfl (hd c below'.mem c below.mem)

theorem foldl_bits (bits : List Bool) (v : Nat) :
    bits.foldl (fun v b => 2 * v + b.toNat) v = v * 2 ^ bits.length + bitsValue bits := by
  induction bits generalizing v with
  | nil => simp [bitsValue]
  | cons b bits ih =>
    rw [bitsValue, List.foldl_cons, List.foldl_cons, ih, ih, List.length_cons, pow_succ]
    ring

theorem bitsValue_cons (b : Bool) (bits : List Bool) :
    bitsValue (b :: bits) = b.toNat * 2 ^ bits.length + bitsValue bits := by
  rw [bitsValue, List.foldl_cons, foldl_bits]
  simp

theorem bitsValue_lt (bits : List Bool) : bitsValue bits < 2 ^ bits.length := by
  induction bits with
  | nil => simp [bitsValue]
  | cons b bits ih => rw [bitsValue_cons, List.length_cons, pow_succ]; cases b <;> simp <;> omega

/-- The bit string of the value of a bit string is the bit string. -/
theorem bitsOf_bitsValue (bits : List Bool) : bitsOf (bitsValue bits) bits.length = bits := by
  induction bits with
  | nil => rfl
  | cons b bits ih =>
    unfold bitsOf at ih ⊢
    have hlt := bitsValue_lt bits
    rw [List.length_cons, List.range_succ_eq_map, List.map_cons, List.map_map, bitsValue_cons]
    refine congrArg₂ List.cons ?_ (Eq.trans (List.map_congr_left fun j hj => ?_) ih)
    · rw [show bits.length + 1 - 1 - 0 = bits.length by omega, Nat.testBit_eq_decide_div_mod_eq,
        Nat.mul_comm, Nat.mul_add_div (Nat.two_pow_pos _), Nat.div_eq_of_lt hlt]
      cases b <;> rfl
    · have hj := List.mem_range.1 hj
      simp only [Function.comp]
      rw [show bits.length + 1 - 1 - j.succ = bits.length - 1 - j by omega, Nat.mul_comm,
        Nat.testBit_two_pow_mul_add _ hlt, if_pos (by omega)]

/-- Bit strings of one length with one value are equal. -/
theorem bitsValue_inj {bits bits' : List Bool} (hl : bits.length = bits'.length) (hv : bitsValue bits = bitsValue bits') :
    bits = bits' := by
  rw [← bitsOf_bitsValue bits, hl, hv, bitsOf_bitsValue]

/-- The assigned codes are the paths: their length and their value. -/
theorem mem_assignCodes (t : HufTree) (v l : Nat) (e : Code) :
    e ∈ assignCodes t v l ↔
      ∃ bits, PathTo t e.sym bits ∧ e.len = l + bits.length ∧ e.value = v * 2 ^ bits.length + bitsValue bits := by
  induction t generalizing v l with
  | leaf s =>
    simp only [assignCodes, List.mem_singleton]
    constructor
    · rintro rfl
      exact ⟨[], .leaf s, by simp, by simp [bitsValue]⟩
    · rintro ⟨bits, hp, h1, h2⟩
      obtain ⟨sym, len, value⟩ := e
      cases hp
      simp_all [bitsValue]
  | node left right ihl ihr =>
    simp only [assignCodes, List.mem_append, ihl, ihr]
    constructor
    · rintro (⟨bits, hp, h1, h2⟩ | ⟨bits, hp, h1, h2⟩)
      · exact ⟨false :: bits, .left _ _ _ _ hp, by simp [h1]; omega, by rw [h2, bitsValue_cons]; simp [pow_succ]; ring⟩
      · exact ⟨true :: bits, .right _ _ _ _ hp, by simp [h1]; omega, by rw [h2, bitsValue_cons]; simp [pow_succ]; ring⟩
    · rintro ⟨bits, hp, h1, h2⟩
      cases hp with
      | left _ _ _ bits below =>
        exact .inl ⟨bits, below, by simp at h1; omega, by rw [h2, bitsValue_cons]; simp [pow_succ]; ring⟩
      | right _ _ _ bits below =>
        exact .inr ⟨bits, below, by simp at h1; omega, by rw [h2, bitsValue_cons]; simp [pow_succ]; ring⟩

/-! ## The codes of a data sequence -/

theorem isAlphabet_symbolsOf (d : List Byte) : IsAlphabet (symbolsOf d) d := ⟨pairwise_alphabetOf d, mem_alphabetOf d⟩

/-- The ascending symbols of a data sequence are one list. -/
theorem IsAlphabet.eq_symbolsOf {syms d : List Byte} (h : IsAlphabet syms d) : syms = symbolsOf d := by
  have nodup : ∀ {l : List Byte}, l.Pairwise (fun b c => b.toNat < c.toNat) → l.Nodup :=
    fun h => h.imp fun h e => by subst e; omega
  have g := isAlphabet_symbolsOf d
  refine List.Perm.eq_of_pairwise (fun _ _ _ _ h1 h2 => absurd h1 (Nat.lt_asymm h2)) h.1 g.1 ?_
  exact (List.perm_ext_iff_of_nodup (nodup h.1) (nodup g.1)).2 fun c => (h.2 c).trans (g.2 c).symm

/-- For two symbols or more, the codes are those of the tree that the leaves merge to. -/
theorem buildCodes_tree (d : List Byte) (h : 2 ≤ (symbolsOf d).length) :
    ∃ root, Merges (symbolsOf d).length (leaves d) root ∧ buildCodes d = assignCodes root 0 0 := by
  have hids : (leaves d).map LiveNode.id = List.range (symbolsOf d).length := by
    rw [leaves, List.map_map]
    exact List.ext_getElem (by simp) fun i h1 h2 => by simp
  obtain ⟨root, h1, h2⟩ := mergeLoop_merges (symbolsOf d).length (symbolsOf d).length (leaves d)
    (fun he => by have := congrArg List.length he; simp [leaves] at this; simp [this] at h)
    (by simp [leaves]) (by rw [hids]; exact List.nodup_range)
    (fun n hn => by
      have : n.id ∈ (leaves d).map LiveNode.id := List.mem_map_of_mem hn
      rw [hids] at this
      exact List.mem_range.1 this)
  refine ⟨root, h2, ?_⟩
  unfold buildCodes
  match hs : symbolsOf d with
  | [] => simp [hs] at h
  | [c] => simp [hs] at h
  | b :: c :: rest =>
    rw [hs] at h1
    simp only [h1]

/-- Every symbol present has a leaf in the tree, and only one. -/
theorem symbols_of_leaves {d : List Byte} {root : HufTree} (h : Merges (symbolsOf d).length (leaves d) root) :
    root.symbols.Perm (symbolsOf d) := by
  refine h.symbols.trans (.of_eq ?_)
  rw [leaves, List.flatMap_map]
  simp only [HufTree.symbols]
  rw [← List.map_eq_flatMap, List.zipIdx_map_fst]

theorem nodup_of_isAlphabet {syms d : List Byte} (h : IsAlphabet syms d) : syms.Nodup :=
  h.1.imp fun h e => by subst e; omega

theorem symbolsOf_eq_singleton (d : List Byte) (c : Byte) (hmem : c ∈ symbolsOf d) (hlen : ¬ 2 ≤ (symbolsOf d).length) :
    symbolsOf d = [c] := by
  match h : symbolsOf d with
  | [] => simp [h] at hmem
  | [b] => simp [h] at hmem; rw [hmem]
  | _ :: _ :: _ => simp [h] at hlen

/-- The code the model computes for a symbol present is the code R231 to R236 give it. -/
theorem huffmanCode_iff (d : List Byte) (c : Byte) (bits : List Bool) (hc : c ∈ d) :
    HuffmanCode d c bits ↔ codeFor (buildCodes d) c = some ⟨c, bits.length, bitsValue bits⟩ := by
  have hmem : c ∈ symbolsOf d := ((isAlphabet_symbolsOf d).2 c).2 hc
  by_cases hlen : 2 ≤ (symbolsOf d).length
  · obtain ⟨root, hm, hb⟩ := buildCodes_tree d hlen
    have hnodup : root.symbols.Nodup := (symbols_of_leaves hm).nodup_iff.2 (nodup_of_isAlphabet (isAlphabet_symbolsOf d))
    obtain ⟨path, hpath⟩ := exists_path root c ((symbols_of_leaves hm).mem_iff.2 hmem)
    -- both sides say that `bits` is the path to `c`
    have left : HuffmanCode d c bits ↔ bits = path := by
      constructor
      · rintro ⟨syms, ha, ⟨hs, _⟩ | ⟨_, root', hm', hp'⟩⟩
        · rw [← ha.eq_symbolsOf, hs] at hlen
          simp at hlen
        · rw [ha.eq_symbolsOf] at hm'
          rw [← hm.unique hm' (.refl _)] at hp'
          exact hp'.unique hnodup hpath
      · rintro rfl
        exact ⟨_, isAlphabet_symbolsOf d, .inr ⟨hlen, root, hm, hpath⟩⟩
    have found : codeFor (buildCodes d) c = some ⟨c, path.length, bitsValue path⟩ := by
      have hin : (⟨c, path.length, bitsValue path⟩ : Code) ∈ buildCodes d := by
        rw [hb, mem_assignCodes]
        exact ⟨path, hpath, by simp, by simp⟩
      unfold codeFor
      cases hf : (buildCodes d).find? fun e => e.sym == c with
      | none => exact absurd (List.find?_eq_none.1 hf _ hin) (by simp)
      | some e =>
        have hsym : e.sym = c := by simpa using List.find?_some hf
        have he := List.mem_of_find?_eq_some hf
        rw [hb, mem_assignCodes, hsym] at he
        obtain ⟨bits', hp, h1, h2⟩ := he
        obtain rfl := hp.unique hnodup hpath
        obtain ⟨sym, len, value⟩ := e
        simp_all
    rw [left, found]
    constructor
    · rintro rfl
      rfl
    · intro h
      simp only [Option.some.injEq, Code.mk.injEq, true_and] at h
      exact (bitsValue_inj h.1 h.2).symm
  · have hs := symbolsOf_eq_singleton d c hmem hlen
    have hb : buildCodes d = [⟨c, 1, 0⟩] := by unfold buildCodes; rw [hs]
    have hf : codeFor (buildCodes d) c = some ⟨c, [false].length, bitsValue [false]⟩ := by
      rw [hb]; simp [codeFor, bitsValue]
    rw [hf]
    constructor
    · rintro ⟨syms, ha, ⟨_, rfl⟩ | ⟨h2, _⟩⟩
      · rfl
      · rw [ha.eq_symbolsOf] at h2
        exact absurd h2 hlen
    · intro h
      simp only [Option.some.injEq, Code.mk.injEq, true_and] at h
      exact ⟨_, isAlphabet_symbolsOf d, .inl ⟨hs, (bitsValue_inj h.1 h.2).symm⟩⟩

/-- Every symbol present is found among the model's codes. -/
theorem exists_codeFor (d : List Byte) (c : Byte) (hc : c ∈ d) :
    ∃ bits : List Bool, codeFor (buildCodes d) c = some ⟨c, bits.length, bitsValue bits⟩ := by
  have hmem : c ∈ symbolsOf d := ((isAlphabet_symbolsOf d).2 c).2 hc
  by_cases hlen : 2 ≤ (symbolsOf d).length
  · obtain ⟨root, hm, _⟩ := buildCodes_tree d hlen
    obtain ⟨path, hpath⟩ := exists_path root c ((symbols_of_leaves hm).mem_iff.2 hmem)
    exact ⟨path, (huffmanCode_iff d c path hc).1 ⟨_, isAlphabet_symbolsOf d, .inr ⟨hlen, root, hm, hpath⟩⟩⟩
  · have hs := symbolsOf_eq_singleton d c hmem hlen
    exact ⟨[false], (huffmanCode_iff d c _ hc).1 ⟨_, isAlphabet_symbolsOf d, .inl ⟨hs, rfl⟩⟩⟩

/-- No code is a prefix of another symbol's. -/
theorem HuffmanCode.eq_of_prefix {d : List Byte} {c c' : Byte} {bits bits' : List Bool} (h : HuffmanCode d c bits)
    (h' : HuffmanCode d c' bits') (hp : bits <+: bits') : c = c' := by
  obtain ⟨syms, ha, h⟩ := h
  obtain ⟨syms', ha', h'⟩ := h'
  obtain rfl := ha.eq_symbolsOf.trans ha'.eq_symbolsOf.symm
  rcases h with ⟨hs, _⟩ | ⟨hl, root, hm, hp1⟩ <;> rcases h' with ⟨hs', _⟩ | ⟨hl', root', hm', hp2⟩
  · simpa [hs] using hs'
  · simp [hs] at hl'
  · simp [hs'] at hl
  · obtain rfl := hm.unique hm' (.refl _)
    exact (hp1.eq_of_prefix hp2 hp).1

/-! ## Codebook entries in memory (R13) -/

/-- The bit string of an entry is the model's bit string of its code. -/
theorem Entry.bits_eq (e : Entry) : e.bits = bitsOf e.code.toNat e.len.toNat := rfl

/-- Four bytes of a word, low byte first, read as the word. -/
theorem readLE_of_bytes (m : Memory) (a : Nat) (w : Word) (h : ∀ j, j < 4 → m.read (a + j) = w.extractLsb' (8 * j) 8) :
    m.readLE a 4 = w.toNat := by
  have h0 := h 0 (by omega)
  have h1 := h 1 (by omega)
  have h2 := h 2 (by omega)
  have h3 := h 3 (by omega)
  rw [Nat.add_zero] at h0
  have hr : List.range 4 = [0, 1, 2, 3] := rfl
  simp only [Memory.readLE, Memory.readBytes, hr, List.map_cons, List.map_nil, leNat, Nat.add_zero, h0, h1, h2, h3,
    BitVec.extractLsb'_toNat, Nat.shiftRight_eq_div_pow]
  have := w.isLt
  omega

/-- A Codebook that stands in a source operand is what the model reads. -/
theorem entriesOf_eq (s : State) (k : Operand) (cb : List Entry) (hl : cb.length = operandCount s.args k)
    (h : EntriesAt s.mem (operandAddr s.args k) cb) : s.entriesOf k = cb := by
  refine List.ext_getElem (by simp [State.entriesOf, hl]) fun i h1 h2 => ?_
  obtain ⟨hs, hn, hc⟩ := h (cb[i], i) (List.mk_mem_zipIdx_iff_getElem?.2 (by simp [h2]))
  simp only [State.entriesOf, List.getElem_map, List.getElem_range, Memory.readEntry]
  rw [readLE_of_bytes _ _ _ hc, hs, hn]
  simp

/-- A Codebook written to canonical memory stands there. -/
theorem entriesAt_writeBytes (m : Memory) (a : Nat) (cb : List Entry) (hm : m.wf) :
    EntriesAt (m.writeBytes a (cb.flatMap Entry.toBytes)) a cb := by
  have block : ∀ (cb : List Entry) (i j : Nat) (hi : i < cb.length), j < 6 →
      (cb.flatMap Entry.toBytes).getD (6 * i + j) 0 = cb[i].toBytes.getD j 0 := by
    intro cb
    induction cb with
    | nil => intro i j hi; simp at hi
    | cons e cb ih =>
      intro i j hi hj
      have he : e.toBytes.length = 6 := rfl
      rw [List.flatMap_cons]
      cases i with
      | zero => rw [List.getD_append _ _ _ _ (by omega)]; simp
      | succ i =>
        rw [List.getD_append_right _ _ _ _ (by omega), he, show 6 * (i + 1) + j - 6 = 6 * i + j by omega, ih i j _ hj]
        rfl
  have hlen := length_flatMap_entry cb
  intro p hp
  obtain ⟨e, i⟩ := p
  obtain ⟨hi, rfl⟩ := List.getElem?_eq_some_iff.1 (List.mk_mem_zipIdx_iff_getElem?.1 hp)
  have at' : ∀ j, j < 6 →
      (m.writeBytes a (cb.flatMap Entry.toBytes)).read (a + 6 * i + j) = cb[i].toBytes.getD j 0 := by
    intro j hj
    rw [Memory.read_writeBytes _ _ _ _ hm, if_pos (by omega), show a + 6 * i + j - a = 6 * i + j by omega,
      block cb i j hi hj]
  refine ⟨at' 0 (by omega), at' 1 (by omega), fun j hj => ?_⟩
  rw [show a + 6 * i + 2 + j = a + 6 * i + (2 + j) by omega, at' (2 + j) (by omega)]
  match j, hj with
  | 0, _ => rfl
  | 1, _ => rfl
  | 2, _ => rfl
  | 3, _ => rfl

end Sys2Proof.Machine
end

