-- ==== Sys2Proof/Laws/PerInstr.lean ====
section
/-! SUPPORT. Facts about each command as syntax, one lemma per constructor (LAWS.json, per_instruction). -/

namespace Sys2Proof.Laws.OperandShape

/-- The shape of a command's row of 30_encoding.md R93: either no operand, or SRC0 in bytes and a DST0; PARAM only for
HUF_DEC, and never as a buffer; and its word is well formed (R91, R94). -/
def Statement (i : Instr) : Prop :=
  i.wellFormed = true ∧ Machine.operandSize i .param = none ∧
    (Machine.usesParam i = true ↔ i = .hufDec) ∧
    ((∀ k, Machine.operandSize i k = none) ∨
      (Machine.operandSize i .src0 = some 1 ∧ (Machine.operandSize i .dst0).isSome = true))

theorem nop : Statement .nop := ⟨rfl, rfl, by decide, .inl fun _ => rfl⟩
theorem saPrep : Statement .saPrep := ⟨rfl, rfl, by decide, .inr ⟨rfl, rfl⟩⟩
theorem saSais : Statement .saSais := ⟨rfl, rfl, by decide, .inr ⟨rfl, rfl⟩⟩
theorem saPd : Statement .saPd := ⟨rfl, rfl, by decide, .inr ⟨rfl, rfl⟩⟩
theorem bwtFwd : Statement .bwtFwd := ⟨rfl, rfl, by decide, .inr ⟨rfl, rfl⟩⟩
theorem bwtInv : Statement .bwtInv := ⟨rfl, rfl, by decide, .inr ⟨rfl, rfl⟩⟩
theorem alphaScan : Statement .alphaScan := ⟨rfl, rfl, by decide, .inr ⟨rfl, rfl⟩⟩
theorem mtfEnc : Statement .mtfEnc := ⟨rfl, rfl, by decide, .inr ⟨rfl, rfl⟩⟩
theorem mtfDec : Statement .mtfDec := ⟨rfl, rfl, by decide, .inr ⟨rfl, rfl⟩⟩
theorem rleEnc : Statement .rleEnc := ⟨rfl, rfl, by decide, .inr ⟨rfl, rfl⟩⟩
theorem rleDec : Statement .rleDec := ⟨rfl, rfl, by decide, .inr ⟨rfl, rfl⟩⟩
theorem hufBuild : Statement .hufBuild := ⟨rfl, rfl, by decide, .inr ⟨rfl, rfl⟩⟩
theorem hufDec : Statement .hufDec := ⟨rfl, rfl, by decide, .inr ⟨rfl, rfl⟩⟩

end Sys2Proof.Laws.OperandShape
end

