-- ==== Sys2Proof/Laws/Step.lean ====
section
/-! SUPPORT. What a step can do, said once: whose turn it is, the window map, and the cases of a next state. -/

namespace Sys2Proof.Machine

/-! ## Turns -/

theorem sequencerTurn_iff (s : State) :
    sequencerTurn s = true ↔ s.status.busy = true ∧ (s.delay = 0 ∨ s.host = []) := by
  simp [sequencerTurn, List.isEmpty_iff]

/-- The sequencer's step. -/
theorem step_sequencer (s : State) (hb : s.status.busy = true) (h : s.delay = 0 ∨ s.host = []) : step s = complete s := by
  unfold step
  rw [if_pos ((sequencerTurn_iff s).2 ⟨hb, h⟩)]

/-- The host's step with an action to take. -/
theorem step_host (s : State) (a : HostAction) (rest : List HostAction) (h : s.status.busy = false ∨ s.delay ≠ 0)
    (hh : s.host = a :: rest) : step s = hostAct a (takeAction a rest s) := by
  have hn : ¬ sequencerTurn s = true := by
    rw [sequencerTurn_iff, hh]
    rcases h with h | h <;> simp [h]
  unfold step hostTurn
  rw [if_neg hn, hh]

/-- The host's step with nothing to do. -/
theorem step_idle (s : State) (h : s.status.busy = false) (hh : s.host = []) : step s = .next s := by
  have hn : ¬ sequencerTurn s = true := by simp [sequencerTurn_iff, h]
  unfold step hostTurn
  rw [if_neg hn, hh]

theorem complete_command (s : State) (i : Instr) (h : decode s.cmd = .ok i) : complete s = exec i s := by
  unfold complete fetchWord
  rw [h]

theorem complete_illegal (s : State) (e : DecodeError) (h : decode s.cmd = .error e) :
    complete s = .next (takeFault none ⟨.illegalCommand, s.cmd⟩ s) := by
  unfold complete fetchWord
  rw [h]

/-- A next state comes from a command that completed, an illegal word, an idle block, or a host action. -/
theorem step_next_cases (s t : State) (h : step s = .next t) :
    (s.status.busy = true ∧ ∃ i, decode s.cmd = .ok i ∧ exec i s = .next t) ∨
    (s.status.busy = true ∧ ∃ e, decode s.cmd = .error e ∧ t = takeFault none ⟨.illegalCommand, s.cmd⟩ s) ∨
    t = s ∨
    ∃ a rest, s.host = a :: rest ∧ hostAct a (takeAction a rest s) = .next t := by
  unfold step at h
  split at h
  · rename_i ht
    have hb := ((sequencerTurn_iff s).1 ht).1
    cases hd : decode s.cmd with
    | ok i =>
      rw [complete_command s i hd] at h
      exact .inl ⟨hb, i, rfl, h⟩
    | error e =>
      rw [complete_illegal s e hd] at h
      cases h
      exact .inr (.inl ⟨hb, e, rfl, rfl⟩)
  · unfold hostTurn at h
    split at h
    · cases h
      exact .inr (.inr (.inl rfl))
    · rename_i a rest ha
      exact .inr (.inr (.inr ⟨a, rest, ha, h⟩))

/-! ## The window map -/

/-- Each register is found at its offset. -/
theorem regAt_regOffset (r : Reg) : regAt (regOffset r) = some r := by cases r <;> decide

/-- A register found at an offset has that offset. -/
theorem regOffset_of_regAt (offset : Nat) (r : Reg) (h : regAt offset = some r) : regOffset r = offset := by
  unfold regAt at h
  simpa using List.find?_some h

theorem regAt_eq_some_iff (offset : Nat) (r : Reg) : regAt offset = some r ↔ regOffset r = offset :=
  ⟨regOffset_of_regAt offset r, fun h => h ▸ regAt_regOffset r⟩

/-- The reserved offsets hold no register (R28). -/
theorem regAt_reserved (offset : Nat) (h : 0x40 ≤ offset) : regAt offset = none := by
  unfold regAt
  rw [List.find?_eq_none]
  intro r _
  cases r <;> simp only [regOffset, beq_iff_eq] <;> omega

/-! ## Host actions -/

/-- The contents of memory a host read may meet: the present ones or stale ones. -/
theorem earlyMem_mem (s : State) : earlyMem s ∈ s.mem :: s.stale := by
  unfold earlyMem
  rw [List.getD_eq_getElem _ _ (by rw [List.length_cons]; exact Nat.mod_lt _ (Nat.succ_pos _))]
  exact List.getElem_mem _

/-- What a window write can do: nothing, a store to an argument register, or an acceptance. -/
theorem writeWindowAt_cases (s : State) (offset : Nat) (v : Word) :
    writeWindowAt s offset v = s ∨
    (s.status.busy = false ∧ ∃ a, writeWindowAt s offset v = { s with args := a }) ∨
    (s.status.busy = false ∧ writeWindowAt s offset v = accept v s) := by
  unfold writeWindowAt
  cases hb : s.status.busy with
  | true => exact .inl (by simp)
  | false =>
    cases hr : regAt offset with
    | none => exact .inl (by simp)
    | some r => cases r <;> simp [writeRegIdle]

/-- A byte of the ranges `rs` of the command in progress (R63). -/
theorem active_iff (s : State) (rs : Instr → Args → List Range) (addr : Nat) :
    inRanges (if s.status.busy then (match decode s.cmd with | .ok i => rs i s.args | .error _ => []) else []) addr = true ↔
      Active s rs addr := by
  unfold Active
  cases s.status.busy <;> cases decode s.cmd <;> simp [inRanges]

/-- R72: which host writes race. -/
theorem writeRaces_iff (s : State) (addr : Nat) :
    writeRaces s addr = true ↔ Active s srcRanges addr ∨ Active s dstRanges addr := by
  rw [writeRaces, Bool.or_eq_true]
  exact or_congr (active_iff s srcRanges addr) (active_iff s dstRanges addr)

/-- R72: which host reads race. -/
theorem readRaces_iff (s : State) (addr : Nat) : readRaces s addr = true ↔ Active s dstRanges addr :=
  active_iff s dstRanges addr

/-- Which host reads return the byte of memory for sure (R71 (c), R72). -/
theorem readsMemory_iff (s : State) (addr : Nat) :
    readsMemory s addr = true ↔ s.stale = [] ∨ Active s srcRanges addr := by
  rw [readsMemory, Bool.or_eq_true, List.isEmpty_iff]
  exact or_congr Iff.rfl (active_iff s srcRanges addr)

/-- What a host action can do to the state, if it does not stop the model. -/
theorem hostAct_next_cases (a : HostAction) (s t : State) (h : hostAct a s = .next t) :
    t = s ∨
    (∃ d q, t = { s with readData := d, host := q }) ∨
    (∃ d r, (r = s.raced ∨ s.status.busy = true) ∧ t = { s with raced := r, readData := d, draws := s.draws + 1 }) ∨
    (∃ addr v, addr < s.params.memSize ∧
      t = { s with
        mem := s.mem.write addr v
        raced := s.raced || writeRaces s addr
        stale := s.stale.map fun m => m.write addr v }) ∨
    (s.status.busy = false ∧ ∃ a, t = { s with args := a }) ∨
    (s.status.busy = false ∧ ∃ v, t = accept v s) ∨
    t = resetEvent s := by
  cases a with
  | writeWindow bytes offset v =>
    simp only [hostAct, hostWriteWindow] at h
    split at h
    · cases h
      rcases writeWindowAt_cases s offset v with h | ⟨hb, a, h⟩ | ⟨hb, h⟩
      · exact .inl h
      · exact .inr (.inr (.inr (.inr (.inl ⟨hb, a, h⟩))))
      · exact .inr (.inr (.inr (.inr (.inr (.inl ⟨hb, v, h⟩)))))
    · cases h
  | readWindow bytes offset =>
    simp only [hostAct, hostReadWindow] at h
    split at h
    · cases h
      exact .inr (.inl ⟨_, s.host, rfl⟩)
    · cases h
  | writeByte addr v =>
    simp only [hostAct, hostWriteByte] at h
    split at h
    · rename_i ha
      cases h
      exact .inr (.inr (.inr (.inl ⟨addr, v, ha, rfl⟩)))
    · cases h
  | readByte addr =>
    simp only [hostAct, hostReadByte] at h
    split at h
    · split at h
      · rename_i hr
        cases h
        exact .inr (.inr (.inl ⟨_, true, .inr ((readRaces_iff s addr).1 hr).1, rfl⟩))
      · split at h
        · cases h
          exact .inr (.inl ⟨_, s.host, rfl⟩)
        · cases h
          exact .inr (.inr (.inl ⟨_, s.raced, .inl rfl, rfl⟩))
    · cases h
  | wait =>
    cases h
    exact .inr (.inl ⟨_, _, rfl⟩)
  | expectData v =>
    simp only [hostAct, hostExpect] at h
    split at h
    · cases h
      exact .inl rfl
    · cases h
  | reset =>
    cases h
    exact .inr (.inr (.inr (.inr (.inr (.inr rfl)))))

end Sys2Proof.Machine
end

