-- ==== Sys2Proof/Tests/Slice0.lean ====
section
/-! SUPPORT. The model's own tests. Expected values are from spec/: the encodings of 30_encoding.md and the vectors of
95_test_vectors.md (their numbers stand at the tests). Then one witness for every obligation with hypotheses. -/

open Sys2Proof Sys2Proof.Machine

section Slice0Tests

-- The tests are checked one after another, so that few of them hold memory at a time.
set_option Elab.async false

/-! ## Small states -/

/-- MEM_SIZE = 0x1000 and LEN_MAX = 2^31 - 1, as 95_test_vectors.md has them; IMPL_ID is the tests' own. -/
def Tests.params : Params := ⟨0xFFF, ⟨2147483646, by decide⟩, 0x5AB0C0DE⟩

/-- Memory that holds these byte sequences. -/
def Tests.memory (data : List (Nat × List Byte)) : Memory := data.foldl (fun m p => m.writeBytes p.1 p.2) []

/-- The argument registers, as pairs of address and count. -/
def Tests.args (src0 src1 dst0 dst1 : Word × Word) (param : Word) : Args :=
  ⟨src0.1, src0.2, src1.1, src1.2, dst0.1, dst0.2, dst1.1, dst1.2, param⟩

/-- An idle state. -/
def Tests.idle (a : Args) (data : List (Nat × List Byte)) (host : List HostAction) : State :=
  { State.reset with params := Tests.params, args := a, mem := Tests.memory data, host := host }

/-- A state with the word `w` in progress. -/
def Tests.busy (w : Word) (a : Args) (data : List (Nat × List Byte)) : State :=
  { State.reset with params := Tests.params, cmd := w, status := busyStatus, args := a, mem := Tests.memory data }

/-- The command in progress with SRC0 at 0x100, SRC1 at 0x400, DST0 at 0x800 and DST1 at 0xC00. -/
def Tests.state (i : Instr) (src0 : List Byte) (src1 : Word × List Byte) (cap0 cap1 param : Word) : State :=
  Tests.busy (encode i)
    (Tests.args (0x100, BitVec.ofNat 32 src0.length) (0x400, src1.1) (0x800, cap0) (0xC00, cap1) param)
    [(0x100, src0), (0x400, src1.2)]

/-- STATUS, ERRINFO and the results after a step. -/
def Tests.outcome : Host.Outcome State Fault Refusal → Option (Word × Word × Results)
  | .next t => some (t.status.toWord, t.errinfo, t.res)
  | .fault _ => none
  | .refused _ => none

/-- `n` bytes of memory from `a` after a step. -/
def Tests.bytes (a n : Nat) : Host.Outcome State Fault Refusal → Option (List Byte)
  | .next t => some (t.mem.readBytes a n)
  | .fault _ => none
  | .refused _ => none

/-- A register after a step. -/
def Tests.reg (r : Reg) : Host.Outcome State Fault Refusal → Option Word
  | .next t => some (readReg t r)
  | .fault _ => none
  | .refused _ => none

def Tests.banana : List Byte := [0x62, 0x61, 0x6E, 0x61, 0x6E, 0x61, 0x00]
def Tests.bananaSa : List Byte := [6, 5, 3, 1, 0, 4, 2].flatMap leBytes
def Tests.bananaL : List Byte := [0x61, 0x6E, 0x6E, 0x62, 0x00, 0x61, 0x61]
def Tests.bananaA : List Byte := [0x00, 0x61, 0x62, 0x6E]
def Tests.bananaM : List Byte := [1, 3, 0, 3, 3, 3, 0]
def Tests.bananaR : List Byte := [1, 3, 0, 1, 3, 3, 3, 0, 1]
def Tests.bananaCb : List Byte := [0, 2, 2, 0, 0, 0, 1, 2, 3, 0, 0, 0, 3, 1, 0, 0, 0, 0]

/-! ## Decoding: words written out by R91 as RSVD, ENGINE, FUNC -/

theorem test_decode_NOP : decode 0b00000000_00000000_00000000_0000_0000 = .ok .nop := by decide
theorem test_decode_SA_PREP : decode 0b00000000_00000000_00000000_0001_0001 = .ok .saPrep := by decide
theorem test_decode_SA_SAIS : decode 0b00000000_00000000_00000000_0001_0010 = .ok .saSais := by decide
theorem test_decode_SA_PD : decode 0b00000000_00000000_00000000_0001_0011 = .ok .saPd := by decide
theorem test_decode_BWT_FWD : decode 0b00000000_00000000_00000000_0010_0001 = .ok .bwtFwd := by decide
theorem test_decode_BWT_INV : decode 0b00000000_00000000_00000000_0011_0001 = .ok .bwtInv := by decide
theorem test_decode_ALPHA_SCAN : decode 0b00000000_00000000_00000000_0100_0001 = .ok .alphaScan := by decide
theorem test_decode_MTF_ENC : decode 0b00000000_00000000_00000000_0100_0010 = .ok .mtfEnc := by decide
theorem test_decode_MTF_DEC : decode 0b00000000_00000000_00000000_0100_0011 = .ok .mtfDec := by decide
theorem test_decode_RLE_ENC : decode 0b00000000_00000000_00000000_0101_0001 = .ok .rleEnc := by decide
theorem test_decode_RLE_DEC : decode 0b00000000_00000000_00000000_0101_0010 = .ok .rleDec := by decide
theorem test_decode_HUF_BUILD : decode 0b00000000_00000000_00000000_0110_0001 = .ok .hufBuild := by decide
theorem test_decode_HUF_DEC : decode 0b00000000_00000000_00000000_0110_0010 = .ok .hufDec := by decide

/-- The illegal words R96 names, and those of W8 to W12. -/
theorem test_decode_illegal_words :
    [0x01, 0x14, 0x22, 0x32, 0x40, 0x44, 0x50, 0x53, 0x60, 0x63, 0x0F].all
      (fun w => decide (decode w = .error .undefinedFunc)) = true ∧
    decode 0x151 = .error .reservedBits ∧ decode 0x80000011 = .error .reservedBits ∧
    decode 0x71 = .error .reservedEngine ∧ decode 0xF1 = .error .reservedEngine := by decide

theorem test_decodeTableWord : decodeTableWord 32 0x62 = some .hufDec ∧ decodeTableWord 32 0x71 = none := by decide

/-! ## WellFormed: one ill-formed term for each check -/

theorem test_wellFormed_rsvd : (CmdFields.mk 1 5 1).rsvdClear = false ∧ (CmdFields.mk 1 5 1).wellFormed = false := by
  decide
theorem test_wellFormed_engine :
    (CmdFields.mk 0 7 1).engineDefined = false ∧ (CmdFields.mk 0 7 1).wellFormed = false := by decide
theorem test_wellFormed_func : (CmdFields.mk 0 1 4).funcDefined = false ∧ (CmdFields.mk 0 1 4).wellFormed = false := by
  decide
theorem test_wellFormed_good : (CmdFields.mk 0 6 2).wellFormed = true := by decide
theorem test_wellFormed_width : (HostAction.writeWindow 2 0x10 0).wellFormed = false := by decide
theorem test_wellFormed_alignment : (HostAction.readWindow 4 0x11).wellFormed = false := by decide
theorem test_wellFormed_offset :
    (HostAction.readWindow 4 0x100).wellFormed = false ∧ (HostAction.readWindow 4 0xFC).wellFormed = true := by decide

/-! ## Commands, two vectors each at most -/

/-- W7. -/
theorem test_NOP : Tests.outcome (exec .nop (Tests.busy 0 Args.reset [])) = some (2, 0, ⟨0, 0, 0⟩) := by decide

/-- L2.2: an appended sentinel. -/
theorem test_SA_PREP_append :
    Tests.outcome (exec .saPrep (Tests.state .saPrep [0x62, 0x61] (0, []) 8 0 0)) = some (2, 0, ⟨3, 2, 0⟩) ∧
    Tests.bytes 0x800 4 (exec .saPrep (Tests.state .saPrep [0x62, 0x61] (0, []) 8 0 0)) = some [0x62, 0x61, 0, 0] := by
  decide +kernel
/-- L2.2: `01 00 02` is refused at index 1. -/
theorem test_SA_PREP_interior :
    Tests.outcome (exec .saPrep (Tests.state .saPrep [1, 0, 2] (0, []) 8 0 0)) = some (0x804, 1, ⟨0, 0, 0⟩) := by
  decide +kernel

/-- L2.2: banana. -/
theorem test_SA_SAIS_banana :
    Tests.outcome (exec .saSais (Tests.state .saSais Tests.banana (0, []) 7 0 0)) = some (2, 0, ⟨7, 0, 0⟩) ∧
    Tests.bytes 0x800 28 (exec .saSais (Tests.state .saSais Tests.banana (0, []) 7 0 0)) = some Tests.bananaSa := by
  decide +kernel
/-- L2.2: mississippi, whose names repeat, so that the procedure recurses. -/
theorem test_SA_SAIS_recursion :
    inducedSort (symbols (asciiBytes "mississippi" ++ [0])) = [11, 10, 7, 4, 1, 0, 9, 8, 6, 3, 5, 2] := by
  decide +kernel
/-- L2.2: `02 02 00`, where a stop test on the initial ranks would go wrong (C4). -/
theorem test_SA_PD_stop_test :
    Tests.bytes 0x800 12 (exec .saPd (Tests.state .saPd [2, 2, 0] (0, []) 3 0 0)) =
      some [2, 0, 0, 0, 1, 0, 0, 0, 0, 0, 0, 0] := by decide +kernel
/-- L2.2: "ab" without a sentinel. -/
theorem test_SA_PD_no_sentinel :
    Tests.outcome (exec .saPd (Tests.state .saPd [0x61, 0x62] (0, []) 3 0 0)) = some (0x804, 1, ⟨0, 0, 0⟩) := by
  decide +kernel

/-- L2.3: banana. -/
theorem test_BWT_FWD_banana :
    Tests.bytes 0x800 7 (exec .bwtFwd (Tests.state .bwtFwd Tests.banana (7, Tests.bananaSa) 7 0 0)) =
      some Tests.bananaL := by decide +kernel
/-- L2.3: an array of another length. -/
theorem test_BWT_FWD_length :
    Tests.outcome (exec .bwtFwd (Tests.state .bwtFwd Tests.banana (6, Tests.bananaSa) 7 0 0)) =
      some (0x604, 1, ⟨0, 0, 0⟩) := by decide +kernel
/-- L2.4: `61 00 62`, the transform of no Text. -/
theorem test_BWT_INV_walk :
    Tests.bytes 0x800 3 (exec .bwtInv (Tests.state .bwtInv [0x61, 0, 0x62] (0, []) 3 0 0)) = some [0, 0x61, 0] := by
  decide +kernel
/-- L2.4: the second of three 0 bytes. -/
theorem test_BWT_INV_multiple :
    Tests.outcome (exec .bwtInv (Tests.state .bwtInv [0, 1, 0, 0] (0, []) 4 0 0)) = some (0xA04, 2, ⟨0, 0, 0⟩) := by
  decide +kernel

/-- L2.5. -/
theorem test_ALPHA_SCAN :
    Tests.outcome (exec .alphaScan (Tests.state .alphaScan Tests.bananaL (0, []) 256 0 0)) = some (2, 0, ⟨4, 0, 0⟩) ∧
    Tests.bytes 0x800 5 (exec .alphaScan (Tests.state .alphaScan Tests.bananaL (0, []) 256 0 0)) =
      some [0x00, 0x61, 0x62, 0x6E, 0x00] := by decide +kernel
/-- L2.5: banana. -/
theorem test_MTF_ENC_banana :
    Tests.bytes 0x800 7 (exec .mtfEnc (Tests.state .mtfEnc Tests.bananaL (4, Tests.bananaA) 7 0 0)) =
      some Tests.bananaM := by decide +kernel
/-- L2.5: a duplicated Alphabet, where the first match counts. -/
theorem test_MTF_ENC_duplicates :
    Tests.bytes 0x800 3 (exec .mtfEnc (Tests.state .mtfEnc [5, 5, 7] (3, [5, 7, 5]) 3 0 0)) = some [0, 0, 1] := by
  decide +kernel
/-- L2.5: a duplicated Alphabet. -/
theorem test_MTF_DEC_duplicates :
    Tests.bytes 0x800 3 (exec .mtfDec (Tests.state .mtfDec [0, 1, 2] (3, [5, 7, 5]) 3 0 0)) = some [5, 7, 5] := by
  decide +kernel
/-- L2.5: an index that is not below the Alphabet's length. -/
theorem test_MTF_DEC_index :
    Tests.outcome (exec .mtfDec (Tests.state .mtfDec [0, 4] (4, Tests.bananaA) 7 0 0)) =
      some (0xC04, 1, ⟨0, 0, 0⟩) := by decide +kernel

/-- V1.1, V1.2: 255 and 256 zeros. -/
theorem test_RLE_ENC_cap :
    rleEncode (List.replicate 255 0) 0 = [0, 255, 0, 0] ∧ rleEncode (List.replicate 256 0) 0 = [0, 255, 0, 1] := by
  decide +kernel
/-- L2.6: runs between other bytes. -/
theorem test_RLE_ENC_runs :
    Tests.bytes 0x800 7 (exec .rleEnc (Tests.state .rleEnc [1, 0, 2, 0, 0, 3] (0, []) 8 0 0)) =
      some [1, 0, 1, 2, 0, 2, 3] := by decide +kernel
/-- L2.6: a trailing 0. -/
theorem test_RLE_DEC_trail :
    Tests.outcome (exec .rleDec (Tests.state .rleDec [9, 0, 2, 0] (0, []) 8 0 0)) = some (0xA, 0, ⟨3, 0, 0⟩) ∧
    Tests.bytes 0x800 3 (exec .rleDec (Tests.state .rleDec [9, 0, 2, 0] (0, []) 8 0 0)) = some [9, 0, 0] := by
  decide +kernel
/-- L2.6: a length byte that is 0 or follows another pair. -/
theorem test_RLE_DEC_pairs :
    rleDecode [0, 2, 0, 3] = ([0, 0, 0, 0, 0], false) ∧ rleDecode [0, 0] = ([], false) := by decide +kernel

/-- L2.7: banana. -/
theorem test_HUF_BUILD_banana :
    Tests.outcome (exec .hufBuild (Tests.state .hufBuild Tests.bananaR (0, []) 3 2 0)) = some (2, 0, ⟨3, 2, 2⟩) ∧
    Tests.bytes 0x800 18 (exec .hufBuild (Tests.state .hufBuild Tests.bananaR (0, []) 3 2 0)) = some Tests.bananaCb ∧
    Tests.bytes 0xC00 2 (exec .hufBuild (Tests.state .hufBuild Tests.bananaR (0, []) 3 2 0)) = some [0xD6, 0x2C] := by
  decide +kernel
/-- L2.7: one distinct symbol, nine times. -/
theorem test_HUF_BUILD_single :
    Tests.outcome (exec .hufBuild (Tests.state .hufBuild (List.replicate 9 0x61) (0, []) 1 2 0)) =
      some (2, 0, ⟨1, 2, 7⟩) := by decide +kernel
/-- L2.7: banana. -/
theorem test_HUF_DEC_banana :
    Tests.outcome (exec .hufDec (Tests.state .hufDec [0xD6, 0x2C] (3, Tests.bananaCb) 16 0 9)) =
      some (2, 0, ⟨9, 2, 0⟩) ∧
    Tests.bytes 0x800 9 (exec .hufDec (Tests.state .hufDec [0xD6, 0x2C] (3, Tests.bananaCb) 16 0 9)) =
      some Tests.bananaR := by decide +kernel
/-- L2.7: a missing child, while symbol 1 is decoded. -/
theorem test_HUF_DEC_invalid :
    Tests.outcome (exec .hufDec (Tests.state .hufDec [0xD6, 0x2C]
      (3, [0, 2, 2, 0, 0, 0, 1, 2, 3, 0, 0, 0, 3, 2, 0, 0, 0, 0]) 16 0 9)) = some (0xE04, 1, ⟨0, 0, 0⟩) := by
  decide +kernel

/-! ## The common checks and their order (L2.8) -/

/-- S2: AddressError of SRC0 comes before any overlap. -/
theorem test_check_address_first :
    Tests.outcome (exec .mtfEnc (Tests.busy 0x42 (Tests.args (0xFFE, 4) (0x100, 1) (0xFFD, 1) (0, 0) 0) [])) =
      some (0x304, 0, ⟨0, 0, 0⟩) := by decide +kernel
/-- S8, S9: the last byte of one range and the first of the next. -/
theorem test_check_overlap_boundary :
    Tests.outcome (exec .hufBuild (Tests.busy 0x61 (Tests.args (0x100, 3) (0, 0) (0x200, 4) (0x210, 8) 0)
      [(0x100, [0x61, 0x62, 0x63])])) = some (0x404, 0x23, ⟨0, 0, 0⟩) ∧
    Tests.outcome (exec .hufBuild (Tests.busy 0x61 (Tests.args (0x100, 3) (0, 0) (0x200, 4) (0x218, 8) 0)
      [(0x100, [0x61, 0x62, 0x63])])) = some (2, 0, ⟨3, 1, 3⟩) := by decide +kernel
/-- S13, S14: DST0 before DST1. -/
theorem test_check_capacity_order :
    Tests.outcome (exec .hufBuild (Tests.state .hufBuild [0x61, 0x62, 0x63] (0, []) 2 0 0)) =
      some (0x504, 2, ⟨0, 0, 0⟩) ∧
    Tests.outcome (exec .hufBuild (Tests.state .hufBuild [0x61, 0x62, 0x63] (0, []) 3 0 0)) =
      some (0x504, 3, ⟨0, 0, 0⟩) := by decide +kernel

/-! ## The window and the step (L2.1) -/

/-- W13: stage 1 comes first. -/
theorem test_step_illegal :
    Tests.outcome (step (Tests.busy 0x14 (Tests.args (0xFFE, 0x80000000) (0, 0) (0, 0) (0, 0) 0) [])) =
      some (0x104, 0x14, ⟨0, 0, 0⟩) := by decide +kernel
/-- W6: SRC0_LEN stores any value. -/
theorem test_window_write :
    Tests.reg .src0Len (step (Tests.idle Args.reset [] [.writeWindow 4 0x14 0x80000000])) = some 0x80000000 := by decide
/-- W4: STATUS is read-only. -/
theorem test_window_status_read_only :
    Tests.reg .status (step (Tests.idle Args.reset [] [.writeWindow 4 0x08 0xFFFFFFFF])) = some 0 := by decide
/-- W14: STATUS right after acceptance. -/
theorem test_window_accept :
    Tests.reg .status (step (Tests.idle Args.reset [] [.writeWindow 4 0x04 0x12])) = some 1 := by decide +kernel
/-- R98: MEMW32 is little-endian. -/
theorem test_script_memw32 : stmtActions (.memw32 0x200 [0x01020304]) =
    [.writeByte 0x200 4, .writeByte 0x201 3, .writeByte 0x202 2, .writeByte 0x203 1] := by decide
/-- R98, R99: REG may be an offset; the reserved offset 0x40 reads 0 (R28). -/
theorem test_script_offset :
    stmtActions (.run .nop [(.offset 0x30, 5)]) = [.writeWindow 4 0x30 5, .writeWindow 4 0x04 0, .wait] ∧
    Tests.outcome (step (Tests.idle Args.reset [] (stmtActions (.expectReg (.offset 0x40) 0)))) = some (0, 0, ⟨0, 0, 0⟩) := by
  decide
/-- R31: a narrow access is refused. -/
theorem test_window_narrow :
    step (Tests.idle Args.reset [] [.readWindow 1 0x08]) = .refused (.windowAccess 1 0x08) := rfl

/-- What the host may still see of memory after a step. -/
def Tests.stale : Host.Outcome State Fault Refusal → Option (List Memory)
  | .next t => some t.stale
  | .fault _ => none
  | .refused _ => none

/-- R298: a completion leaves the old memory to be seen, and a read of STATUS with BUSY = 0 (R71 (c)) ends that. -/
theorem test_stale_until_status_read :
    Tests.stale (step (Tests.busy 0 Args.reset [(0x800, [7])])) = some [[(0x800, 7)]] ∧
    Tests.stale (step { Tests.idle Args.reset [] [.readWindow 4 0x08] with stale := [[(0x800, 7)]] }) = some [] ∧
    Tests.stale (step { Tests.idle Args.reset [] [.readWindow 4 0x34] with stale := [[(0x800, 7)]] }) =
      some [[(0x800, 7)]] := by decide +kernel

/-- The data of the last host read after a step. -/
def Tests.readData : Host.Outcome State Fault Refusal → Option Word
  | .next t => some t.readData
  | .fault _ => none
  | .refused _ => none

/-- R72: a host read of a source byte of the command in progress returns the byte of memory, whatever is stale. -/
theorem test_read_of_source_byte :
    Tests.readData (step { Tests.busy 0x51 (Tests.args (0x100, 2) (0, 0) (0x800, 4) (0, 0) 0) [(0x100, [5, 6])] with
      delay := 1, host := [.readByte 0x101], stale := [[(0x101, 9)]] }) = some 6 := by decide +kernel
/-- R30: a read of RES0 right after a completion returns its value. -/
theorem test_window_read_of_result :
    Tests.readData (step { Tests.idle Args.reset [] [.readWindow 4 0x34] with
      status := doneStatus false, res := ⟨7, 0, 0⟩, stale := [[]] }) = some 7 := by decide +kernel

/-! ## Witnesses: states and operands that meet the hypotheses of the obligations, clause by clause -/

/-- A state in progress whose host still acts. -/
def Tests.busyHost (w : Word) (a : Args) (data : List (Nat × List Byte)) (delay : Nat) (host : List HostAction) : State :=
  { Tests.busy w a data with delay := delay, host := host }

/-- SRC0 [0x100, 0x102), DST0 [0x800, 0x804). -/
def Tests.twoBytes : Args := Tests.args (0x100, 2) (0, 0) (0x800, 4) (0, 0) 0

theorem witness_DecoderAcceptsExactlyTheOpcodeMap : decode (Tests.busy 0x62 Args.reset []).cmd = .ok .hufDec := by decide

theorem witness_StepRunsTheAcceptedCommand :
    (let s := Tests.busy 0x62 Args.reset []
     s.status.busy = true ∧ (s.delay = 0 ∨ s.host = []) ∧ decode s.cmd = .ok .hufDec) ∧
    (let s := Tests.busyHost 0x11 Args.reset [] 3 []
     s.status.busy = true ∧ s.delay ≠ 0 ∧ (s.delay = 0 ∨ s.host = []) ∧ decode s.cmd = .ok .saPrep) ∧
    decode 0x51 = .ok .rleEnc := by decide

theorem witness_IllegalWordsAreAcceptedAndFault :
    (let s := Tests.idle Args.reset [] [.writeWindow 4 0x04 0x71, .wait]
     s.status.busy = false ∧ s.host = .writeWindow 4 0x04 0x71 :: [.wait]) ∧
    (let s := Tests.busy 0x151 Args.reset []
     s.status.busy = true ∧ (s.delay = 0 ∨ s.host = [])) ∧
    (∀ i, decode (Tests.busy 0x151 Args.reset []).cmd ≠ .ok i) :=
  ⟨by decide, by decide, fun i => by cases i <;> decide⟩

theorem witness_IdleBlockStays : State.reset.status.busy = false ∧ State.reset.host = [] := ⟨rfl, rfl⟩

theorem witness_CommandWriteWhileIdleIsAccepted :
    (let s := Tests.idle Args.reset [] [.writeWindow 4 0x04 0x12]
     s.status.busy = false ∧ s.host = .writeWindow 4 0x04 0x12 :: []) := by decide

theorem witness_IneffectiveWindowWritesChangeNothing :
    (let s := Tests.busyHost 0x51 Args.reset [] 1 [.writeWindow 4 0x04 0]
     s.host = .writeWindow 4 0x04 0 :: [] ∧ 0x04 % 4 = 0 ∧ 0x04 < 0x100 ∧ s.status.busy = true ∧ s.delay ≠ 0) ∧
    (let s := Tests.idle Args.reset [] [.writeWindow 4 0x3C 7]
     s.host = .writeWindow 4 0x3C 7 :: [] ∧ 0x3C % 4 = 0 ∧ 0x3C < 0x100 ∧ s.status.busy = false ∧
      0x3C ∈ [0x00, 0x08, 0x0C, 0x34, 0x38, 0x3C]) ∧
    (let s := Tests.idle Args.reset [] [.writeWindow 4 0x40 7]
     s.host = .writeWindow 4 0x40 7 :: [] ∧ 0x40 % 4 = 0 ∧ 0x40 < 0x100 ∧ s.status.busy = false ∧ 0x40 ≤ 0x40) ∧
    (let s := Tests.idle Args.reset [] [.writeWindow 4 0xFC 7]
     s.host = .writeWindow 4 0xFC 7 :: [] ∧ 0xFC % 4 = 0 ∧ 0xFC < 0x100 ∧ s.status.busy = false ∧ 0x40 ≤ 0xFC) := by
  decide

theorem witness_ArgumentWriteIsStored :
    (let s := Tests.idle Args.reset [] [.writeWindow 4 0x10 0xFFFFFFFF]
     s.status.busy = false ∧ s.host = .writeWindow 4 0x10 0xFFFFFFFF :: [] ∧
      0x10 ∈ [0x10, 0x14, 0x18, 0x1C, 0x20, 0x24, 0x28, 0x2C, 0x30]) ∧
    (let s := Tests.idle Args.reset [] [.writeWindow 4 0x30 1]
     s.status.busy = false ∧ s.host = .writeWindow 4 0x30 1 :: [] ∧
      0x30 ∈ [0x10, 0x14, 0x18, 0x1C, 0x20, 0x24, 0x28, 0x2C, 0x30]) := by decide

theorem witness_WindowReadReturnsTheRegister :
    (let s := Tests.idle Args.reset [] [.readWindow 4 0x3C]
     (s.status.busy = false ∨ s.delay ≠ 0) ∧ s.host = .readWindow 4 0x3C :: [] ∧ 0x3C % 4 = 0 ∧ 0x3C < 0x100) ∧
    (let s := Tests.busyHost 0x51 Args.reset [] 1 [.readWindow 4 0x40]
     s.status.busy = true ∧ (s.status.busy = false ∨ s.delay ≠ 0) ∧ s.host = .readWindow 4 0x40 :: [] ∧ 0x40 % 4 = 0 ∧
      0x40 < 0x100 ∧ 0x40 ≤ 0x40) ∧
    (let s : State := { Tests.idle Args.reset [] [.readWindow 4 0x08] with stale := [[]] }
     (s.status.busy = false ∨ s.delay ≠ 0) ∧ s.host = .readWindow 4 0x08 :: [] ∧ s.stale ≠ []) ∧
    (let s := Tests.busyHost 0x51 Args.reset [] 1 [.wait]
     (s.status.busy = false ∨ s.delay ≠ 0) ∧ s.host = .wait :: []) := by decide

theorem witness_MalformedWindowAccessIsRefused :
    (let s := Tests.idle Args.reset [] [.writeWindow 4 0x100 0]
     (s.status.busy = false ∨ s.delay ≠ 0) ∧ 0x100 ≤ 0x100 ∧ s.host = .writeWindow 4 0x100 0 :: []) ∧
    (let s := Tests.busyHost 0x51 Args.reset [] 1 [.readWindow 2 0x08]
     (s.status.busy = false ∨ s.delay ≠ 0) ∧ 2 ≠ 4 ∧ s.host = .readWindow 2 0x08 :: []) ∧
    (let s := Tests.idle Args.reset [] [.readWindow 4 0x06]
     (s.status.busy = false ∨ s.delay ≠ 0) ∧ 0x06 % 4 ≠ 0 ∧ s.host = .readWindow 4 0x06 :: []) := by decide

theorem witness_NopCompletes : (Tests.busy 0 Args.reset []).raced = false := by decide

theorem witness_SaPrepAppendsTheSentinel :
    (let s := Tests.state .saPrep [0x62, 0x61] (0, []) 3 0 0
     let input : List Byte := [0x62, 0x61]
     s.raced = false ∧ s.mem.wf ∧ OperandsLegal .saPrep s ∧ s.bytesOf .src0 = input ∧
      (∀ k, k + 1 < input.length → input.getD k 1 ≠ 0) ∧
      [0x62, 0x61, 0] = (if input.getLast? = some 0 then input else input ++ [0]) ∧ 3 ≤ operandCount s.args .dst0) := by
  refine ⟨rfl, by decide +kernel, by decide +kernel, by decide +kernel, ?_, by decide, by decide⟩
  intro k hk
  have : k = 0 := by simp at hk; omega
  subst this; decide

theorem Tests.banana_isText : IsText Tests.banana := ⟨[0x62, 0x61, 0x6E, 0x61, 0x6E, 0x61], rfl, by decide⟩

/-- SA_SAIS or SA_PD of banana. -/
def Tests.sort (i : Instr) : State := Tests.state i Tests.banana (0, []) 7 0 0

theorem witness_SaSaisWritesItsArray :
    (Tests.sort .saSais).raced = false ∧ (Tests.sort .saSais).mem.wf ∧ OperandsLegal .saSais (Tests.sort .saSais) ∧
    IsText ((Tests.sort .saSais).bytesOf .src0) ∧
    operandCount (Tests.sort .saSais).args .src0 ≤ operandCount (Tests.sort .saSais).args .dst0 := by
  refine ⟨rfl, by decide +kernel, by decide +kernel, ?_, by decide⟩
  rw [show (Tests.sort .saSais).bytesOf .src0 = Tests.banana by decide +kernel]
  exact Tests.banana_isText

theorem witness_SaPdWritesItsArray :
    (Tests.sort .saPd).raced = false ∧ (Tests.sort .saPd).mem.wf ∧ OperandsLegal .saPd (Tests.sort .saPd) ∧
    IsText ((Tests.sort .saPd).bytesOf .src0) ∧
    operandCount (Tests.sort .saPd).args .src0 ≤ operandCount (Tests.sort .saPd).args .dst0 := by
  refine ⟨rfl, by decide +kernel, by decide +kernel, ?_, by decide⟩
  rw [show (Tests.sort .saPd).bytesOf .src0 = Tests.banana by decide +kernel]
  exact Tests.banana_isText

theorem witness_BwtFwdWritesTheLastColumn :
    (let s := Tests.state .bwtFwd Tests.banana (7, Tests.bananaSa) 7 0 0
     let sa := [6, 5, 3, 1, 0, 4, 2]
     s.raced = false ∧ s.mem.wf ∧ OperandsLegal .bwtFwd s ∧ s.bytesOf .src0 = Tests.banana ∧ s.wordsOf .src1 = sa ∧
      sa.length = Tests.banana.length ∧ (∀ e ∈ sa, e < Tests.banana.length) ∧
      Tests.banana.length ≤ operandCount s.args .dst0) := by decide +kernel

theorem witness_BwtInvWalksTheLfMapping :
    (let s := Tests.state .bwtInv Tests.bananaL (0, []) 7 0 0
     s.raced = false ∧ s.mem.wf ∧ OperandsLegal .bwtInv s ∧ s.bytesOf .src0 = Tests.bananaL ∧
      4 < Tests.bananaL.length ∧ (∀ k, k < Tests.bananaL.length → (Tests.bananaL.getD k 1 = 0 ↔ k = 4)) ∧
      Tests.bananaL.length ≤ operandCount s.args .dst0) := by decide +kernel

theorem witness_AlphaScanWritesTheAlphabet :
    (let s := Tests.state .alphaScan Tests.bananaL (0, []) 4 0 0
     s.raced = false ∧ s.mem.wf ∧ OperandsLegal .alphaScan s ∧ s.bytesOf .src0 = Tests.bananaL ∧
      Tests.bananaL.dedup.length ≤ operandCount s.args .dst0) := by decide +kernel

theorem witness_MtfEncWritesTheIndexes :
    (let s := Tests.state .mtfEnc Tests.bananaL (4, Tests.bananaA) 7 0 0
     s.raced = false ∧ s.mem.wf ∧ OperandsLegal .mtfEnc s ∧ s.bytesOf .src0 = Tests.bananaL ∧
      s.bytesOf .src1 = Tests.bananaA ∧ Tests.bananaA.length ≤ 256 ∧ (∀ b ∈ Tests.bananaL, b ∈ Tests.bananaA) ∧
      Tests.bananaL.length ≤ operandCount s.args .dst0) := by decide +kernel

theorem witness_MtfDecWritesTheBytes :
    (let s := Tests.state .mtfDec Tests.bananaM (4, Tests.bananaA) 7 0 0
     s.raced = false ∧ s.mem.wf ∧ OperandsLegal .mtfDec s ∧ s.bytesOf .src0 = Tests.bananaM ∧
      s.bytesOf .src1 = Tests.bananaA ∧ Tests.bananaA.length ≤ 256 ∧
      (∀ j ∈ Tests.bananaM, j.toNat < Tests.bananaA.length) ∧
      Tests.bananaM.length ≤ operandCount s.args .dst0) := by decide +kernel

theorem witness_RleEncWritesTheEncoding :
    (let s := Tests.state .rleEnc Tests.bananaM (0, []) 9 0 0
     s.raced = false ∧ s.mem.wf ∧ OperandsLegal .rleEnc s ∧ Tests.bananaR = rleEncode (s.bytesOf .src0) 0 ∧
      Tests.bananaR.length ≤ operandCount s.args .dst0) := by decide +kernel

theorem witness_ZeroRunsAreEncodedAsPairs : 0 < 1 ∧ (1 : Byte) ≠ 0 ∧ 255 ≤ 255 ∧ 254 < 255 := by decide

theorem witness_RleDecWritesTheDecoding :
    (let s := Tests.state .rleDec [9, 0, 2, 0] (0, []) 3 0 0
     let blocks : List (Byte × Byte) := [(9, 0), (0, 2)]
     s.raced = false ∧ s.mem.wf ∧ OperandsLegal .rleDec s ∧
      s.bytesOf .src0 = (blocks.flatMap fun p => if p.1 = 0 then [0, p.2] else [p.1]) ++ (if true then [0] else []) ∧
      [9, 0, 0] = (blocks.flatMap fun p => if p.1 = 0 then List.replicate p.2.toNat 0 else [p.1]) ∧
      3 ≤ operandCount s.args .dst0) := by decide +kernel

/-- The codes of banana's RLE0Sequence (R230's example). -/
def Tests.bananaCode (c : Byte) : List Bool := if c = 0 then [true, false] else if c = 1 then [true, true] else [false]

theorem Tests.banana_alphabet : IsAlphabet [0, 1, 3] Tests.bananaR := by
  have h := isAlphabet_symbolsOf Tests.bananaR
  rwa [show symbolsOf Tests.bananaR = [0, 1, 3] by decide +kernel] at h

theorem Tests.banana_code :
    ∀ c ∈ Tests.bananaR, HuffmanCode Tests.bananaR c (Tests.bananaCode c) ∧ (Tests.bananaCode c).length ≤ 32 :=
  fun c hc => ⟨(huffmanCode_iff _ c _ hc).2 (by revert c; decide +kernel), by revert c; decide +kernel⟩

theorem witness_HufBuildWritesCodebookAndBitstream :
    (let s := Tests.state .hufBuild Tests.bananaR (0, []) 3 2 0
     let bits := [true, true, false, true, false, true, true, false, false, false, true, false, true, true]
     s.raced = false ∧ s.mem.wf ∧ OperandsLegal .hufBuild s ∧ s.bytesOf .src0 = Tests.bananaR ∧
      IsAlphabet [0, 1, 3] Tests.bananaR ∧
      (∀ c ∈ Tests.bananaR, HuffmanCode Tests.bananaR c (Tests.bananaCode c) ∧ (Tests.bananaCode c).length ≤ 32) ∧
      bits = Tests.bananaR.flatMap Tests.bananaCode ∧ 2 = (bits.length + 7) / 8 ∧
      ([0, 1, 3] : List Byte).length ≤ operandCount s.args .dst0 ∧ 2 ≤ operandCount s.args .dst1) ∧
    (let s := Tests.state .hufBuild [] (0, []) 0 0 0
     s.raced = false ∧ s.mem.wf ∧ OperandsLegal .hufBuild s ∧ s.bytesOf .src0 = [] ∧ IsAlphabet [] [] ∧
      ([] : List Byte).length ≤ operandCount s.args .dst0 ∧ 0 ≤ operandCount s.args .dst1) :=
  ⟨⟨rfl, by decide +kernel, by decide +kernel, by decide +kernel, Tests.banana_alphabet, Tests.banana_code,
    by decide +kernel, by decide, by decide, by decide⟩,
    rfl, by decide +kernel, by decide +kernel, by decide +kernel, ⟨.nil, fun _ => .rfl⟩, by decide, by decide⟩

/-- R233, R234, R236 by hand: symbols 0 and 3 have frequency 2 and 4, 1 has 3; 0 and 1 merge first, then 3 (id 2) comes before
the new node (id 3), so 3 gets bit 0. -/
theorem test_HuffmanCode_by_hand : HuffmanCode Tests.bananaR 1 [true, true] := by
  refine ⟨[0, 1, 3], Tests.banana_alphabet, .inr ⟨by decide, .node (.leaf 3) (.node (.leaf 0) (.leaf 1)), ?_,
    .right _ _ _ _ (.right _ _ _ _ (.leaf 1))⟩⟩
  refine .merge 3 _ [⟨4, 2, .leaf 3⟩] ⟨2, 0, .leaf 0⟩ ⟨3, 1, .leaf 1⟩ _ (by decide +kernel) ?_ ?_ ?_
  · unfold KeyLess; decide
  · unfold KeyLess; decide
  · refine .merge 4 _ [] ⟨4, 2, .leaf 3⟩ ⟨5, 3, .node (.leaf 0) (.leaf 1)⟩ _ (by decide) ?_ ?_ (.root 5 _)
    · unfold KeyLess; decide
    · unfold KeyLess; decide

/-- The banana Codebook. -/
def Tests.codebook : List Entry := [⟨0, 2, 2⟩, ⟨1, 2, 3⟩, ⟨3, 1, 0⟩]

/-- A Codebook with no code below "01". -/
def Tests.holed : List Entry := [⟨0, 2, 2⟩, ⟨1, 2, 3⟩, ⟨3, 2, 0⟩]

theorem Tests.codebook_valid : ValidCodebook Tests.codebook := by unfold ValidCodebook; decide +kernel
theorem Tests.holed_valid : ValidCodebook Tests.holed := by unfold ValidCodebook; decide +kernel

theorem Tests.decodesTo_three (cb : List Entry) (h : (⟨1, 2, 3⟩ : Entry) ∈ cb) : DecodesTo cb [true, true] [1] :=
  DecodesTo.cons ⟨1, 2, 3⟩ [] [] h .nil

theorem witness_HufDecWritesTheSymbols :
    (let s := Tests.state .hufDec [0xC0] (3, Tests.bananaCb) 1 0 1
     s.raced = false ∧ s.mem.wf ∧ OperandsLegal .hufDec s ∧
      Tests.codebook.length = operandCount s.args .src1 ∧
      EntriesAt s.mem (operandAddr s.args .src1) Tests.codebook ∧
      ValidCodebook Tests.codebook ∧ DecodesTo Tests.codebook [true, true] [1] ∧
      streamBits (s.bytesOf .src0) = [true, true] ++ [false, false, false, false, false, false] ∧
      [(1 : Byte)].length = operandCount s.args .param ∧ [(1 : Byte)].length ≤ operandCount s.args .dst0) :=
  ⟨rfl, by decide +kernel, by decide +kernel, by decide, by decide +kernel, Tests.codebook_valid,
    Tests.decodesTo_three _ (by decide), by decide +kernel, rfl, by decide⟩

theorem witness_SizeLimitIsCheckedInOrder :
    (let s := Tests.busy 0x42 (Tests.args (0x100, 1) (0x100, 0x80000000) (0x800, 1) (0, 0) 0) []
     s.raced = false ∧ [.src0, .src1, .param] = [.src0] ++ Operand.src1 :: [.param] ∧ OverLimit .mtfEnc s .src1 ∧
      ∀ j ∈ ([.src0] : List Operand), ¬ OverLimit .mtfEnc s j) ∧
    (let s := Tests.busy 0x62 (Tests.args (0x100, 1) (0x100, 1) (0x800, 1) (0, 0) 0x80000000) []
     s.raced = false ∧ [.src0, .src1, .param] = [.src0, .src1] ++ Operand.param :: [] ∧ OverLimit .hufDec s .param ∧
      ∀ j ∈ ([.src0, .src1] : List Operand), ¬ OverLimit .hufDec s j) ∧
    (let s := Tests.busy 0x11 (Tests.args (0x100, 0x7FFFFFFF) (0, 0) (0x800, 1) (0, 0) 0) []
     s.raced = false ∧ [.src0, .src1, .param] = [] ++ Operand.src0 :: [.src1, .param] ∧ OverLimit .saPrep s .src0) ∧
    (let s := Tests.busy 0x51 (Tests.args (0x100, 0x7FFFFFFF) (0, 0) (0x800, 1) (0, 0) 0) []
     ∀ k ∈ ([.src0, .src1, .param] : List Operand), ¬ OverLimit .rleEnc s k) := by decide +kernel

theorem witness_AddressRangeIsCheckedInOrder :
    (let s := Tests.busy 0x12 (Tests.args (0x100, 3) (0, 0) (0xFF5, 3) (0, 0) 0) []
     s.raced = false ∧ (∀ k ∈ ([.src0, .src1, .param] : List Operand), ¬ OverLimit .saSais s k) ∧
      [.src0, .src1, .dst0, .dst1] = [.src0, .src1] ++ Operand.dst0 :: [.dst1] ∧ OutsideMemory .saSais s .dst0 ∧
      ∀ j ∈ ([.src0, .src1] : List Operand), ¬ OutsideMemory .saSais s j) ∧
    (let s := Tests.busy 0x12 (Tests.args (0x100, 3) (0, 0) (0xFF4, 3) (0, 0) 0) []
     ∀ k ∈ ([.src0, .src1, .dst0, .dst1] : List Operand), ¬ OutsideMemory .saSais s k) := by decide +kernel

theorem witness_OverlapIsCheckedInOrder :
    (let s := Tests.busy 0x61 (Tests.args (0x100, 3) (0, 0) (0x200, 4) (0x217, 8) 0) []
     s.raced = false ∧ (∀ k ∈ ([.src0, .src1, .param] : List Operand), ¬ OverLimit .hufBuild s k) ∧
      (∀ k ∈ ([.src0, .src1, .dst0, .dst1] : List Operand), ¬ OutsideMemory .hufBuild s k) ∧
      Overlapping .hufBuild s .dst0 .dst1 ∧
      ∀ p ∈ ([(.src0, .dst0), (.src0, .dst1), (.src1, .dst0), (.src1, .dst1)] : List (Operand × Operand)),
        ¬ Overlapping .hufBuild s p.1 p.2) ∧
    (let s := Tests.busy 0x61 (Tests.args (0x100, 3) (0, 0) (0x200, 4) (0x218, 8) 0) []
     OperandsLegal .hufBuild s) := by decide +kernel

theorem witness_CapacityIsCheckedAfterTheBody :
    (let s := Tests.state .saPrep [1, 0, 2] (0, []) 0 0 0
     s.raced = false ∧ OperandsLegal .saPrep s ∧ bodyOf .saPrep s = .error ⟨.sentinelViolation, 1⟩) ∧
    (let s := Tests.state .hufBuild [0x61, 0x62, 0x63] (0, []) 3 0 0
     let b : BodyResult := ⟨.entries [⟨0x61, 2, 2⟩, ⟨0x62, 2, 3⟩, ⟨0x63, 1, 0⟩], .bytes [0xB0], ⟨3, 1, 3⟩, false⟩
     s.raced = false ∧ OperandsLegal .hufBuild s ∧ bodyOf .hufBuild s = .ok b ∧
      [.dst0, .dst1] = [.dst0] ++ Operand.dst1 :: [] ∧ (operandSize .hufBuild .dst1).isSome = true ∧
      operandCount s.args .dst1 < (b.out .dst1).count ∧
      ∀ j ∈ ([.dst0] : List Operand), (operandSize .hufBuild j).isSome = true →
        (b.out j).count ≤ operandCount s.args j) ∧
    (let s := Tests.state .rleEnc [0] (0, []) 2 0 0
     let b : BodyResult := ⟨.bytes [0, 1], .bytes [], ⟨2, 0, 0⟩, false⟩
     s.raced = false ∧ OperandsLegal .rleEnc s ∧ bodyOf .rleEnc s = .ok b ∧
      ∀ k ∈ ([.dst0, .dst1] : List Operand), (operandSize .rleEnc k).isSome = true →
        (b.out k).count ≤ operandCount s.args k) := by
  refine ⟨⟨rfl, by decide +kernel, by rfl⟩, ⟨rfl, by decide +kernel, by rfl, ?_⟩, rfl, by decide +kernel, by rfl, ?_⟩
  · decide +kernel
  · decide +kernel

theorem witness_SaPrepRefusesAnInteriorZero :
    (let s := Tests.state .saPrep [1, 0, 2] (0, []) 8 0 0
     s.raced = false ∧ OperandsLegal .saPrep s ∧ 1 + 1 < (s.bytesOf .src0).length ∧ (s.bytesOf .src0).getD 1 1 = 0 ∧
      ∀ j, j < 1 → (s.bytesOf .src0).getD j 1 ≠ 0) := by decide +kernel

theorem witness_BuildersRefuseAMalformedText :
    (let s := Tests.state .saSais [] (0, []) 4 0 0
     s.raced = false ∧ OperandsLegal .saSais s ∧ s.bytesOf .src0 = []) ∧
    (let s := Tests.state .saPd [0, 0] (0, []) 4 0 0
     s.raced = false ∧ OperandsLegal .saPd s ∧ s.bytesOf .src0 = [0, 0] ∧ 0 + 1 < [0, 0].length) ∧
    (let s := Tests.state .saSais [0x61, 0x62] (0, []) 4 0 0
     s.raced = false ∧ OperandsLegal .saSais s ∧ s.bytesOf .src0 = [0x61, 0x62] ∧
      ∀ j, j < 2 → ([0x61, 0x62] : List Byte).getD j 1 ≠ 0) :=
  ⟨by decide +kernel, by decide +kernel, by decide +kernel⟩

theorem witness_BwtFwdRefusesABadArray :
    (let s := Tests.state .bwtFwd [1, 0] (1, [0, 0, 0, 0]) 4 0 0
     s.raced = false ∧ OperandsLegal .bwtFwd s ∧ s.bytesOf .src0 = [1, 0] ∧ s.wordsOf .src1 = [0] ∧
      [0].length ≠ [1, 0].length) ∧
    (let s := Tests.state .bwtFwd [1, 0] (2, [1, 0, 0, 0, 2, 0, 0, 0]) 4 0 0
     s.raced = false ∧ OperandsLegal .bwtFwd s ∧ s.bytesOf .src0 = [1, 0] ∧ s.wordsOf .src1 = [1, 2] ∧
      1 < [1, 2].length ∧ 2 ≤ [1, 2].getD 1 0 ∧ ∀ j, j < 1 → [1, 2].getD j 0 < 2) := by decide +kernel

theorem witness_BwtInvRefusesABadSentinelCount :
    (let s := Tests.state .bwtInv [1, 2] (0, []) 4 0 0
     s.raced = false ∧ OperandsLegal .bwtInv s ∧ s.bytesOf .src0 = [1, 2] ∧ ∀ b ∈ ([1, 2] : List Byte), b ≠ 0) ∧
    (let s := Tests.state .bwtInv [0, 1, 0, 0] (0, []) 4 0 0
     s.raced = false ∧ OperandsLegal .bwtInv s ∧ s.bytesOf .src0 = [0, 1, 0, 0] ∧
      ([0, 1, 0, 0] : List Byte).getD 2 1 = 0 ∧ (([0, 1, 0, 0] : List Byte).take 2).count 0 = 1) := by decide +kernel

theorem witness_MtfCodersRefuseBadOperands :
    (let s := Tests.state .mtfDec [1] (257, []) 4 0 0
     s.raced = false ∧ OperandsLegal .mtfDec s ∧ 256 < (s.bytesOf .src1).length) ∧
    (let s := Tests.state .mtfEnc [1, 2, 3] (2, [1, 2]) 4 0 0
     s.raced = false ∧ OperandsLegal .mtfEnc s ∧ s.bytesOf .src0 = [1, 2, 3] ∧ s.bytesOf .src1 = [1, 2] ∧
      ([1, 2, 3] : List Byte).getD 2 0 ∉ ([1, 2] : List Byte) ∧
      ∀ j, j < 2 → ([1, 2, 3] : List Byte).getD j 0 ∈ ([1, 2] : List Byte)) ∧
    (let s := Tests.state .mtfDec [1, 2] (2, [1, 2]) 4 0 0
     s.raced = false ∧ OperandsLegal .mtfDec s ∧ s.bytesOf .src0 = [1, 2] ∧ s.bytesOf .src1 = [1, 2] ∧
      2 ≤ (([1, 2] : List Byte).getD 1 0).toNat ∧ ∀ j, j < 1 → (([1, 2] : List Byte).getD j 0).toNat < 2) :=
  ⟨by decide +kernel, by decide +kernel, by decide +kernel⟩

theorem witness_HufDecRefusesACorruptCodebook :
    (let s := Tests.state .hufDec [0] (2, [0, 1, 0, 0, 0, 0, 1, 2, 1, 0, 0, 0]) 4 0 1
     s.raced = false ∧ OperandsLegal .hufDec s ∧
      ([⟨0, 1, 0⟩] ++ (⟨1, 2, 1⟩ : Entry) :: [] : List Entry).length = operandCount s.args .src1 ∧
      EntriesAt s.mem (operandAddr s.args .src1) ([⟨0, 1, 0⟩] ++ (⟨1, 2, 1⟩ : Entry) :: [] : List Entry) ∧ ValidCodebook [⟨0, 1, 0⟩] ∧
      ∃ e ∈ ([⟨0, 1, 0⟩] : List Entry), e.bits <+: (⟨1, 2, 1⟩ : Entry).bits) ∧
    (let s := Tests.state .hufDec [0] (1, [0, 33, 0, 0, 0, 0]) 4 0 1
     s.raced = false ∧ OperandsLegal .hufDec s ∧ ([] ++ (⟨0, 33, 0⟩ : Entry) :: [] : List Entry).length = operandCount s.args .src1 ∧
      EntriesAt s.mem (operandAddr s.args .src1) ([] ++ (⟨0, 33, 0⟩ : Entry) :: [] : List Entry) ∧
      ValidCodebook [] ∧ 32 < (⟨0, 33, 0⟩ : Entry).len.toNat) ∧
    (let s := Tests.state .hufDec [0] (1, [0, 1, 2, 0, 0, 0]) 4 0 1
     s.raced = false ∧ OperandsLegal .hufDec s ∧ ([] ++ (⟨0, 1, 2⟩ : Entry) :: [] : List Entry).length = operandCount s.args .src1 ∧
      EntriesAt s.mem (operandAddr s.args .src1) ([] ++ (⟨0, 1, 2⟩ : Entry) :: [] : List Entry) ∧
      2 ^ (⟨0, 1, 2⟩ : Entry).len.toNat ≤ (⟨0, 1, 2⟩ : Entry).code.toNat) := by
  unfold ValidCodebook
  exact ⟨by decide +kernel, by decide +kernel, by decide +kernel⟩

theorem witness_HufDecRefusesABadBitstream :
    (let s := Tests.state .hufDec [] (3, Tests.bananaCb) 4 0 1
     s.raced = false ∧ OperandsLegal .hufDec s ∧ Tests.codebook.length = operandCount s.args .src1 ∧
      EntriesAt s.mem (operandAddr s.args .src1) Tests.codebook ∧ ValidCodebook Tests.codebook ∧
      DecodesTo Tests.codebook [] [] ∧ streamBits (s.bytesOf .src0) = [] ++ [] ∧
      ([] : List Byte).length < operandCount s.args .param) ∧
    (let s := Tests.state .hufDec [0xD0] (3, [0, 2, 2, 0, 0, 0, 1, 2, 3, 0, 0, 0, 3, 2, 0, 0, 0, 0]) 4 0 2
     let rest := [false, true, false, false, false, false]
     s.raced = false ∧ OperandsLegal .hufDec s ∧ Tests.holed.length = operandCount s.args .src1 ∧
      EntriesAt s.mem (operandAddr s.args .src1) Tests.holed ∧ ValidCodebook Tests.holed ∧
      DecodesTo Tests.holed [true, true] [1] ∧ streamBits (s.bytesOf .src0) = [true, true] ++ rest ∧
      [(1 : Byte)].length < operandCount s.args .param ∧ rest ≠ [] ∧
      ∀ e ∈ Tests.holed, ¬ rest <+: e.bits ∧ ¬ e.bits <+: rest) := by
  refine ⟨⟨rfl, by decide +kernel, by decide, by decide +kernel, Tests.codebook_valid, .nil, by decide +kernel, by decide⟩,
    rfl, by decide +kernel, by decide, by decide +kernel, Tests.holed_valid, Tests.decodesTo_three _ (by decide), ?_⟩
  decide +kernel

theorem witness_FaultsHaveTheEffectsOfTheFaultRule :
    (let s := Tests.state .bwtInv [1, 2] (0, []) 4 0 0
     s.raced = false ∧ ∃ t, exec .bwtInv s = .next t ∧ t.status.err = true) :=
  ⟨rfl, _, rfl, by decide +kernel⟩

theorem witness_FaultsAreOfTheCommandsRow :
    (let s := Tests.state .rleEnc [0] (0, []) 1 0 0
     s.raced = false ∧ ∃ t, exec .rleEnc s = .next t ∧ t.status.err = true) :=
  ⟨rfl, _, rfl, by decide +kernel⟩

theorem witness_SourcesAreNeverWritten : (Tests.sort .saSais).raced = false ∧
    (let s : State := { Tests.sort .saPd with raced := true }
     s.raced = true ∧ OperandsLegal .saPd s) := by decide +kernel

theorem witness_OutcomeDependsOnlyOnUsedOperands :
    (let s1 := Tests.busy 0x51 (Tests.args (0x100, 2) (0, 0) (0x800, 4) (0, 0) 0) [(0x100, [5, 6])]
     let s2 := Tests.busy 0x51 (Tests.args (0x100, 2) (7, 7) (0x800, 4) (8, 8) 9) [(0x100, [5, 6]), (0x300, [1])]
     s1.raced = false ∧ s2.raced = false ∧ s1.params = s2.params ∧
      (∀ k, (operandSize .rleEnc k).isSome = true →
        operandAddr s1.args k = operandAddr s2.args k ∧ operandCount s1.args k = operandCount s2.args k) ∧
      (Instr.rleEnc = .hufDec → s1.args.param = s2.args.param) ∧
      ∀ b, inRanges (srcRanges .rleEnc s1.args) b = true → s1.mem.read b = s2.mem.read b) := by
  refine ⟨rfl, rfl, rfl, fun k _ => ?_, (fun h => by cases h), fun b hb => ?_⟩
  · cases k <;> simp_all [operandSize, operandAddr, operandCount, Tests.busy, Tests.args]
  · have h : b = 0x100 ∨ b = 0x101 := by
      simp [srcRanges, rangesOf, operandSize, rangeOfSize, inRanges, Range.contains, operandAddr, operandCount,
        Tests.busy, Tests.args] at hb
      omega
    rcases h with rfl | rfl <;> decide +kernel

theorem witness_BusyBlockCompletes :
    (let s := Tests.busyHost 0x51 Tests.twoBytes [] 5 [.writeWindow 4 0x14 5, .writeByte 0xFFF 1, .wait]
     s.status.busy = true ∧ ∀ a ∈ s.host, actionRuns s.params.memSize a = true) ∧
    (let s := Tests.busy 0x51 Tests.twoBytes []
     s.status.busy = true ∧ (s.delay = 0 ∨ s.host = [])) := by decide +kernel

theorem witness_RacesAreHostAccessesToActiveRanges :
    (let s := Tests.busyHost 0x51 Tests.twoBytes [] 2 [.writeByte 0x101 1]
     (s.status.busy = false ∨ s.delay ≠ 0) ∧ s.host = .writeByte 0x101 1 :: [] ∧ 0x101 < s.params.memSize ∧ s.mem.wf ∧
      s.status.busy = true ∧ decode s.cmd = .ok .rleEnc ∧ inRanges (srcRanges .rleEnc s.args) 0x101 = true ∧
      inRanges (srcRanges .rleEnc s.args) 0x102 = false) ∧
    (let s := Tests.busyHost 0x51 Tests.twoBytes [] 2 [.readByte 0x803]
     (s.status.busy = false ∨ s.delay ≠ 0) ∧ s.host = .readByte 0x803 :: [] ∧ 0x803 < s.params.memSize ∧
      s.status.busy = true ∧ decode s.cmd = .ok .rleEnc ∧ inRanges (dstRanges .rleEnc s.args) 0x803 = true ∧
      inRanges (dstRanges .rleEnc s.args) 0x804 = false) ∧
    (let s : State := { Tests.busyHost 0x51 Tests.twoBytes [] 2 [.readByte 0x101] with stale := [[(0x101, 9)]] }
     (s.status.busy = false ∨ s.delay ≠ 0) ∧ s.host = .readByte 0x101 :: [] ∧ 0x101 < s.params.memSize ∧ s.stale ≠ [] ∧
      s.status.busy = true ∧ decode s.cmd = .ok .rleEnc ∧ inRanges (srcRanges .rleEnc s.args) 0x101 = true ∧
      inRanges (dstRanges .rleEnc s.args) 0x101 = false) ∧
    (let s := Tests.busyHost 0x14 Tests.twoBytes [] 1 [.readByte 0xFFF]
     (s.status.busy = false ∨ s.delay ≠ 0) ∧ s.host = .readByte 0xFFF :: [] ∧ 0xFFF < s.params.memSize ∧
      s.status.busy = true ∧ decode s.cmd = .error .undefinedFunc) ∧
    (let s : State := { Tests.idle Tests.twoBytes [] [.writeByte 0 1] with stale := [[(0, 9)]] }
     (s.status.busy = false ∨ s.delay ≠ 0) ∧ s.host = .writeByte 0 1 :: [] ∧ 0 < s.params.memSize ∧
      ∀ m ∈ s.mem :: s.stale, m.wf) ∧
    (let s := Tests.idle Tests.twoBytes [] [.readByte 0x1000]
     (s.status.busy = false ∨ s.delay ≠ 0) ∧ s.params.memSize ≤ 0x1000 ∧
      (s.host = .writeByte 0x1000 0 :: [] ∨ s.host = .readByte 0x1000 :: [])) := by decide +kernel

/-- An illegal word in CMD makes no range active. -/
theorem witness_RacesAreHostAccessesToActiveRanges_illegal :
    ¬ Active (Tests.busyHost 0x14 Tests.twoBytes [] 1 [.readByte 0xFFF]) dstRanges 0xFFF := by
  rintro ⟨_, i, hi, _⟩
  cases i <;> revert hi <;> decide

theorem witness_RacedCommandEndsWithSomeOutcome :
    ({ Tests.busy 0x51 Tests.twoBytes [] with raced := true } : State).raced = true := rfl

theorem witness_ResetEventEffects :
    (let s := Tests.idle Tests.twoBytes [] [.reset]
     (s.status.busy = false ∨ s.delay ≠ 0) ∧ s.host = .reset :: [] ∧ s.status.busy = false) ∧
    (let s := Tests.busyHost 0x12 Tests.twoBytes [] 1 [.reset]
     (s.status.busy = false ∨ s.delay ≠ 0) ∧ s.host = .reset :: [] ∧ decode s.cmd = .ok .saSais) ∧
    (let s := Tests.busyHost 0x14 Tests.twoBytes [] 1 [.reset]
     (s.status.busy = false ∨ s.delay ≠ 0) ∧ s.host = .reset :: [] ∧ decode s.cmd = .error .undefinedFunc) := by decide

theorem witness_WordsAreLittleEndian : Memory.wf [(0x100, 7)] ∧ 0 < 4 ∧ 3 < 4 ∧ (0xFF < 0x100 ∨ 0x100 + 4 ≤ 0xFF) ∧
    (0x104 < 0x100 ∨ 0x100 + 4 ≤ 0x104) := by decide

theorem witness_StepKeepsTheInvariant :
    Inv (Tests.sort .saSais) ∧ ∃ t, step (Tests.sort .saSais) = .next t :=
  ⟨⟨by decide +kernel, by decide +kernel, by decide, by decide, by decide, by decide, fun _ h => by cases h⟩, _, rfl⟩

theorem witness_StepKeepsStatusOfLastCommand :
    DescribesLastCommand (Tests.sort .saPd) ∧ ∃ t, step (Tests.sort .saPd) = .next t :=
  ⟨⟨(fun h => by cases h), (fun h => by cases h), (fun h => by cases h)⟩, _, rfl⟩

theorem Tests.banana_suffixArray : IsSuffixArray Tests.banana [6, 5, 3, 1, 0, 4, 2] := by
  unfold IsSuffixArray; decide +kernel

theorem witness_SuffixArrayIsUnique :
    IsSuffixArray Tests.banana [6, 5, 3, 1, 0, 4, 2] ∧ IsSuffixArray Tests.banana [6, 5, 3, 1, 0, 4, 2] :=
  ⟨Tests.banana_suffixArray, Tests.banana_suffixArray⟩

theorem witness_InducedSortingBuildsTheSuffixArray : IsText Tests.banana := Tests.banana_isText

theorem witness_PrefixDoublingBuildsTheSuffixArray : IsText Tests.banana := Tests.banana_isText

theorem witness_InverseTransformUndoesForward :
    IsText Tests.banana ∧ IsSuffixArray Tests.banana [6, 5, 3, 1, 0, 4, 2] :=
  ⟨Tests.banana_isText, Tests.banana_suffixArray⟩

theorem witness_MtfRoundTrip : Tests.bananaA.length ≤ 256 ∧ ∀ b ∈ Tests.bananaL, b ∈ Tests.bananaA := by decide

theorem witness_HuffmanRoundTrip :
    15 < 8 * (packBits [true, false, true, true, false, false, true, true, true]).length ∧
    IsAlphabet [0, 1, 3] Tests.bananaR ∧
    ∀ c ∈ Tests.bananaR, HuffmanCode Tests.bananaR c (Tests.bananaCode c) ∧ (Tests.bananaCode c).length ≤ 32 :=
  ⟨by decide +kernel, Tests.banana_alphabet, Tests.banana_code⟩

/-! ### A code over 32 bits (L2.7): symbols 1 to 34 with Fibonacci frequencies -/

/-- `n` Fibonacci numbers from `a`, `b` on. -/
def Tests.fibs : Nat → Nat → Nat → List Nat
  | 0, _, _ => []
  | n + 1, a, b => a :: Tests.fibs n b (a + b)

/-- Runs of bytes, the `i`-th of them (from 0) of the byte `i + 1`. -/
def Tests.runs (lengths : List (Nat × Nat)) : List Byte :=
  lengths.flatMap fun p => List.replicate p.1 (BitVec.ofNat 8 (p.2 + 1))

def Tests.longLengths : List (Nat × Nat) := (Tests.fibs 34 1 1).zipIdx

/-- 14,930,351 bytes. -/
def Tests.longData : List Byte := Tests.runs Tests.longLengths

/-- How often a byte stands in the runs. -/
def Tests.runCount (lengths : List (Nat × Nat)) (c : Byte) : Nat :=
  (lengths.map fun p => if BitVec.ofNat 8 (p.2 + 1) = c then p.1 else 0).sum

theorem Tests.count_runs (lengths : List (Nat × Nat)) (c : Byte) :
    (Tests.runs lengths).count c = Tests.runCount lengths c := by
  induction lengths with
  | nil => rfl
  | cons p ps ih =>
    have : Tests.runs (p :: ps) = List.replicate p.1 (BitVec.ofNat 8 (p.2 + 1)) ++ Tests.runs ps := rfl
    rw [this, List.count_append, ih, List.count_replicate]
    simp [Tests.runCount]

theorem Tests.length_runs (lengths : List (Nat × Nat)) :
    (Tests.runs lengths).length = (lengths.map fun p => p.1).sum := by
  induction lengths with
  | nil => rfl
  | cons p ps ih =>
    have : Tests.runs (p :: ps) = List.replicate p.1 (BitVec.ofNat 8 (p.2 + 1)) ++ Tests.runs ps := rfl
    rw [this, List.length_append, ih, List.length_replicate]
    rfl

/-- `buildCodes` from the counts alone. -/
def Tests.codesOfCounts (n : Byte → Nat) : List Code :=
  match allBytes.filter fun c => decide (0 < n c) with
  | [] => []
  | [c] => [⟨c, 1, 0⟩]
  | syms =>
    match mergeLoop syms.length syms.length (syms.zipIdx.map fun p => ⟨n p.1, p.2, .leaf p.1⟩) with
    | some root => assignCodes root 0 0
    | none => []

theorem Tests.buildCodes_eq (d : List Byte) : buildCodes d = Tests.codesOfCounts fun c => d.count c := by
  have h : symbolsOf d = allBytes.filter fun c => decide (0 < d.count c) := by
    refine List.filter_congr fun c _ => ?_
    rw [Bool.eq_iff_iff, decide_eq_true_eq, List.count_pos_iff, List.contains_iff_mem]
  unfold buildCodes Tests.codesOfCounts leaves
  rw [h]
  dsimp only
  generalize allBytes.filter (fun c => decide (0 < d.count c)) = syms
  match syms with
  | [] => rfl
  | [_] => rfl
  | _ :: _ :: _ => rfl

theorem Tests.buildCodes_runs (lengths : List (Nat × Nat)) :
    buildCodes (Tests.runs lengths) = Tests.codesOfCounts (Tests.runCount lengths) := by
  rw [Tests.buildCodes_eq, show (fun c => (Tests.runs lengths).count c) = Tests.runCount lengths from
    funext fun c => Tests.count_runs lengths c]

/-- HUF_BUILD of the long data in 16 MiB of memory. -/
def Tests.long : State :=
  { State.reset with
    params := ⟨0xFFFFFF, ⟨2147483646, by decide⟩, 0⟩
    cmd := encode .hufBuild
    status := busyStatus
    args := Tests.args (0, 14930351) (0, 0) (0xF00000, 256) (0xF10000, 0) 0
    mem := Memory.writeBytes [] 0 Tests.longData }

theorem Tests.length_longData : Tests.longData.length = 14930351 := by
  rw [Tests.longData, Tests.length_runs]
  decide +kernel

theorem Tests.long_source : Tests.long.bytesOf .src0 = Tests.longData := by
  have ha : operandAddr Tests.long.args .src0 = 0 := by decide +kernel
  have hn : operandCount Tests.long.args .src0 = Tests.longData.length := by
    rw [Tests.length_longData]; decide +kernel
  have hm : Tests.long.mem = Memory.writeBytes [] 0 Tests.longData := by simp only [Tests.long]
  rw [State.bytesOf, ha, hn, hm, Memory.readBytes_writeBytes _ _ _ Memory.wf_nil]

/-- The codes of the long data that matter: that of symbol 1, and no code for symbol 0. -/
theorem Tests.long_codes :
    (∃ bits : List Bool, codeFor (buildCodes Tests.longData) 1 = some ⟨1, bits.length, bitsValue bits⟩ ∧ 32 < bits.length) ∧
    codeFor (buildCodes Tests.longData) 0 = none := by
  rw [Tests.longData, Tests.buildCodes_runs]
  exact ⟨⟨List.replicate 32 true ++ [false], by decide +kernel, by decide⟩, by decide +kernel⟩

theorem Tests.long_mem : (1 : Byte) ∈ Tests.longData := by
  rw [← List.count_pos_iff, Tests.longData, Tests.count_runs]
  decide +kernel

theorem witness_HufBuildRefusesALongCode :
    Tests.long.raced = false ∧ OperandsLegal .hufBuild Tests.long ∧ Tests.long.bytesOf .src0 = Tests.longData ∧
    (1 : Byte) ∈ Tests.longData ∧ (∃ bits, HuffmanCode Tests.longData 1 bits ∧ 32 < bits.length) ∧
    ∀ c' ∈ Tests.longData, ∀ bits', HuffmanCode Tests.longData c' bits' → 32 < bits'.length →
      (1 : Byte).toNat ≤ c'.toNat := by
  obtain ⟨⟨bits, hb, hl⟩, h0⟩ := Tests.long_codes
  refine ⟨rfl, by decide +kernel, Tests.long_source, Tests.long_mem,
    ⟨bits, (huffmanCode_iff _ _ _ Tests.long_mem).2 hb, hl⟩, fun c' hc bits' h _ => ?_⟩
  by_contra hlt
  obtain rfl : c' = 0 := by
    apply BitVec.eq_of_toNat_eq
    change ¬ 1 ≤ c'.toNat at hlt
    change c'.toNat = 0
    omega
  have := (huffmanCode_iff _ _ _ hc).1 h
  rw [h0] at this
  cases this

/-! ### The other clauses of the Codebook and Bitstream errors -/

/-- R241: a length of 0, and a symbol used twice. -/
theorem witness_HufDecRefusesACorruptCodebook_more :
    (let s := Tests.state .hufDec [0] (1, [0, 0, 0, 0, 0, 0]) 4 0 1
     s.raced = false ∧ OperandsLegal .hufDec s ∧ ([] ++ (⟨0, 0, 0⟩ : Entry) :: [] : List Entry).length = operandCount s.args .src1 ∧
      EntriesAt s.mem (operandAddr s.args .src1) ([] ++ (⟨0, 0, 0⟩ : Entry) :: [] : List Entry) ∧
      (⟨0, 0, 0⟩ : Entry).len.toNat = 0) ∧
    (let s := Tests.state .hufDec [0] (2, [7, 1, 0, 0, 0, 0, 7, 1, 1, 0, 0, 0]) 4 0 1
     s.raced = false ∧ OperandsLegal .hufDec s ∧ ([⟨7, 1, 0⟩] ++ (⟨7, 1, 1⟩ : Entry) :: [] : List Entry).length = operandCount s.args .src1 ∧
      EntriesAt s.mem (operandAddr s.args .src1) ([⟨7, 1, 0⟩] ++ (⟨7, 1, 1⟩ : Entry) :: [] : List Entry) ∧
      ∃ e ∈ ([⟨7, 1, 0⟩] : List Entry), e.sym = (⟨7, 1, 1⟩ : Entry).sym) ∧
    ValidCodebook [⟨7, 1, 0⟩] := by
  unfold ValidCodebook
  exact ⟨by decide +kernel, by decide +kernel, by decide +kernel⟩

/-- R243: the bits end inside a code. -/
theorem witness_HufDecRefusesABadBitstream_inside :
    (let s := Tests.state .hufDec [0x80] (1, [7, 9, 0, 1, 0, 0]) 4 0 1
     let rest := [true, false, false, false, false, false, false, false]
     s.raced = false ∧ OperandsLegal .hufDec s ∧ ([⟨7, 9, 0x100⟩] : List Entry).length = operandCount s.args .src1 ∧
      EntriesAt s.mem (operandAddr s.args .src1) [⟨7, 9, 0x100⟩] ∧
      streamBits (s.bytesOf .src0) = [] ++ rest ∧ ([] : List Byte).length < operandCount s.args .param ∧
      ∃ e ∈ ([⟨7, 9, 0x100⟩] : List Entry), rest <+: e.bits ∧ rest ≠ e.bits) ∧
    ValidCodebook [⟨7, 9, 0x100⟩] := by
  unfold ValidCodebook
  exact ⟨by decide +kernel, by decide +kernel⟩

end Slice0Tests
end

section
/-! SUPPORT. Little-endian reads and stores of buffer memory (00_scope.md R12, 20_memory.md R66). -/

namespace Sys2Proof.Machine

theorem leNat_append (l m : List Byte) : leNat (l ++ m) = leNat l + 256 ^ l.length * leNat m := by
  induction l with
  | nil => simp [leNat]
  | cons b l ih =>
    simp only [List.cons_append, leNat, List.length_cons, ih, pow_succ]
    ring

/-- A read of one byte more adds that byte at the top. -/
theorem Memory.readLE_succ (m : Memory) (a n : Nat) :
    m.readLE a (n + 1) = m.readLE a n + (m.read (a + n)).toNat * 256 ^ n := by
  have hbytes : m.readBytes a (n + 1) = m.readBytes a n ++ [m.read (a + n)] := by
    simp [Memory.readBytes, List.range_succ]
  rw [Memory.readLE, hbytes, leNat_append, Memory.length_readBytes]
  simp [Memory.readLE, leNat, Nat.mul_comm]

theorem Memory.readLE_eq_sum (m : Memory) (a n : Nat) :
    m.readLE a n = ((List.range n).map fun k => (m.read (a + k)).toNat * 256 ^ k).sum := by
  induction n with
  | zero => rfl
  | succ n ih => rw [Memory.readLE_succ, ih, List.range_succ, List.map_append, List.sum_append]; simp

theorem Memory.readLE_one (m : Memory) (a : Nat) : m.readLE a 1 = (m.read a).toNat := by
  simp [Memory.readLE_eq_sum]

theorem leBytes_getD (w : Word) (j : Nat) (hj : j < 4) : (leBytes w).getD j 0 = w.extractLsb' (8 * j) 8 := by
  match j, hj with
  | 0, _ => rfl
  | 1, _ => rfl
  | 2, _ => rfl
  | 3, _ => rfl

/-- Byte j of a stored word is its bits 8j + 7 to 8j (R66). -/
theorem Memory.read_writeBytes_leBytes (m : Memory) (a : Nat) (w : Word) (h : m.wf) (j : Nat) (hj : j < 4) :
    (m.writeBytes a (leBytes w)).read (a + j) = w.extractLsb' (8 * j) 8 := by
  have hlen : (leBytes w).length = 4 := rfl
  rw [Memory.read_writeBytes _ _ _ _ h, if_pos (by omega), Nat.add_sub_cancel_left, leBytes_getD w j hj]

end Sys2Proof.Machine

open Sys2Proof Sys2Proof.Machine

/-- Settles O50: the sum by induction on the number of bytes read, the store by the rule for a byte read after a byte
sequence is written. -/
theorem wordsAreLittleEndian : Obligations.WordsAreLittleEndian := by
  refine ⟨Memory.readLE_eq_sum, fun m a w hm => ?_⟩
  have hbyte := Memory.read_writeBytes_leBytes m a w hm
  refine ⟨rfl, hbyte, readLE_of_bytes _ a w hbyte, ?_, fun b hb => Memory.read_writeBytes_outside m a b _ hb⟩
  have hlow : (m.writeBytes a (leBytes w)).read a = w.extractLsb' 0 8 := hbyte 0 (by omega)
  rw [Memory.readLE_one, hlow]
  exact BitVec.extractLsb'_toNat 0 8 w

end

section
/-! SUPPORT. HUF_DEC: bit strings of code words and streams, Codebook validation (46_huffman.md R241), the bit-trie (R242) and
the walk (R243), one layer for each. -/

namespace Sys2Proof.Machine

/-! ## Bit strings -/

@[simp] theorem length_bitsOf (v l : Nat) : (bitsOf v l).length = l := by simp [bitsOf]

@[simp] theorem Entry.length_bits (e : Entry) : e.bits.length = e.len.toNat := by simp [Entry.bits]

/-- The first `n` bits of a code are the code shifted right. -/
theorem take_bitsOf (v l n : Nat) (h : n ≤ l) : (bitsOf v l).take n = bitsOf (v >>> (l - n)) n := by
  refine List.ext_getElem (by simpa using h) fun i h1 h2 => ?_
  have hi : i < n := by simpa using h2
  simp only [bitsOf, List.getElem_take, List.getElem_map, List.getElem_range, Nat.testBit_shiftRight]
  congr 1
  omega

/-- Among the values below `2 ^ l`, the bit string determines the value. -/
theorem bitsOf_inj {v w l : Nat} (hv : v < 2 ^ l) (hw : w < 2 ^ l) (h : bitsOf v l = bitsOf w l) : v = w := by
  refine Nat.eq_of_testBit_eq fun i => ?_
  by_cases hi : i < l
  · have hbit := List.map_inj_left.1 h (l - 1 - i) (List.mem_range.2 (by omega))
    rwa [show l - 1 - (l - 1 - i) = i by omega] at hbit
  · have hpow : 2 ^ l ≤ 2 ^ i := Nat.pow_le_pow_right (by omega) (by omega)
    rw [Nat.testBit_lt_two_pow (by omega), Nat.testBit_lt_two_pow (by omega)]

/-- The machine reads a Bitstream in the order of R67. -/
theorem unpackBits_eq_streamBits (bs : List Byte) : unpackBits bs = streamBits bs := by
  induction bs with
  | nil => rfl
  | cons b bs ih =>
    have hlater (j : Nat) : streamBit (b :: bs) (8 + j) = streamBit bs j := by
      simp [streamBit, Nat.add_div_left]
    have hfirst : (List.range 8).map (streamBit (b :: bs)) = bitsOf b.toNat 8 := rfl
    rw [streamBits, List.length_cons, Nat.mul_add, Nat.add_comm, List.range_add, List.map_append, List.map_map, hfirst]
    simp only [Function.comp_def, hlater]
    exact congrArg (bitsOf b.toNat 8 ++ ·) ih

/-! ## Validation (R241) -/

/-- The code of an entry fits its length. -/
def Entry.Fits (e : Entry) : Prop := e.code.toNat < 2 ^ e.len.toNat

/-- One code begins another exactly if the longer one, shifted right, is the shorter one. -/
theorem bits_prefix_iff {a b : Entry} (ha : a.Fits) (hb : b.Fits) :
    a.bits <+: b.bits ↔ a.len.toNat ≤ b.len.toNat ∧ b.code.toNat >>> (b.len.toNat - a.len.toNat) = a.code.toNat := by
  have hshift (hle : a.len.toNat ≤ b.len.toNat) : b.code.toNat >>> (b.len.toNat - a.len.toNat) < 2 ^ a.len.toNat := by
    rw [Nat.shiftRight_eq_div_pow]
    refine Nat.div_lt_of_lt_mul ?_
    rw [← pow_add, Nat.sub_add_cancel hle]
    exact hb
  rw [List.prefix_iff_eq_take, Entry.length_bits, a.bits_eq, b.bits_eq]
  constructor
  · intro h
    have hle : a.len.toNat ≤ b.len.toNat := by simpa using congrArg List.length h
    rw [take_bitsOf _ _ _ hle] at h
    exact ⟨hle, (bitsOf_inj ha (hshift hle) h).symm⟩
  · rintro ⟨hle, h⟩
    rw [take_bitsOf _ _ _ hle, h]

/-- `PrefixRelated` is the relation of the bit strings. -/
theorem prefixRelated_iff {a b : Entry} (ha : a.Fits) (hb : b.Fits) :
    prefixRelated a b = true ↔ a.bits <+: b.bits ∨ b.bits <+: a.bits := by
  rw [bits_prefix_iff ha hb, bits_prefix_iff hb ha]
  simp [prefixRelated]

/-- The four tests of R241 against earlier entries whose codes fit. -/
theorem entryOk_iff {earlier : List Entry} (e : Entry) (hfit : ∀ f ∈ earlier, f.Fits) :
    entryOk earlier e = true ↔ (e.len.toNat ≠ 0 ∧ e.len.toNat ≤ 32 ∧ e.Fits) ∧
      ∀ f ∈ earlier, f.sym ≠ e.sym ∧ ¬ f.bits <+: e.bits ∧ ¬ e.bits <+: f.bits := by
  have hrelated (he : e.Fits) (f : Entry) (hf : f ∈ earlier) :
      prefixRelated e f = false ↔ ¬ f.bits <+: e.bits ∧ ¬ e.bits <+: f.bits := by
    rw [Bool.eq_false_iff, Ne, prefixRelated_iff he (hfit f hf), not_or, and_comm]
  simp only [entryOk, Bool.and_eq_true, decide_eq_true_eq, List.all_eq_true, Bool.not_eq_true', and_assoc]
  refine and_congr_right fun _ => and_congr_right fun _ => and_congr_right fun he => ?_
  exact forall₂_congr fun f hf => and_congr_right fun _ => hrelated he f hf

theorem ValidCodebook.fits {cb : List Entry} (h : ValidCodebook cb) : ∀ e ∈ cb, e.Fits := fun e he => (h.1 e he).2.2

/-- A Codebook with one more entry is valid exactly if it was and the entry passes the tests against it. -/
theorem validCodebook_concat (cb : List Entry) (e : Entry) :
    ValidCodebook (cb ++ [e]) ↔ ValidCodebook cb ∧ entryOk cb.reverse e = true := by
  have hok (h : ValidCodebook cb) := entryOk_iff (earlier := cb.reverse) e fun f hf => h.fits f (List.mem_reverse.1 hf)
  have hsplit : ValidCodebook (cb ++ [e]) ↔ ValidCodebook cb ∧ (e.len.toNat ≠ 0 ∧ e.len.toNat ≤ 32 ∧ e.Fits) ∧
      ∀ f ∈ cb, f.sym ≠ e.sym ∧ ¬ f.bits <+: e.bits ∧ ¬ e.bits <+: f.bits := by
    simp only [ValidCodebook, Entry.Fits, List.pairwise_append, List.forall_mem_append, List.forall_mem_singleton,
      List.pairwise_singleton, true_and]
    tauto
  rw [hsplit]
  exact and_congr_right fun h => by simp only [hok h, List.mem_reverse]

/-- Validation gets past a valid beginning. -/
theorem firstCorrupt_append {good : List Entry} (h : ValidCodebook good) (rest : List Entry) :
    firstCorrupt 0 [] (good ++ rest) = firstCorrupt good.length good.reverse rest := by
  induction good using List.reverseRecOn generalizing rest with
  | nil => rfl
  | append_singleton cb e ih =>
    obtain ⟨hcb, he⟩ := (validCodebook_concat cb e).1 h
    rw [List.append_assoc, ih hcb, List.singleton_append, firstCorrupt, if_pos he]
    simp

/-- A valid Codebook passes validation. -/
theorem firstCorrupt_of_valid {cb : List Entry} (h : ValidCodebook cb) : firstCorrupt 0 [] cb = none := by
  simpa [firstCorrupt] using firstCorrupt_append h []

/-! ## The trie (R242) -/

/-- The node a bit string leads to. -/
def Trie.follow : Trie → List Bool → Trie
  | t, [] => t
  | t, b :: bits => (t.child b).follow bits

@[simp] theorem Trie.follow_nil (t : Trie) : t.follow [] = t := rfl

@[simp] theorem Trie.follow_cons (t : Trie) (b : Bool) (bits : List Bool) :
    t.follow (b :: bits) = (t.child b).follow bits := rfl

@[simp] theorem Trie.child_missing (b : Bool) : Trie.missing.child b = .missing := rfl

@[simp] theorem Trie.child_leaf (s : Byte) (b : Bool) : (Trie.leaf s).child b = .missing := rfl

@[simp] theorem Trie.follow_missing (bits : List Bool) : Trie.missing.follow bits = .missing := by
  induction bits with
  | nil => rfl
  | cons b bits ih => exact ih

theorem Trie.follow_append (t : Trie) (bits more : List Bool) : t.follow (bits ++ more) = (t.follow bits).follow more := by
  induction bits generalizing t with
  | nil => rfl
  | cons b bits ih => exact ih _

/-- A node with something below it is an inner node. -/
theorem Trie.exists_inner {t : Trie} {b : Bool} {bits : List Bool} (h : t.follow (b :: bits) ≠ .missing) :
    ∃ z o, t = .inner z o := by
  cases t with
  | inner z o => exact ⟨z, o, rfl⟩
  | missing | leaf => simp at h

/-- Inserting below a node that is no leaf makes an inner node: the child on the path gets the insertion, the other stays. -/
theorem Trie.child_insert (t : Trie) (s : Byte) (b c : Bool) (bits : List Bool) (h : ∀ f, t ≠ .leaf f) :
    (t.insert s (b :: bits)).child c = if c = b then (t.child b).insert s bits else t.child c := by
  cases t with
  | leaf f => exact absurd rfl (h f)
  | missing => cases b <;> cases c <;> rfl
  | inner z o => cases b <;> cases c <;> rfl

/-- The inserted code leads to its symbol, if no leaf stands on its path. -/
theorem Trie.follow_insert_self (t : Trie) (s : Byte) (bits : List Bool)
    (h : ∀ p, p <+: bits → ∀ f, t.follow p ≠ .leaf f) : (t.insert s bits).follow bits = .leaf s := by
  induction bits generalizing t with
  | nil => cases t <;> rfl
  | cons b bits ih =>
    rw [Trie.follow_cons, Trie.child_insert t s b b bits (h [] List.nil_prefix), if_pos rfl]
    exact ih _ fun p hp => h (b :: p) (List.cons_prefix_cons.2 ⟨rfl, hp⟩)

/-- A leaf stays a leaf of its symbol, if the inserted code does not begin its path. -/
theorem Trie.follow_insert_leaf {t : Trie} {p : List Bool} {f : Byte} (s : Byte) {bits : List Bool}
    (h : t.follow p = .leaf f) (hp : ¬ bits <+: p) : (t.insert s bits).follow p = .leaf f := by
  induction bits generalizing t p with
  | nil => exact absurd List.nil_prefix hp
  | cons b bits ih =>
    cases p with
    | nil => rw [show t = .leaf f from h]; cases b <;> rfl
    | cons c p =>
      obtain ⟨z, o, rfl⟩ := Trie.exists_inner (t := t) (b := c) (bits := p) (by simp [h])
      rw [Trie.follow_cons, Trie.child_insert _ _ _ _ _ (by simp)]
      split
      · rename_i hcb
        subst hcb
        exact ih h fun hpre => hp (List.cons_prefix_cons.2 ⟨rfl, hpre⟩)
      · exact h

/-- A node after an insertion was there before or stands on the path of the inserted code. -/
theorem Trie.follow_insert_ne_missing {t : Trie} {s : Byte} {bits p : List Bool}
    (h : (t.insert s bits).follow p ≠ .missing) : t.follow p ≠ .missing ∨ p <+: bits := by
  induction p generalizing t bits with
  | nil => exact .inr List.nil_prefix
  | cons c p ih =>
    match t, bits with
    | t, [] => cases t <;> simp [Trie.insert] at h
    | .leaf f, b :: bits => cases b <;> simp [Trie.insert] at h
    | .missing, b :: bits | .inner z o, b :: bits =>
      rw [Trie.follow_cons, Trie.child_insert _ _ _ _ _ (by simp)] at h
      split at h
      · rename_i hcb
        subst hcb
        exact (ih h).imp_right fun hpre => List.cons_prefix_cons.2 ⟨rfl, hpre⟩
      · exact .inl h

theorem Trie.eq_nil_of_follow_leaf {f s : Byte} {bits : List Bool} (h : (Trie.leaf f).follow bits = .leaf s) :
    bits = [] := by
  cases bits with
  | nil => rfl
  | cons b bits => simp at h

theorem buildTrie_concat (cb : List Entry) (e : Entry) : buildTrie (cb ++ [e]) = (buildTrie cb).insert e.sym e.bits := by
  simp [buildTrie, Entry.bits_eq]

/-- Every node of the trie but the root stands on the path of a code. -/
theorem exists_code_of_node (cb : List Entry) {p : List Bool} (h : (buildTrie cb).follow p ≠ .missing) :
    p = [] ∨ ∃ e ∈ cb, p <+: e.bits := by
  induction cb using List.reverseRecOn with
  | nil =>
    match p with
    | [] => exact .inl rfl
    | b :: p => cases b <;> simp [buildTrie, Trie.child] at h
  | append_singleton cb e ih =>
    rw [buildTrie_concat] at h
    rcases Trie.follow_insert_ne_missing h with h | h
    · exact (ih h).imp_right fun ⟨f, hf, hp⟩ => ⟨f, List.mem_append_left _ hf, hp⟩
    · exact .inr ⟨e, by simp, h⟩

/-- Where every code leads to its leaf, the leaves stand at the codes only. -/
theorem exists_code_of_leaf {cb : List Entry} (hne : ∀ e ∈ cb, e.bits ≠ [])
    (hcodes : ∀ e ∈ cb, (buildTrie cb).follow e.bits = .leaf e.sym) {p : List Bool} {s : Byte}
    (h : (buildTrie cb).follow p = .leaf s) : ∃ e ∈ cb, e.bits = p := by
  have hends (e : Entry) (he : e ∈ cb) (hp : p <+: e.bits) : e.bits = p := by
    obtain ⟨more, hmore⟩ := hp
    have hleaf := hcodes e he
    rw [← hmore, Trie.follow_append, h] at hleaf
    rw [← hmore, Trie.eq_nil_of_follow_leaf hleaf, List.append_nil]
  rcases exists_code_of_node cb (p := p) (by simp [h]) with rfl | ⟨e, he, hp⟩
  · match cb with
    | [] => simp [buildTrie] at h
    | e :: cb => exact absurd (hends e (by simp) List.nil_prefix) (hne e (by simp))
  · exact ⟨e, he, hends e he hp⟩

theorem ValidCodebook.bits_ne_nil {cb : List Entry} (h : ValidCodebook cb) : ∀ e ∈ cb, e.bits ≠ [] := fun e he hnil =>
  (h.1 e he).1 (by rw [← e.length_bits, hnil, List.length_nil])

/-- In the trie of a valid Codebook every code leads to the leaf of its symbol. -/
theorem buildTrie_follow_code {cb : List Entry} (h : ValidCodebook cb) :
    ∀ e ∈ cb, (buildTrie cb).follow e.bits = .leaf e.sym := by
  induction cb using List.reverseRecOn with
  | nil => simp
  | append_singleton cb e ih =>
    obtain ⟨hcb, hok⟩ := (validCodebook_concat cb e).1 h
    obtain ⟨-, hnew⟩ := (entryOk_iff e fun f hf => hcb.fits f (List.mem_reverse.1 hf)).1 hok
    simp only [List.mem_reverse] at hnew
    rw [buildTrie_concat, List.forall_mem_append, List.forall_mem_singleton]
    constructor
    · exact fun f hf => Trie.follow_insert_leaf _ (ih hcb f hf) (hnew f hf).2.2
    · refine Trie.follow_insert_self _ _ _ fun p hp s hs => ?_
      obtain ⟨f, hf, rfl⟩ := exists_code_of_leaf hcb.bits_ne_nil (ih hcb) hs
      exact (hnew f hf).2.1 hp

/-! ## The walk (R243) -/

theorem walkDecode_done (root : Trie) (bits : List Bool) (node : Trie) (k pos : Nat) :
    walkDecode root bits node k 0 pos = .ok ([], pos) := by
  cases bits <;> rfl

theorem walkDecode_cons_missing (root : Trie) {node : Trie} {b : Bool} (h : node.child b = .missing) (bits : List Bool)
    (k left pos : Nat) : walkDecode root (b :: bits) node k (left + 1) pos = .error ⟨.invalidCode, infoOf k⟩ := by
  simp only [walkDecode, h]

theorem walkDecode_cons_leaf (root : Trie) {node : Trie} {b : Bool} {s : Byte} (h : node.child b = .leaf s)
    (bits : List Bool) (k left pos : Nat) :
    walkDecode root (b :: bits) node k (left + 1) pos =
      (walkDecode root bits root (k + 1) left (pos + 1)).map fun r => (s :: r.1, r.2) := by
  simp only [walkDecode, h]
  cases walkDecode root bits root (k + 1) left (pos + 1) <;> rfl

theorem walkDecode_cons_inner (root : Trie) {node z o : Trie} {b : Bool} (h : node.child b = .inner z o)
    (bits : List Bool) (k left pos : Nat) :
    walkDecode root (b :: bits) node k (left + 1) pos = walkDecode root bits (node.child b) k (left + 1) (pos + 1) := by
  simp only [walkDecode, h]

/-- Bits that lead to a leaf give its symbol, and the walk goes on from the root. -/
theorem walkDecode_code (root : Trie) {node : Trie} {b : Bool} {bits : List Bool} {s : Byte}
    (h : node.follow (b :: bits) = .leaf s) (rest : List Bool) (k left pos : Nat) :
    walkDecode root (b :: bits ++ rest) node k (left + 1) pos =
      (walkDecode root rest root (k + 1) left (pos + (b :: bits).length)).map fun r => (s :: r.1, r.2) := by
  induction bits generalizing node b pos with
  | nil => exact walkDecode_cons_leaf root h rest k left pos
  | cons c bits ih =>
    obtain ⟨z, o, hinner⟩ := Trie.exists_inner (t := node.child b) (b := c) (bits := bits) (h.trans_ne (by simp))
    rw [List.cons_append, walkDecode_cons_inner root hinner, ih h, List.length_cons (a := b), Nat.add_right_comm,
      Nat.add_assoc]

/-- Bits that end at a node with something below it run out. -/
theorem walkDecode_truncated (root : Trie) {node : Trie} {bits more : List Bool} (hmore : more ≠ [])
    (h : node.follow (bits ++ more) ≠ .missing) (k left pos : Nat) :
    walkDecode root bits node k (left + 1) pos = .error ⟨.truncatedBitstream, infoOf k⟩ := by
  induction bits generalizing node pos with
  | nil => rfl
  | cons b bits ih =>
    obtain ⟨c, rest, hcons⟩ := List.exists_cons_of_ne_nil (l := bits ++ more) (by simp [hmore])
    obtain ⟨z, o, hinner⟩ := Trie.exists_inner (t := node.child b) (b := c) (bits := rest) (by rwa [← hcons])
    rw [walkDecode_cons_inner root hinner]
    exact ih h _

/-- Bits that leave the trie and meet no leaf are no code. -/
theorem walkDecode_invalid (root : Trie) {node : Trie} {b : Bool} {bits : List Bool}
    (hleaf : ∀ p, p <+: b :: bits → ∀ s, node.follow p ≠ .leaf s) (h : node.follow (b :: bits) = .missing)
    (k left pos : Nat) : walkDecode root (b :: bits) node k (left + 1) pos = .error ⟨.invalidCode, infoOf k⟩ := by
  induction bits generalizing node b pos with
  | nil => exact walkDecode_cons_missing root h _ _ _ _
  | cons c bits ih =>
    cases hchild : node.child b with
    | missing => exact walkDecode_cons_missing root hchild _ _ _ _
    | leaf s => exact absurd hchild (hleaf [b] (by simp) s)
    | inner z o =>
      rw [walkDecode_cons_inner root hchild]
      exact ih (fun p hp => hleaf (b :: p) (List.cons_prefix_cons.2 ⟨rfl, hp⟩)) h _

/-- The walk decodes a beginning that is the codes of `out`, and goes on behind it. -/
theorem walkDecode_append {cb : List Entry} (hcb : ValidCodebook cb) {used : List Bool} {out : List Byte}
    (h : DecodesTo cb used out) (rest : List Bool) (k left pos : Nat) :
    walkDecode (buildTrie cb) (used ++ rest) (buildTrie cb) k (out.length + left) pos =
      (walkDecode (buildTrie cb) rest (buildTrie cb) (k + out.length) left (pos + used.length)).map
        fun r => (out ++ r.1, r.2) := by
  induction h generalizing k pos with
  | nil =>
    simp only [List.nil_append, List.length_nil, Nat.zero_add, Nat.add_zero]
    cases walkDecode (buildTrie cb) rest (buildTrie cb) k left pos <;> rfl
  | cons e used out he _ ih =>
    have hleaf := buildTrie_follow_code hcb e he
    obtain ⟨b, bits, hbits⟩ := List.exists_cons_of_ne_nil (hcb.bits_ne_nil e he)
    rw [hbits] at hleaf ⊢
    rw [List.append_assoc, List.length_cons, Nat.add_right_comm, walkDecode_code _ hleaf, ih, List.length_append,
      ← Nat.add_assoc pos, Nat.add_assoc k, Nat.add_comm 1]
    cases walkDecode (buildTrie cb) rest (buildTrie cb) _ left _ <;> rfl

/-! ## The body of HUF_DEC (R240) -/

/-- The body on a valid Codebook that stands in memory is the walk over the bits of the stream. -/
theorem bodyHufDec_of_valid {s : State} {cb : List Entry} (hlen : cb.length = operandCount s.args .src1)
    (hat : EntriesAt s.mem (operandAddr s.args .src1) cb) (hcb : ValidCodebook cb) :
    bodyHufDec s = (walkDecode (buildTrie cb) (streamBits (s.bytesOf .src0)) (buildTrie cb) 0
      (operandCount s.args .param) 0).map
        fun r => ⟨.bytes r.1, .bytes [], ⟨s.args.param, infoOf (ceilBytes r.2), 0⟩, false⟩ := by
  have hparam : infoOf (operandCount s.args .param) = s.args.param := infoOf_toNat _
  simp only [bodyHufDec, hufDecode, entriesOf_eq s .src1 cb hlen hat, firstCorrupt_of_valid hcb, hparam,
    unpackBits_eq_streamBits]
  cases walkDecode (buildTrie cb) (streamBits (s.bytesOf .src0)) (buildTrie cb) 0 (operandCount s.args .param) 0 <;> rfl

end Sys2Proof.Machine

open Sys2Proof Sys2Proof.Machine

/-- Settles O27: the walk over the codes of `out` ends with no symbol left. -/
theorem hufDecWritesTheSymbols : Obligations.HufDecWritesTheSymbols := by
  intro s cb used rest out hraced hwf hlegal hlen hat hcb hdec hstream hout hcap
  have hwalk := walkDecode_append hcb hdec rest 0 0 0
  have hbody := bodyHufDec_of_valid hlen hat hcb
  rw [hstream, ← hout, ← Nat.add_zero out.length, hwalk, walkDecode_done] at hbody
  simp only [Except.map, List.append_nil, Nat.zero_add] at hbody
  exact exec_stores_dst0 .hufDec s _ hraced hwf hlegal hbody rfl rfl hcap

/-- Settles O38: validation gets past the valid entries and stops at the first bad one. -/
theorem hufDecRefusesACorruptCodebook : Obligations.HufDecRefusesACorruptCodebook := by
  intro s good bad rest hraced hlegal hlen hat hgood hbad
  have hfails : entryOk good.reverse bad = false := by
    rw [Bool.eq_false_iff, Ne, entryOk_iff bad fun f hf => hgood.fits f (List.mem_reverse.1 hf)]
    rintro ⟨⟨hzero, hlong, hfits⟩, hearlier⟩
    rcases hbad with h | h | h | ⟨e, he, h⟩
    · exact hzero h
    · omega
    · exact absurd hfits (Nat.not_lt.2 h)
    · obtain ⟨hsym, hpre, hpre'⟩ := hearlier e (List.mem_reverse.2 he)
      exact h.elim hsym fun h => h.elim hpre hpre'
  have hcorrupt : firstCorrupt 0 [] (good ++ bad :: rest) = some good.length := by
    simp [firstCorrupt_append hgood, firstCorrupt, hfails]
  have hbody : bodyOf .hufDec s = .error ⟨.codebookCorrupt, infoOf good.length⟩ := by
    simp only [bodyOf, bodyHufDec, hufDecode, entriesOf_eq s .src1 _ hlen hat, hcorrupt]
  exact exec_faultsLate .hufDec s _ hraced hlegal hbody

/-- Settles O39: behind the codes of `out` the walk meets no code; the trie's nodes are the beginnings of the codes and its
leaves the codes. -/
theorem hufDecRefusesABadBitstream : Obligations.HufDecRefusesABadBitstream := by
  intro s cb used rest out hraced hlegal hlen hat hcb hdec hstream hout
  have hcodes := buildTrie_follow_code hcb
  obtain ⟨left, hleft⟩ := Nat.exists_eq_add_of_lt hout
  have hfault {kind : ErrorKind} (hwalk : ∀ k left pos, walkDecode (buildTrie cb) rest (buildTrie cb) k (left + 1) pos =
      .error ⟨kind, infoOf k⟩) : FaultsLate .hufDec s kind (infoOf out.length) := by
    have hbody := bodyHufDec_of_valid hlen hat hcb
    rw [hstream, hleft, Nat.add_assoc, walkDecode_append hcb hdec, hwalk, Nat.zero_add] at hbody
    exact exec_faultsLate .hufDec s _ hraced hlegal hbody
  constructor
  · rintro (rfl | ⟨e, he, ⟨more, hmore⟩, hne⟩)
    · exact hfault fun _ _ _ => rfl
    · refine hfault (walkDecode_truncated _ (more := more) ?_ ?_)
      · rintro rfl
        exact hne (by simpa using hmore)
      · rw [hmore, hcodes e he]
        simp
  · intro hrest hnone
    have hleaf (p : List Bool) (hp : p <+: rest) (f : Byte) : (buildTrie cb).follow p ≠ .leaf f := fun h => by
      obtain ⟨e, he, rfl⟩ := exists_code_of_leaf hcb.bits_ne_nil hcodes h
      exact (hnone e he).2 hp
    have hmissing : (buildTrie cb).follow rest = .missing := by
      by_contra h
      rcases exists_code_of_node cb h with hnil | ⟨e, he, hp⟩
      · exact hrest hnil
      · exact (hnone e he).1 hp
    obtain ⟨b, bits, rfl⟩ := List.exists_cons_of_ne_nil hrest
    exact hfault (walkDecode_invalid _ hleaf hmissing)

end

section
/-! SUPPORT. What a completion can leave, said once for every command: the errors a body raises and its TRAIL (60_exceptions.md
R261, 10_state.md R24), the STATUS a completion ends with, and memory inside MEM_SIZE (R34). -/

namespace Sys2Proof.Machine

/-! ## What a body can answer -/

/-- The row of R261 gives the command an error of this kind. -/
abbrev InRow (i : Instr) (k : ErrorKind) : Prop := ∃ e ∈ faultTable i, e.1 = k

/-- What the body of a command may answer: an error of the command's row, or outputs with TRAIL set only for RLE_DEC. -/
def BodyAnswer (i : Instr) : Except Raise BodyResult → Prop
  | .error r => InRow i r.kind
  | .ok b => b.trail = true → i = .rleDec

theorem BodyAnswer.raise {i : Instr} {k : ErrorKind} (v : Word) (h : InRow i k) : BodyAnswer i (.error ⟨k, v⟩) := h

theorem BodyAnswer.noTrail {i : Instr} (d0 d1 : Payload) (r : Results) : BodyAnswer i (.ok ⟨d0, d1, r, false⟩) :=
  nofun

theorem mtfEncode_error_kind {n : Nat} {a l : List Byte} {e : Raise} (h : mtfEncode n a l = .error e) :
    e.kind = .symbolNotInAlphabet := by
  induction l generalizing n a with
  | nil => cases h
  | cons b l ih =>
    unfold mtfEncode at h
    split at h
    · cases h; rfl
    · split at h
      · next hrest => cases h; exact ih hrest
      · cases h

theorem mtfDecode_error_kind {n : Nat} {a l : List Byte} {e : Raise} (h : mtfDecode n a l = .error e) :
    e.kind = .indexOutOfRange := by
  induction l generalizing n a with
  | nil => cases h
  | cons b l ih =>
    unfold mtfDecode at h
    split at h
    · cases h; rfl
    · split at h
      · next hrest => cases h; exact ih hrest
      · cases h

theorem walkDecode_error_kind {root : Trie} {bits : List Bool} {node : Trie} {k left pos : Nat} {e : Raise}
    (h : walkDecode root bits node k left pos = .error e) : e.kind = .truncatedBitstream ∨ e.kind = .invalidCode := by
  induction bits generalizing node k left pos with
  | nil =>
    cases left with
    | zero => cases h
    | succ left => cases h; exact .inl rfl
  | cons b bits ih =>
    cases left with
    | zero => cases h
    | succ left =>
      unfold walkDecode at h
      split at h
      · cases h; exact .inr rfl
      · split at h
        · next hrest => cases h; exact ih hrest
        · cases h
      · exact ih h

/-- Both builders answer alike: they refuse a Text that is not well formed. -/
theorem buildSuffixArray_answer {i : Instr} (h : InRow i .sentinelViolation) (builder : List Nat → List Nat)
    (t : List Byte) : BodyAnswer i (buildSuffixArray builder t) := by
  unfold buildSuffixArray
  split
  · exact .noTrail _ _ _
  · exact .raise _ h

/-- Both MTF coders refuse a long Alphabet, or raise an error of their loop. -/
theorem recencyCoder_answer {i : Instr} (h : InRow i .invalidArgument)
    (loop : Nat → List Byte → List Byte → Except Raise (List Byte))
    (hloop : ∀ n a l e, loop n a l = .error e → InRow i e.kind) (l a : List Byte) :
    BodyAnswer i (recencyCoder loop l a) := by
  unfold recencyCoder
  split
  · exact .raise _ h
  · split
    · next e he => exact hloop _ _ _ e he
    · exact .noTrail _ _ _

/-- What each body can answer (R121, R261). -/
theorem bodyOf_answer (i : Instr) (s : State) : BodyAnswer i (bodyOf i s) := by
  cases i with
  | nop => exact .noTrail _ _ _
  | saPrep =>
    simp only [bodyOf, bodySaPrep, prepText]
    split
    · exact .raise _ (by decide)
    · exact .noTrail _ _ _
  | saSais => exact buildSuffixArray_answer (by decide) _ _
  | saPd => exact buildSuffixArray_answer (by decide) _ _
  | bwtFwd =>
    simp only [bodyOf, bodyBwtFwd, forwardTransform]
    split
    · exact .raise _ (by decide)
    · split
      · exact .raise _ (by decide)
      · exact .noTrail _ _ _
  | bwtInv =>
    simp only [bodyOf, bodyBwtInv, inverseTransform]
    split
    · exact .raise _ (by decide)
    · exact .noTrail _ _ _
    · exact .raise _ (by decide)
  | alphaScan => exact .noTrail _ _ _
  | mtfEnc =>
    refine recencyCoder_answer (by decide) _ (fun n a l e he => ?_) _ _
    rw [mtfEncode_error_kind he]
    decide
  | mtfDec =>
    refine recencyCoder_answer (by decide) _ (fun n a l e he => ?_) _ _
    rw [mtfDecode_error_kind he]
    decide
  | rleEnc => exact .noTrail _ _ _
  | rleDec => exact fun _ => rfl
  | hufBuild =>
    simp only [bodyOf, bodyHufBuild, hufBuild]
    split
    · exact .noTrail _ _ _
    · split
      · exact .raise _ (by decide)
      · exact .noTrail _ _ _
  | hufDec =>
    simp only [bodyOf, bodyHufDec, hufDecode]
    split
    · exact .raise _ (by decide)
    · split
      · next e he =>
        change InRow .hufDec e.kind
        rcases walkDecode_error_kind he with h | h <;> rw [h] <;> decide
      · exact .noTrail _ _ _

/-! ## What the shared checks raise -/

theorem preCheck_kind {i : Instr} {s : State} {r : Raise} (h : preCheck i s = some r) :
    r.kind = .tooLarge ∨ r.kind = .addressError ∨ r.kind = .bufferOverlap := by
  unfold preCheck at h
  split at h
  · next hsize => cases h; exact .inl (sizeCheck_kind i s _ hsize)
  · split at h
    · next haddr => cases h; exact .inr (.inl (addressCheck_kind i s _ haddr))
    · exact .inr (.inr (overlapCheck_kind i s _ h))

/-- NOP uses no operand, so the shared checks raise nothing. -/
theorem preCheck_nop (s : State) : preCheck .nop s = none := rfl

theorem capacityCheck_nop (b : BodyResult) (s : State) : capacityCheck .nop b s = none := rfl

/-- Every command but NOP has the four errors of the shared checks in its row. -/
theorem inRow_of_ne_nop {i : Instr} (hi : i ≠ .nop) {k : ErrorKind}
    (hk : k ∈ [ErrorKind.tooLarge, .addressError, .bufferOverlap, .outputOverflow]) : InRow i k := by
  revert k
  cases i with
  | nop => exact absurd rfl hi
  | _ => decide

theorem preCheck_inRow {i : Instr} {s : State} {r : Raise} (h : preCheck i s = some r) : InRow i r.kind := by
  have hi : i ≠ .nop := by
    rintro rfl
    rw [preCheck_nop] at h
    cases h
  refine inRow_of_ne_nop hi ?_
  rcases preCheck_kind h with hk | hk | hk <;> simp [hk]

theorem capacityCheck_inRow {i : Instr} {b : BodyResult} {s : State} {r : Raise} (h : capacityCheck i b s = some r) :
    InRow i r.kind := by
  have hi : i ≠ .nop := by
    rintro rfl
    rw [capacityCheck_nop] at h
    cases h
  refine inRow_of_ne_nop hi ?_
  simp [capacityCheck_kind i b s r h]

/-! ## The STATUS a completion ends with -/

/-- A command ends with DONE and ERRINFO 0, TRAIL only for RLE_DEC, or with an error of its row; raced or not. -/
theorem exec_next_cases {i : Instr} {s t : State} (h : exec i s = .next t) :
    (∃ trail res m, (trail = true → i = .rleDec) ∧ t = finish (doneStatus trail) 0 res m s) ∨
    (∃ k info res m, InRow i k ∧ t = finish (errStatus k) info res m s) := by
  cases hr : s.raced with
  | true =>
    rw [exec_raced i s hr] at h
    cases h
    unfold completeRaced
    cases hc : raceChoice i s with
    | none => exact .inl ⟨_, _, _, fun ht => of_decide_eq_true (Bool.and_eq_true_iff.1 ht).1, rfl⟩
    | some e => exact .inr ⟨e.1, _, _, _, ⟨e, List.mem_of_getElem? hc, rfl⟩, rfl⟩
  | false =>
    rw [exec_not_raced i s hr] at h
    cases h
    have hbody := bodyOf_answer i s
    rcases completeWith_cases i (bodyOf i) s with
      ⟨r, hp, ht⟩ | ⟨-, r, hb, ht⟩ | ⟨-, b, hb, ⟨r, hc, ht⟩ | ⟨-, ht⟩⟩ <;> rw [ht]
    · exact .inr ⟨_, _, _, _, preCheck_inRow hp, rfl⟩
    · rw [hb] at hbody
      exact .inr ⟨_, _, _, _, hbody, rfl⟩
    · exact .inr ⟨_, _, _, _, capacityCheck_inRow hc, rfl⟩
    · rw [hb] at hbody
      exact .inl ⟨_, _, _, hbody, rfl⟩

/-! ## Memory inside MEM_SIZE -/

theorem Memory.Inside.write {n : Nat} {m : Memory} (h : m.Inside n) {a : Nat} (ha : a < n) (v : Byte) :
    (m.write a v).Inside n := by
  refine ⟨Memory.write_wf m a v h.1, fun c hc => ?_⟩
  rcases Memory.mem_write m a v c hc with ⟨rfl, -⟩ | hc
  · exact ha
  · exact h.2 c hc

theorem Memory.Inside.writeBytes {n : Nat} {m : Memory} (h : m.Inside n) {a : Nat} {bs : List Byte}
    (hin : ∀ b, a ≤ b → b < a + bs.length → b < n) : (m.writeBytes a bs).Inside n := by
  refine ⟨Memory.writeBytes_wf m a bs h.1, fun c hc => ?_⟩
  rcases Memory.mem_writeBytes m a bs c hc with ⟨hlo, hhi⟩ | hc
  · exact hin c.1 hlo hhi
  · exact h.2 c hc

section
variable {i : Instr} {s : State}

theorem fillDsts_inside (h : s.mem.Inside s.params.memSize) : (fillDsts i s).Inside s.params.memSize :=
  ⟨fillDsts_wf i s h.1, fun c hc => (mem_fillDsts i s c hc).elim id (h.2 c)⟩

theorem faultMem_inside {o : Option Instr} {n : Nat} (h : s.mem.Inside s.params.memSize) :
    (faultMem o n s).Inside s.params.memSize :=
  ⟨faultMem_wf o n s h.1, fun c hc => (mem_faultMem o n s c hc).elim id (h.2 c)⟩

theorem takeFault_mem_inside (h : s.mem.Inside s.params.memSize) (o : Option Instr) (r : Raise) :
    (takeFault o r s).mem.Inside s.params.memSize := faultMem_inside h

theorem resetMem_inside (h : s.mem.Inside s.params.memSize) : (resetMem s).Inside s.params.memSize :=
  ⟨resetMem_wf s h.1, fun c hc => (mem_resetMem s c hc).elim id (h.2 c)⟩

/-- An output that passed the address and the capacity check lies below MEM_SIZE. -/
theorem output_below_memSize (hl : OperandsLegal i s) {b : BodyResult} (hb : bodyOf i s = .ok b)
    (hc : capacityCheck i b s = none) {k : Operand} (hk : k ∈ ([.dst0, .dst1] : List Operand))
    (hu : (operandSize i k).isSome = true) (a : Nat) (hlo : operandAddr s.args k ≤ a)
    (hhi : a < operandAddr s.args k + (b.out k).toBytes.length) : a < s.params.memSize := by
  obtain ⟨u, hsize⟩ := Option.isSome_iff_exists.1 hu
  have hfits : (b.out k).toBytes.length ≤ u * operandCount s.args k := output_fits i s b k u hb hc hk hsize
  have hpos : 0 < operandCount s.args k := Nat.pos_of_ne_zero fun h0 => by simp only [h0, Nat.mul_zero] at hfits; omega
  have hin : ¬ OutsideMemory i s k := hl.2.1 k (List.mem_cons_of_mem _ (List.mem_cons_of_mem _ hk))
  have hend : ¬ s.params.memSize < operandAddr s.args k + u * operandCount s.args k := fun h =>
    hin ⟨hu, hpos, by rwa [hsize]⟩
  omega

/-- A commit writes below MEM_SIZE only. -/
theorem commitMem_inside (h : s.mem.Inside s.params.memSize) (hl : OperandsLegal i s) {b : BodyResult}
    (hb : bodyOf i s = .ok b) (hc : capacityCheck i b s = none) : (commitMem i b s).Inside s.params.memSize := by
  have hstore (k : Operand) (hk : k ∈ ([.dst0, .dst1] : List Operand)) (m : Memory) (hm : m.Inside s.params.memSize) :
      (if (operandSize i k).isSome then m.writeBytes (operandAddr s.args k) (b.out k).toBytes else m).Inside
        s.params.memSize := by
    split
    · next hu => exact hm.writeBytes (output_below_memSize hl hb hc hk hu)
    · exact hm
  exact hstore .dst1 (by simp) _ (hstore .dst0 (by simp) _ h)

/-- A command leaves memory inside MEM_SIZE, however it ends. -/
theorem exec_mem_inside {t : State} (h : s.mem.Inside s.params.memSize) (hx : exec i s = .next t) :
    t.mem.Inside s.params.memSize := by
  cases hr : s.raced with
  | true =>
    rw [exec_raced i s hr] at hx
    cases hx
    unfold completeRaced
    split <;> exact fillDsts_inside h
  | false =>
    rw [exec_not_raced i s hr] at hx
    cases hx
    rcases completeWith_cases i (bodyOf i) s with
      ⟨r, -, ht⟩ | ⟨-, r, -, ht⟩ | ⟨hl, b, hb, ⟨r, -, ht⟩ | ⟨hc, ht⟩⟩ <;> rw [ht]
    · exact takeFault_mem_inside h _ r
    · exact takeFault_mem_inside h _ r
    · exact takeFault_mem_inside h _ r
    · exact commitMem_inside h hl hb hc

end

end Sys2Proof.Machine
end

section
/-! SUPPORT. The two invariants of every state of a run, STATUS of the last command (R24, R261) and `Inv`: at reset, and kept by
every step. -/

namespace Sys2Proof.Machine

/-! ## STATUS describes the last command -/

section
variable {s t : State}

/-- With TRAIL and ERR clear there is nothing to describe. -/
theorem describesLastCommand_of_clear (htrail : s.status.trail = false) (herr : s.status.err = false) :
    DescribesLastCommand s where
  trailIsRleDec h := by rw [htrail] at h; cases h
  errOfCommand h := by rw [herr] at h; cases h
  errOfIllegal h := by rw [herr] at h; cases h

/-- It depends on CMD, STATUS and ERRINFO only. -/
theorem DescribesLastCommand.congr (h : DescribesLastCommand s) (hcmd : t.cmd = s.cmd) (hstatus : t.status = s.status)
    (hinfo : t.errinfo = s.errinfo) : DescribesLastCommand t where
  trailIsRleDec := by rw [hstatus, hcmd]; exact h.trailIsRleDec
  errOfCommand := by rw [hstatus, hcmd]; exact h.errOfCommand
  errOfIllegal := by rw [hstatus, hcmd, hinfo]; exact h.errOfIllegal

/-- A command's completion describes it. -/
theorem exec_describesLastCommand {i : Instr} (hd : decode s.cmd = .ok i) (h : exec i s = .next t) :
    DescribesLastCommand t := by
  rcases exec_next_cases h with ⟨trail, res, m, htrail, rfl⟩ | ⟨k, info, res, m, ⟨e, he, hk⟩, rfl⟩
  · exact ⟨fun ht => htrail ht ▸ hd, nofun, nofun⟩
  · refine ⟨nofun, fun _ j hj => ?_, fun _ e he => ?_⟩
    · obtain rfl : i = j := Except.ok.inj (hd.symm.trans hj)
      exact ⟨e, he, congrArg ErrorKind.code hk.symm⟩
    · cases hd.symm.trans he

/-- The completion of an illegal word describes it (R96). -/
theorem illegal_describesLastCommand {e : DecodeError} (hd : decode s.cmd = .error e) :
    DescribesLastCommand (takeFault none ⟨.illegalCommand, s.cmd⟩ s) where
  trailIsRleDec := nofun
  errOfCommand _ _ hi := nomatch hd.symm.trans hi
  errOfIllegal _ _ _ := ⟨rfl, rfl⟩

/-- A host action leaves CMD, STATUS and ERRINFO, or clears TRAIL and ERR (acceptance, reset). -/
theorem hostAct_describesLastCommand {a : HostAction} (hs : DescribesLastCommand s) (h : hostAct a s = .next t) :
    DescribesLastCommand t := by
  rcases hostAct_next_cases a s t h with
    rfl | ⟨_, _, rfl⟩ | ⟨_, _, -, rfl⟩ | ⟨_, _, -, rfl⟩ | ⟨-, _, rfl⟩ | ⟨-, _, rfl⟩ | rfl
  · exact hs
  · exact hs.congr rfl rfl rfl
  · exact hs.congr rfl rfl rfl
  · exact hs.congr rfl rfl rfl
  · exact hs.congr rfl rfl rfl
  · exact describesLastCommand_of_clear rfl rfl
  · exact describesLastCommand_of_clear rfl rfl

/-! ## The invariant -/

theorem Inv.mem_inside (h : Inv s) : s.mem.Inside s.params.memSize := ⟨h.memCanonical, h.memInside⟩

/-- Every error code is one of 0x01 to 0x10 (R260). -/
theorem errStatus_legal (k : ErrorKind) : (errStatus k).legal = true := by cases k <;> decide

theorem doneStatus_legal (trail : Bool) : (doneStatus trail).legal = true := by cases trail <;> decide

/-- The end of a command keeps the invariant, whatever its results. -/
theorem Inv.finish (h : Inv s) {st : Status} {info : Word} {m : Memory} (res : Results) (hlegal : st.legal = true)
    (hidle : st.busy = false) (hinfo : st.err = false → info = 0) (hm : m.Inside s.params.memSize) :
    Inv (finish st info res m s) where
  memCanonical := hm.1
  memInside := hm.2
  statusLegal := hlegal
  infoOnlyAfterFault := hinfo
  noResultsWhileBusy hb := by rw [finish_status, hidle] at hb; cases hb
  raceOnlyWhileBusy := nofun
  staleInside := List.forall_mem_cons.2 ⟨h.mem_inside, h.staleInside⟩

theorem Inv.exec {i : Instr} (h : Inv s) (hx : exec i s = .next t) : Inv t := by
  have hm := exec_mem_inside h.mem_inside hx
  rcases exec_next_cases hx with ⟨trail, res, m, -, rfl⟩ | ⟨k, info, res, m, -, rfl⟩
  · exact h.finish res (doneStatus_legal trail) rfl (fun _ => rfl) hm
  · exact h.finish res (errStatus_legal k) rfl nofun hm

theorem Inv.takeFault (h : Inv s) (o : Option Instr) (r : Raise) : Inv (takeFault o r s) :=
  h.finish Results.zero (errStatus_legal r.kind) rfl nofun (takeFault_mem_inside h.mem_inside o r)

/-- A host byte write below MEM_SIZE keeps the invariant; a race is recorded only of a command in progress. -/
theorem Inv.writeByte (h : Inv s) {addr : Nat} (ha : addr < s.params.memSize) (v : Byte) :
    Inv { s with
      mem := s.mem.write addr v
      raced := s.raced || writeRaces s addr
      stale := s.stale.map fun m => m.write addr v } where
  memCanonical := (h.mem_inside.write ha v).1
  memInside := (h.mem_inside.write ha v).2
  statusLegal := h.statusLegal
  infoOnlyAfterFault := h.infoOnlyAfterFault
  noResultsWhileBusy := h.noResultsWhileBusy
  raceOnlyWhileBusy hr := by
    rcases Bool.or_eq_true_iff.1 hr with hr | hr
    · exact h.raceOnlyWhileBusy hr
    · exact ((writeRaces_iff s addr).1 hr).elim (·.1) (·.1)
  staleInside := List.forall_mem_map.2 fun m hm => (h.staleInside m hm).write ha v

theorem Inv.accept (h : Inv s) (w : Word) : Inv (accept w s) where
  memCanonical := h.memCanonical
  memInside := h.memInside
  statusLegal := rfl
  infoOnlyAfterFault _ := rfl
  noResultsWhileBusy _ := rfl
  raceOnlyWhileBusy := nofun
  staleInside := h.staleInside

theorem Inv.resetEvent (h : Inv s) : Inv (resetEvent s) where
  memCanonical := (resetMem_inside h.mem_inside).1
  memInside := (resetMem_inside h.mem_inside).2
  statusLegal := rfl
  infoOnlyAfterFault _ := rfl
  noResultsWhileBusy _ := rfl
  raceOnlyWhileBusy := nofun
  staleInside := h.staleInside

/-- Taking an action forgets stale memories at most. -/
theorem Inv.takeAction (h : Inv s) (a : HostAction) (rest : List HostAction) : Inv (takeAction a rest s) :=
  { h with
    staleInside := fun m hm => by
      rw [takeAction_stale] at hm
      split at hm
      · cases hm
      · exact h.staleInside m hm }

theorem Inv.hostAct {a : HostAction} (hs : Inv s) (h : hostAct a s = .next t) : Inv t := by
  rcases hostAct_next_cases a s t h with
    rfl | ⟨_, _, rfl⟩ | ⟨_, _, hr, rfl⟩ | ⟨addr, v, ha, rfl⟩ | ⟨-, _, rfl⟩ | ⟨-, w, rfl⟩ | rfl
  · exact hs
  · exact { hs with }
  · exact { hs with raceOnlyWhileBusy := fun h => hr.elim (fun hr => hs.raceOnlyWhileBusy (hr ▸ h)) id }
  · exact hs.writeByte ha v
  · exact { hs with }
  · exact hs.accept w
  · exact hs.resetEvent

end

theorem inv_reset : Inv State.reset where
  memCanonical := Memory.wf_nil
  memInside := nofun
  statusLegal := rfl
  infoOnlyAfterFault _ := rfl
  noResultsWhileBusy _ := rfl
  raceOnlyWhileBusy := nofun
  staleInside := nofun

end Sys2Proof.Machine

open Sys2Proof Sys2Proof.Machine

/-- Settles O52: the cases of a step, each keeping the invariant by its own lemma. -/
theorem stepKeepsTheInvariant : Obligations.StepKeepsTheInvariant := by
  intro s t hs h
  rcases step_next_cases s t h with ⟨-, i, -, hx⟩ | ⟨-, e, -, rfl⟩ | rfl | ⟨a, rest, -, ha⟩
  · exact hs.exec hx
  · exact hs.takeFault _ _
  · exact hs
  · exact (hs.takeAction a rest).hostAct ha

/-- Settles O53: a completion describes the command or the illegal word in CMD, and a host action leaves that or clears TRAIL and
ERR. -/
theorem stepKeepsStatusOfLastCommand : Obligations.StepKeepsStatusOfLastCommand := by
  intro s t hs h
  rcases step_next_cases s t h with ⟨-, i, hd, hx⟩ | ⟨-, e, hd, rfl⟩ | rfl | ⟨a, rest, -, ha⟩
  · exact exec_describesLastCommand hd hx
  · exact illegal_describesLastCommand hd
  · exact hs
  · exact hostAct_describesLastCommand (hs.congr rfl rfl rfl : DescribesLastCommand (takeAction a rest s)) ha

/-- Settles O51: memory lists nothing at reset, and every flag is clear. -/
theorem invariantsHoldAtReset : Obligations.InvariantsHoldAtReset :=
  ⟨inv_reset, describesLastCommand_of_clear rfl rfl⟩

end

section
/-! SUPPORT. The host's side of the register window (10_state.md R21 to R31) and of buffer memory (20_memory.md R71, R72): one
lemma for what each access does, and the STATUS word bit by bit (R24). -/

namespace Sys2Proof.Machine

/-! ## The STATUS word -/

theorem getLsbD_flagBit (b : Bool) (k i : Nat) : (flagBit b k).getLsbD i = (b && decide (k = i) && decide (i < 32)) := by
  cases b with
  | false => exact BitVec.getLsbD_zero
  | true => rw [flagBit, if_pos rfl, BitVec.getLsbD_ofNat, Nat.testBit_two_pow, Bool.true_and, Bool.and_comm]

/-- R24, bit by bit. -/
theorem Status.getLsbD_toWord (st : Status) (i : Nat) (hi : i < 32) :
    st.toWord.getLsbD i = (st.busy && decide (0 = i) || st.done && decide (1 = i) || st.err && decide (2 = i)
      || st.trail && decide (3 = i) || decide (8 ≤ i) && st.errcode.getLsbD (i - 8)) := by
  have hcode : i - 8 < 32 := by omega
  simp only [Status.toWord, BitVec.getLsbD_or, getLsbD_flagBit, BitVec.getLsbD_shiftLeft, BitVec.getLsbD_setWidth, hi, hcode,
    decide_true, Bool.and_true, Bool.true_and, ← Nat.not_le, decide_not, Bool.not_not]

/-- From bit 4 on the word holds ERRCODE only. -/
theorem Status.getLsbD_toWord_high (st : Status) (i : Nat) (hlo : 4 ≤ i) (hi : i < 32) :
    st.toWord.getLsbD i = (decide (8 ≤ i) && st.errcode.getLsbD (i - 8)) := by
  have hflag (k : Nat) (hk : k < 4) : decide (k = i) = false := decide_eq_false (by omega)
  simp [st.getLsbD_toWord i hi, -decide_eq_false_iff_not, hflag]

/-! ## The window -/

section
variable {s : State} {offset : Nat} {v : Word} {rest : List HostAction}

theorem windowAccessOk_iff (bytes offset : Nat) :
    windowAccessOk bytes offset = true ↔ bytes = 4 ∧ offset % 4 = 0 ∧ offset < 0x100 := by
  simp [windowAccessOk, and_assoc]

theorem readWindowAt_regOffset (s : State) (r : Reg) : readWindowAt s (regOffset r) = readReg s r := by
  rw [readWindowAt, regAt_regOffset]

/-- The reserved offsets read 0 (R28). -/
theorem readWindowAt_reserved (s : State) (h : 0x40 ≤ offset) : readWindowAt s offset = 0 := by
  rw [readWindowAt, regAt_reserved offset h]

/-- A window read depends on the register at the offset only. -/
theorem readWindowAt_congr {t : State} (h : ∀ r, regOffset r = offset → readReg t r = readReg s r) :
    readWindowAt t offset = readWindowAt s offset := by
  unfold readWindowAt
  cases hr : regAt offset with
  | none => rfl
  | some r => exact h r (regOffset_of_regAt offset r hr)

/-- The registers stand one word apart, in the order of `allRegs` (R21). -/
theorem regOffset_getElem_allRegs : ∀ (k : Nat) (hk : k < allRegs.length), regOffset allRegs[k] = 4 * k := by decide

/-- What an aligned read returns at every offset (R21, R28). -/
theorem readWindowAt_eq (s : State) (h : offset % 4 = 0) :
    readWindowAt s offset = if 0x40 ≤ offset then 0 else (allRegs.map (readReg s)).getD (offset / 4) 0 := by
  split
  · next hres => exact readWindowAt_reserved s hres
  · next hlow =>
    have hk : offset / 4 < allRegs.length := by change offset / 4 < 16; omega
    have hoff : offset = regOffset allRegs[offset / 4] := by
      rw [regOffset_getElem_allRegs _ hk]
      omega
    rw [List.getD_eq_getElem _ _ (by rwa [List.length_map]), List.getElem_map, ← readWindowAt_regOffset, ← hoff]

theorem writeWindowAt_busy (h : s.status.busy = true) : writeWindowAt s offset v = s := if_pos h

theorem writeWindowAt_idle (h : s.status.busy = false) (r : Reg) :
    writeWindowAt s (regOffset r) v = writeRegIdle s v r := by
  simp [writeWindowAt, h, regAt_regOffset]

theorem writeWindowAt_reserved (h : 0x40 ≤ offset) : writeWindowAt s offset v = s := by
  simp [writeWindowAt, regAt_reserved offset h]

/-- R29 (a): the read-only registers. -/
theorem writeRegIdle_readOnly {r : Reg} (h : r ∈ [Reg.id, .status, .errinfo, .res0, .res1, .res2]) :
    writeRegIdle s v r = s := by
  simp only [List.mem_cons, List.not_mem_nil, or_false] at h
  rcases h with rfl | rfl | rfl | rfl | rfl | rfl <;> rfl

/-- The argument registers (R26). -/
def argRegs : List Reg := [.src0Addr, .src0Len, .src1Addr, .src1Len, .dst0Addr, .dst0Cap, .dst1Addr, .dst1Cap, .param]

/-- R29 (c): a write to an argument register changes that register and nothing else. -/
theorem writeRegIdle_argument (s : State) (v : Word) {r : Reg} (h : r ∈ argRegs) :
    (∃ a, writeRegIdle s v r = { s with args := a }) ∧
      ∀ q, readReg (writeRegIdle s v r) q = if q = r then v else readReg s q := by
  simp only [argRegs, List.mem_cons, List.not_mem_nil, or_false] at h
  rcases h with rfl | rfl | rfl | rfl | rfl | rfl | rfl | rfl | rfl <;>
    exact ⟨⟨_, rfl⟩, fun q => by cases q <;> rfl⟩

/-! ## Host accesses as steps -/

theorem step_writeWindow (hturn : s.status.busy = false ∨ s.delay ≠ 0) (hh : s.host = .writeWindow 4 offset v :: rest)
    (halign : offset % 4 = 0) (hlt : offset < 0x100) :
    step s = .next (writeWindowAt { s with host := rest, delay := s.delay - 1 } offset v) := by
  rw [step_host s _ _ hturn hh, takeAction_eq _ _ _ rfl]
  exact if_pos ((windowAccessOk_iff 4 offset).2 ⟨rfl, halign, hlt⟩)

theorem step_readWindow (hturn : s.status.busy = false ∨ s.delay ≠ 0) (hh : s.host = .readWindow 4 offset :: rest)
    (halign : offset % 4 = 0) (hlt : offset < 0x100) :
    step s = .next { takeAction (.readWindow 4 offset) rest s with readData := readWindowAt s offset } := by
  rw [step_host s _ _ hturn hh]
  exact if_pos ((windowAccessOk_iff 4 offset).2 ⟨rfl, halign, hlt⟩)

/-- A well-formed window read is a read of STATUS exactly at offset 0x08. -/
theorem readsStatus_readWindow (halign : offset % 4 = 0) (hlt : offset < 0x100) :
    readsStatus (.readWindow 4 offset) = decide (offset = 0x08) := by
  rw [readsStatus, (windowAccessOk_iff 4 offset).2 ⟨rfl, halign, hlt⟩]
  rfl

end

section
variable {s : State} {addr : Nat} {rest : List HostAction}

/-- What a host read of a byte changes, and which data it returns unless it races (R71 (c), R72, R298). -/
theorem hostReadByte_next (ha : addr < s.params.memSize) :
    ∃ d k, hostReadByte s addr = .next { s with
        raced := s.raced || readRaces s addr
        readData := d.setWidth 32
        draws := k } ∧
      (¬ Active s dstRanges addr → s.stale = [] ∨ Active s srcRanges addr → d = s.mem.read addr) ∧
      (¬ Active s dstRanges addr → ∃ m ∈ s.mem :: s.stale, d = m.read addr) := by
  unfold hostReadByte
  rw [if_pos ha, ← readRaces_iff, ← readsMemory_iff]
  cases hrace : readRaces s addr with
  | true =>
    refine ⟨Config.raceByte s.draws, s.draws + 1, ?_, fun h => absurd rfl h, fun h => absurd rfl h⟩
    rw [Bool.or_true]
    rfl
  | false =>
    cases hsure : readsMemory s addr with
    | true =>
      refine ⟨s.mem.read addr, s.draws, ?_, fun _ _ => rfl, fun _ => ⟨s.mem, List.mem_cons_self, rfl⟩⟩
      rw [Bool.or_false]
      rfl
    | false =>
      refine ⟨(earlyMem s).read addr, s.draws + 1, ?_, nofun, fun _ => ⟨_, earlyMem_mem s, rfl⟩⟩
      rw [Bool.or_false]
      rfl

theorem step_writeByte (hturn : s.status.busy = false ∨ s.delay ≠ 0) {v : Byte} (hh : s.host = .writeByte addr v :: rest)
    (ha : addr < s.params.memSize) :
    step s = .next { s with
      host := rest
      delay := s.delay - 1
      mem := s.mem.write addr v
      raced := s.raced || writeRaces s addr
      stale := s.stale.map fun m => m.write addr v } := by
  rw [step_host s _ _ hturn hh, takeAction_eq _ _ _ rfl]
  exact if_pos ha

theorem step_readByte (hturn : s.status.busy = false ∨ s.delay ≠ 0) (hh : s.host = .readByte addr :: rest)
    (ha : addr < s.params.memSize) :
    ∃ d k, step s = .next { s with
        host := rest
        delay := s.delay - 1
        raced := s.raced || readRaces s addr
        readData := d.setWidth 32
        draws := k } ∧
      (¬ Active s dstRanges addr → s.stale = [] ∨ Active s srcRanges addr → d = s.mem.read addr) ∧
      (¬ Active s dstRanges addr → ∃ m ∈ s.mem :: s.stale, d = m.read addr) := by
  rw [step_host s _ _ hturn hh, takeAction_eq _ _ _ rfl]
  exact hostReadByte_next (s := { s with host := rest, delay := s.delay - 1 }) ha

/-- An access at or above MEM_SIZE stops the model (log 11). -/
theorem step_byte_outside (hturn : s.status.busy = false ∨ s.delay ≠ 0) {v : Byte} (ha : s.params.memSize ≤ addr)
    (hh : s.host = .writeByte addr v :: rest ∨ s.host = .readByte addr :: rest) :
    step s = .fault (.bufferAddressOutside addr) := by
  rcases hh with hh | hh <;> rw [step_host s _ _ hturn hh] <;> exact if_neg (Nat.not_lt.2 ha)

end

end Sys2Proof.Machine

open Sys2Proof Sys2Proof.Machine

/-- Settles O46: the rules for a byte access, the races by R72 in the terms of `Active`. -/
theorem racesAreHostAccessesToActiveRanges : Obligations.RacesAreHostAccessesToActiveRanges := by
  intro s addr v rest hturn
  refine ⟨fun hh ha => ?_, fun hh ha => ?_, step_byte_outside hturn⟩
  · refine ⟨_, step_writeByte hturn hh ha, ⟨rfl, rfl, rfl, rfl, rfl, rfl⟩, rfl, rfl, rfl, fun hwf => ?_,
      fun b hb => Memory.read_write_ne _ _ _ _ hb, ?_⟩
    · obtain ⟨hmem, hstale⟩ := List.forall_mem_cons.1 hwf
      exact List.forall_mem_cons.2 ⟨Memory.read_write_same _ _ _ hmem,
        List.forall_mem_map.2 fun m hm => Memory.read_write_same m addr v (hstale m hm)⟩
    · exact Bool.or_eq_true_iff.trans (or_congr Iff.rfl (writeRaces_iff s addr))
  · obtain ⟨d, k, hstep, hsure, hearly⟩ := step_readByte hturn hh ha
    refine ⟨_, hstep, ⟨rfl, rfl, rfl, rfl, rfl, rfl⟩, rfl, rfl, rfl, ?_, fun hdst hsrc => ?_, fun hdst => ?_⟩
    · exact Bool.or_eq_true_iff.trans (or_congr Iff.rfl (readRaces_iff s addr))
    · exact congrArg (BitVec.setWidth 32) (hsure hdst hsrc)
    · obtain ⟨m, hm, hd⟩ := hearly hdst
      exact ⟨m, hm, congrArg (BitVec.setWidth 32) hd⟩

/-- Settles O8: a busy block, a read-only register and a reserved offset each ignore the write. -/
theorem ineffectiveWindowWritesChangeNothing : Obligations.IneffectiveWindowWritesChangeNothing := by
  intro s offset v rest hh halign hlt hcase
  have hturn : s.status.busy = false ∨ s.delay ≠ 0 := hcase.elim (fun h => .inr h.2) (fun h => .inl h.1)
  rw [step_writeWindow hturn hh halign hlt]
  congr 1
  rcases hcase with ⟨hbusy, -⟩ | ⟨hidle, hro | hres⟩
  · exact writeWindowAt_busy hbusy
  · have hmap : offset ∈ [Reg.id, .status, .errinfo, .res0, .res1, .res2].map regOffset := hro
    obtain ⟨r, hr, rfl⟩ := List.mem_map.1 hmap
    rw [writeWindowAt_idle, writeRegIdle_readOnly hr]
    exact hidle
  · exact writeWindowAt_reserved hres

/-- Settles O9: the write changes the one register at its offset. -/
theorem argumentWriteIsStored : Obligations.ArgumentWriteIsStored := by
  intro s offset v rest hidle hh hoff
  have hmap : offset ∈ argRegs.map regOffset := hoff
  obtain ⟨r, hr, rfl⟩ := List.mem_map.1 hmap
  obtain ⟨⟨a, ha⟩, hread⟩ := writeRegIdle_argument { s with host := rest, delay := s.delay - 1 } v hr
  have hstep : step s = .next (writeRegIdle { s with host := rest, delay := s.delay - 1 } v r) := by
    have hrange : regOffset r % 4 = 0 ∧ regOffset r < 0x100 := by cases r <;> decide
    rw [step_writeWindow (.inl hidle) hh hrange.1 hrange.2, writeWindowAt_idle]
    exact hidle
  refine ⟨_, hstep, ?_, fun other hne => ?_, ?_⟩
  · rw [readWindowAt_regOffset, hread, if_pos rfl]
  · refine readWindowAt_congr fun q hq => ?_
    rw [hread, if_neg (fun h => hne (by rw [← hq, h]))]
    cases q <;> rfl
  · rw [ha]
    exact ⟨rfl, rfl, rfl, rfl, rfl, rfl⟩

/-- Settles O10: the window map, and a read of STATUS with BUSY = 0 is the read at 0x08 or a turn of WAIT. -/
theorem windowReadReturnsTheRegister : Obligations.WindowReadReturnsTheRegister := by
  intro s offset rest hturn
  constructor
  · intro hh halign hlt
    rw [step_readWindow hturn hh halign hlt, readWindowAt_eq s halign]
    simp only [takeAction, readsStatus_readWindow halign hlt, Bool.and_eq_true, decide_eq_true_eq, Bool.not_eq_true']
    rfl
  · intro hh
    rw [step_host s _ _ hturn hh]
    simp [hostAct, hostWait, takeAction, readsStatus]

/-- Settles O11: `windowAccessOk` is the rule of R31. -/
theorem malformedWindowAccessIsRefused : Obligations.MalformedWindowAccessIsRefused := by
  intro s bytes offset v rest hturn hbad
  have hrefused : ¬ windowAccessOk bytes offset = true := by
    rw [windowAccessOk_iff]
    omega
  constructor <;> intro hh <;> rw [step_host s _ _ hturn hh] <;> exact if_neg hrefused

/-- Settles O12: each field from the bits of the word. -/
theorem statusWordLayout : Obligations.StatusWordLayout := by
  intro st
  refine ⟨?_, ?_, ?_, ?_, ?_, ?_, ?_⟩
  · simpa using st.getLsbD_toWord 0 (by omega)
  · simpa using st.getLsbD_toWord 1 (by omega)
  · simpa using st.getLsbD_toWord 2 (by omega)
  · simpa using st.getLsbD_toWord 3 (by omega)
  · refine BitVec.eq_of_getLsbD_eq fun i hi => ?_
    have hcode : ¬ 8 ≤ 4 + i := by omega
    rw [BitVec.getLsbD_extractLsb', st.getLsbD_toWord_high (4 + i) (by omega) (by omega), decide_eq_false hcode]
    simp
  · refine BitVec.eq_of_getLsbD_eq fun i hi => ?_
    rw [BitVec.getLsbD_extractLsb', st.getLsbD_toWord_high (8 + i) (by omega) (by omega)]
    simp [hi]
  · refine BitVec.eq_of_getLsbD_eq fun i hi => ?_
    have hcode : 8 ≤ 16 + i - 8 := by omega
    rw [BitVec.getLsbD_extractLsb', st.getLsbD_toWord_high (16 + i) (by omega) (by omega), BitVec.getLsbD_of_ge _ _ hcode]
    simp

/-- Settles O48: the registers by evaluation, the reserved offsets because no register stands there. -/
theorem resetValues : Obligations.ResetValues :=
  ⟨rfl, rfl, rfl, rfl, rfl, rfl, fun _ h => readWindowAt_reserved _ h⟩

end

section
/-! SUPPORT. HUF_BUILD: packing of bits (46_huffman.md R239), the codes of R231 to R236 as bit strings, the Codebook (R238) and
the body (R230); then HUF_DEC on what HUF_BUILD gives (R244). -/

namespace Sys2Proof.Machine

/-! ## Packing (R239) -/

/-- The place values of the bits that are set sum up to the value of the bit string. -/
theorem sum_placeValues (f : Nat → Bool) (n : Nat) :
    ((List.range (n + 1)).map fun b => if f b then 2 ^ (n - b) else 0).sum = bitsValue ((List.range (n + 1)).map f) := by
  induction n generalizing f with
  | zero => cases hf : f 0 <;> simp [hf, bitsValue]
  | succ n ih =>
    have hrest := ih (f ∘ Nat.succ)
    rw [List.range_succ_eq_map, List.map_cons, List.sum_cons, List.map_map, List.map_cons, List.map_map, bitsValue_cons,
      ← hrest]
    congr 1
    · cases f 0 <;> simp
    · simp [Function.comp_def]

@[simp] theorem length_packBits (bits : List Bool) : (packBits bits).length = ceilBytes bits.length := by simp [packBits]

/-- Byte `q` has the eight bits from `8 * q` on as its digits. -/
theorem packBits_getD (bits : List Bool) {q : Nat} (hq : q < ceilBytes bits.length) :
    (packBits bits).getD q 0 = BitVec.ofNat 8 (bitsValue ((List.range 8).map fun b => bits.getD (8 * q + b) false)) := by
  rw [List.getD_eq_getElem _ _ (by simpa using hq)]
  simp only [packBits, List.getElem_map, List.getElem_range]
  exact congrArg (BitVec.ofNat 8) (sum_placeValues (fun b => bits.getD (8 * q + b) false) 7)

/-- Digit `j` of the value of a bit string, from the top, is bit `j`. -/
theorem testBit_bitsValue (bits : List Bool) {j : Nat} (hj : j < bits.length) :
    (bitsValue bits).testBit (bits.length - 1 - j) = bits[j] := by
  have hbit := List.getElem_of_eq (bitsOf_bitsValue bits) (i := j) (by simpa [bitsOf] using hj)
  simpa [bitsOf] using hbit

/-- Bit `j` of the packed string is bit `j` of the string, 0 after its end (R67, R239). -/
theorem streamBit_packBits (bits : List Bool) {j : Nat} (hj : j < 8 * (packBits bits).length) :
    streamBit (packBits bits) j = bits.getD j false := by
  rw [length_packBits] at hj
  have hdigit := testBit_bitsValue ((List.range 8).map fun b => bits.getD (8 * (j / 8) + b) false) (j := j % 8)
    (by rw [List.length_map, List.length_range]; omega)
  rw [List.getElem_map, List.getElem_range, Nat.div_add_mod] at hdigit
  rw [streamBit, packBits_getD bits (by omega), BitVec.getLsbD_ofNat, decide_eq_true (by omega), Bool.true_and]
  exact hdigit

theorem le_eight_mul_ceilBytes (n : Nat) : n ≤ 8 * ceilBytes n := by unfold ceilBytes; omega

/-- The packed string is the string and the padding (R239). -/
theorem streamBits_packBits (bits : List Bool) :
    streamBits (packBits bits) = bits ++ List.replicate (8 * ceilBytes bits.length - bits.length) false := by
  have hle := le_eight_mul_ceilBytes bits.length
  refine List.ext_getElem (by simp [streamBits]; omega) fun j hj _ => ?_
  have hj : j < 8 * (packBits bits).length := by simpa [streamBits] using hj
  simp only [streamBits, List.getElem_map, List.getElem_range, streamBit_packBits bits hj, List.getElem_append,
    List.getElem_replicate]
  split
  · next hin => exact List.getD_eq_getElem _ _ hin
  · next hout => exact List.getD_eq_default _ _ (by omega)

/-! ## Codes (R231 to R236) -/

/-- A code is not empty: the root of a tree of two symbols or more is no leaf (R235, R236). -/
theorem HuffmanCode.ne_nil {d : List Byte} {c : Byte} {bits : List Bool} (h : HuffmanCode d c bits) : bits ≠ [] := by
  obtain ⟨syms, ha, ⟨-, rfl⟩ | ⟨hlen, root, hm, hpath⟩⟩ := h
  · simp
  · rintro rfl
    obtain rfl := ha.eq_symbolsOf
    cases hpath
    have hone := (symbols_of_leaves hm).length_eq
    rw [← hone] at hlen
    exact absurd hlen (by simp [HufTree.symbols])

/-- Every symbol of the data has a code. -/
theorem exists_huffmanCodes (d : List Byte) : ∃ code : Byte → List Bool, ∀ c ∈ d, HuffmanCode d c (code c) := by
  have hone (c : Byte) : ∃ bits, c ∈ d → HuffmanCode d c bits := by
    by_cases hc : c ∈ d
    · obtain ⟨bits, hbits⟩ := exists_codeFor d c hc
      exact ⟨bits, fun _ => (huffmanCode_iff d c bits hc).2 hbits⟩
    · exact ⟨[], fun h => absurd h hc⟩
  exact Classical.skolem.1 hone

section
variable {d syms : List Byte} {code : Byte → List Bool}

/-! ## The Codebook of codes that fit 32 bits (R237, R238) -/

@[simp] theorem length_codebookFor (syms : List Byte) (code : Byte → List Bool) :
    (codebookFor syms code).length = syms.length := List.length_map _

/-- The Codebook's entry for a symbol. -/
def codebookEntry (code : Byte → List Bool) (c : Byte) : Entry :=
  ⟨c, BitVec.ofNat 8 (code c).length, BitVec.ofNat 32 (bitsValue (code c))⟩

theorem codebookFor_eq_map (syms : List Byte) (code : Byte → List Bool) :
    codebookFor syms code = syms.map (codebookEntry code) := rfl

theorem codebookEntry_len {c : Byte} (h : (code c).length ≤ 32) : (codebookEntry code c).len.toNat = (code c).length := by
  simp only [codebookEntry, BitVec.toNat_ofNat]
  omega

theorem codebookEntry_code {c : Byte} (h : (code c).length ≤ 32) :
    (codebookEntry code c).code.toNat = bitsValue (code c) := by
  have hlt : bitsValue (code c) < 2 ^ 32 := (bitsValue_lt _).trans_le (Nat.pow_le_pow_right (by omega) h)
  simp only [codebookEntry, BitVec.toNat_ofNat]
  exact Nat.mod_eq_of_lt hlt

theorem codebookEntry_bits {c : Byte} (h : (code c).length ≤ 32) : (codebookEntry code c).bits = code c := by
  rw [Entry.bits_eq, codebookEntry_len h, codebookEntry_code h, bitsOf_bitsValue]

variable (ha : IsAlphabet syms d) (hcode : ∀ c ∈ d, HuffmanCode d c (code c) ∧ (code c).length ≤ 32)
include hcode

theorem codeFor_buildCodes {c : Byte} (hc : c ∈ d) :
    codeFor (buildCodes d) c = some ⟨c, (code c).length, bitsValue (code c)⟩ :=
  (huffmanCode_iff d c _ hc).1 (hcode c hc).1

/-- The bit string of the data is its codes one after another (R230). -/
theorem encodeBits_buildCodes : encodeBits (buildCodes d) d = d.flatMap code := by
  unfold encodeBits
  refine List.flatMap_congr fun c hc => ?_
  simp only [codeFor_buildCodes hcode hc, bitsOf_bitsValue]

include ha

theorem firstTooLong_buildCodes : firstTooLong (buildCodes d) syms = none := by
  unfold firstTooLong
  refine List.find?_eq_none.2 fun c hc => ?_
  have hfit := (hcode c ((ha.2 c).1 hc)).2
  simp only [codeFor_buildCodes hcode ((ha.2 c).1 hc), decide_eq_true_eq]
  exact Nat.not_lt.2 hfit

theorem codebookOf_buildCodes : codebookOf (buildCodes d) syms = codebookFor syms code := by
  unfold codebookOf codebookFor
  rw [← List.filterMap_eq_map]
  refine List.filterMap_congr fun c hc => ?_
  rw [codeFor_buildCodes hcode ((ha.2 c).1 hc)]
  rfl

/-- The body of HUF_BUILD on data whose codes fit 32 bits (R230); an empty input needs no case of its own. -/
theorem hufBuild_eq : hufBuild d = .ok ⟨.entries (codebookFor syms code), .bytes (packBits (d.flatMap code)),
    ⟨infoOf syms.length, infoOf (ceilBytes (d.flatMap code).length),
      infoOf (8 * ceilBytes (d.flatMap code).length - (d.flatMap code).length)⟩, false⟩ := by
  by_cases hd : d = []
  · obtain rfl : syms = [] := List.eq_nil_iff_forall_not_mem.2 fun c hc => by simpa [hd] using (ha.2 c).1 hc
    simp [hufBuild, hd, codebookFor, packBits, ceilBytes, Results.zero, infoOf]
  · unfold hufBuild
    simp only [if_neg hd, ← ha.eq_symbolsOf, firstTooLong_buildCodes ha hcode, codebookOf_buildCodes ha hcode,
      encodeBits_buildCodes hcode]

/-- R244 (c): the codes are not empty, and none begins another's. -/
theorem validCodebook_codebookFor : ValidCodebook (codebookFor syms code) := by
  have hmem (c : Byte) (hc : c ∈ syms) := hcode c ((ha.2 c).1 hc)
  rw [codebookFor_eq_map, ValidCodebook, List.forall_mem_map, List.pairwise_map]
  constructor
  · intro c hc
    obtain ⟨hhuf, hfit⟩ := hmem c hc
    rw [codebookEntry_len hfit, codebookEntry_code hfit]
    exact ⟨fun h => hhuf.ne_nil (List.length_eq_zero_iff.1 h), hfit, bitsValue_lt _⟩
  · refine (nodup_of_isAlphabet ha).imp_of_mem fun {c c'} hc hc' hne => ?_
    obtain ⟨hhuf, hfit⟩ := hmem c hc
    obtain ⟨hhuf', hfit'⟩ := hmem c' hc'
    rw [codebookEntry_bits hfit, codebookEntry_bits hfit']
    exact ⟨hne, fun h => hne (hhuf.eq_of_prefix hhuf' h), fun h => hne (hhuf'.eq_of_prefix hhuf h).symm⟩

/-- The codes of any symbols of the data decode to them. -/
theorem decodesTo_codebookFor (l : List Byte) (hl : ∀ c ∈ l, c ∈ d) :
    DecodesTo (codebookFor syms code) (l.flatMap code) l := by
  induction l with
  | nil => exact .nil
  | cons c l ih =>
    obtain ⟨hc, hrest⟩ := List.forall_mem_cons.1 hl
    have hentry : codebookEntry code c ∈ codebookFor syms code := List.mem_map_of_mem ((ha.2 c).2 hc)
    have hstep := DecodesTo.cons _ _ _ hentry (ih hrest)
    rwa [codebookEntry_bits (hcode c hc).2] at hstep

end

/-! ## HUF_DEC of a Bitstream (R240) -/

/-- The body of HUF_DEC on a stream that begins with the codes of `out`. -/
theorem hufDecode_of_decodesTo {stream : List Byte} {cb : List Entry} {used rest : List Bool} {out : List Byte}
    (hcb : ValidCodebook cb) (hdec : DecodesTo cb used out) (hstream : streamBits stream = used ++ rest) :
    hufDecode stream cb out.length =
      .ok ⟨.bytes out, .bytes [], ⟨infoOf out.length, infoOf (ceilBytes used.length), 0⟩, false⟩ := by
  have hwalk := walkDecode_append hcb hdec rest 0 0 0
  simp only [walkDecode_done, Except.map, Nat.add_zero, Nat.zero_add, List.append_nil] at hwalk
  simp only [hufDecode, firstCorrupt_of_valid hcb, unpackBits_eq_streamBits, hstream, hwalk]

end Sys2Proof.Machine

open Sys2Proof Sys2Proof.Machine

/-- Settles O60: the body of HUF_BUILD packs the codes, and the walk of HUF_DEC decodes them in the valid Codebook; the padding is
what follows. -/
theorem huffmanRoundTrip : Obligations.HuffmanRoundTrip := by
  refine ⟨fun bits j => ⟨length_packBits bits, streamBit_packBits bits⟩, unpackBits_eq_streamBits,
    fun d syms code ha hcode => ?_⟩
  have hstream := streamBits_packBits (d.flatMap code)
  have hvalid := validCodebook_codebookFor ha hcode
  have hdec := hufDecode_of_decodesTo hvalid (decodesTo_codebookFor ha hcode d fun _ hc => hc) hstream
  refine ⟨packBits (d.flatMap code), 8 * ceilBytes (d.flatMap code).length - (d.flatMap code).length, ?_, ?_, hstream,
    hvalid, ?_⟩
  · rw [hufBuild_eq ha hcode, length_packBits]
    rfl
  · unfold ceilBytes
    omega
  · rw [hdec, length_packBits]
    rfl

end

section
/-! SUPPORT. What a completion leaves of memory, raced or not: every byte outside the destination ranges (20_memory.md R65), and so
the source ranges (R77). -/

namespace Sys2Proof.Machine

section
variable {i : Instr} {s t : State}

/-! ## Ranges of legal operands -/

theorem Range.overlaps_of_contains {r q : Range} {b : Nat} (hr : r.contains b = true) (hq : q.contains b = true) :
    r.overlaps q = true := by
  simp only [Range.contains, Range.overlaps, decide_eq_true_eq] at *
  omega

/-- A byte lies in a used range exactly if it lies in the range of one of the operands. -/
theorem inRanges_rangesOf (i : Instr) (a : Args) (ks : List Operand) (b : Nat) :
    inRanges (rangesOf i a ks) b = true ↔
      ∃ k ∈ ks, ∃ u, operandSize i k = some u ∧ (rangeOfSize a k u).contains b = true := by
  simp only [inRanges, rangesOf, List.any_filterMap, List.any_eq_true]
  refine exists_congr fun k => and_congr_right fun _ => ?_
  cases operandSize i k <;> simp

theorem contains_rangeOfSize (a : Args) (k : Operand) (u b : Nat) :
    (rangeOfSize a k u).contains b = true ↔ operandAddr a k ≤ b ∧ b < operandAddr a k + u * operandCount a k :=
  decide_eq_true_iff

/-- No byte lies in both ranges of a pair that R117 checks. -/
theorem not_contains_both (hl : OperandsLegal i s) {k l : Operand} (hp : (k, l) ∈ overlapPairs) {u v : Nat}
    (hu : operandSize i k = some u) (hv : operandSize i l = some v) {b : Nat}
    (hk : (rangeOfSize s.args k u).contains b = true) : ¬ (rangeOfSize s.args l v).contains b = true := fun hb =>
  hl.2.2 _ hp ((overlaps_iff i s k l u v hu hv).1 (Range.overlaps_of_contains hk hb))

/-- Each source and each destination make a pair of R114. -/
theorem source_destination_pair : ∀ k ∈ [Operand.src0, .src1], ∀ l ∈ [Operand.dst0, .dst1], (k, l) ∈ overlapPairs := by
  decide

/-- With legal operands no source byte is a destination byte (R117). -/
theorem source_outside_destinations (hl : OperandsLegal i s) {b : Nat} (hb : inRanges (srcRanges i s.args) b = true) :
    inRanges (dstRanges i s.args) b = false := by
  obtain ⟨k, hk, u, hu, hkb⟩ := (inRanges_rangesOf _ _ _ b).1 hb
  rw [Bool.eq_false_iff]
  intro hdst
  obtain ⟨l, hlmem, v, hv, hlb⟩ := (inRanges_rangesOf _ _ _ b).1 hdst
  exact not_contains_both hl (source_destination_pair k hk l hlmem) hu hv hkb hlb

/-! ## The frame of a completion -/

/-- A command changes no byte outside its destination ranges, however it ends (R65, R72, R262). -/
theorem exec_unchangedOutside (h : exec i s = .next t) : UnchangedOutside (dstRanges i s.args) s t := by
  cases hr : s.raced with
  | true =>
    rw [exec_raced i s hr] at h
    cases h
    unfold completeRaced
    split <;> exact read_fillDsts i s
  | false =>
    rw [exec_not_raced i s hr] at h
    cases h
    rcases completeWith_cases i (bodyOf i) s with
      ⟨r, -, ht⟩ | ⟨-, r, -, ht⟩ | ⟨-, b, hb, ⟨r, -, ht⟩ | ⟨hc, ht⟩⟩ <;> rw [ht]
    · exact takeFault_unchangedOutside i r s
    · exact takeFault_unchangedOutside i r s
    · exact takeFault_unchangedOutside i r s
    · exact fun a ha => read_commitMem_outside i s b a hb hc ha

/-- Operands that are not legal end a command that did not race with no byte written (R115 to R117, R262). -/
theorem exec_mem_of_not_legal (hr : s.raced = false) (hl : ¬ OperandsLegal i s) :
    ∃ t, exec i s = .next t ∧ t.mem = s.mem := by
  rw [← preCheck_eq_none_iff] at hl
  obtain ⟨r, hp⟩ := Option.ne_none_iff_exists'.1 hl
  obtain ⟨t, ht, -, hmem⟩ := exec_faultsEarly i s r hr hp
  exact ⟨t, ht, hmem⟩

theorem finish_keepsInputs (st : Status) (v : Word) (r : Results) (m : Memory) (s : State) :
    KeepsInputs s (finish st v r m s) := (finish_endsWith st v r m s).keeps

end

end Sys2Proof.Machine

open Sys2Proof Sys2Proof.Machine

/-- Settles O40: the frame of a completion, and a command ends with DONE or with an error. -/
theorem everyCommandCompletesInsideItsDestinations : Obligations.EveryCommandCompletesInsideItsDestinations := by
  intro i s
  have hframe := exec_unchangedOutside (exec_next i s)
  refine ⟨_, exec_next i s, ?_⟩
  rcases exec_next_cases (exec_next i s) with ⟨trail, res, m, -, ht⟩ | ⟨k, info, res, m, -, ht⟩ <;> rw [ht] at hframe ⊢
  · exact ⟨finish_keepsInputs _ _ _ _ _, hframe, rfl, rfl, rfl⟩
  · exact ⟨finish_keepsInputs _ _ _ _ _, hframe, rfl, rfl, rfl⟩

/-- Settles O43: with legal operands a source byte is no destination byte; otherwise a command that did not race writes no byte. -/
theorem sourcesAreNeverWritten : Obligations.SourcesAreNeverWritten := by
  intro i s h
  by_cases hl : OperandsLegal i s
  · exact ⟨_, exec_next i s, fun b hb => exec_unchangedOutside (exec_next i s) b (source_outside_destinations hl hb)⟩
  · obtain ⟨t, ht, hmem⟩ := exec_mem_of_not_legal (h.resolve_right hl) hl
    exact ⟨t, ht, fun b _ => by rw [hmem]⟩

/-- Settles O47: the frame of a completion, and the row of R261 for an error. -/
theorem racedCommandEndsWithSomeOutcome : Obligations.RacedCommandEndsWithSomeOutcome := by
  intro i s hraced
  have hx := exec_raced i s hraced
  have hframe := exec_unchangedOutside hx
  refine ⟨_, hx, ?_⟩
  rcases exec_next_cases hx with ⟨trail, res, m, -, ht⟩ | ⟨k, info, res, m, ⟨e, he, hk⟩, ht⟩ <;> rw [ht] at hframe ⊢
  · exact ⟨finish_keepsInputs _ _ _ _ _, rfl, hframe, rfl, .inl ⟨rfl, rfl, rfl, rfl⟩⟩
  · exact ⟨finish_keepsInputs _ _ _ _ _, rfl, hframe, rfl, .inr ⟨rfl, rfl, e, he, congrArg ErrorKind.code hk.symm⟩⟩

end

section
/-! SUPPORT. HUF_BUILD as a command: its two outputs in memory (46_huffman.md R238, R239). -/

namespace Sys2Proof.Machine

/-- A Codebook stands wherever the bytes it stands in are the same. -/
theorem EntriesAt.congr {m m' : Memory} {a : Nat} {cb : List Entry} (h : EntriesAt m a cb)
    (hsame : ∀ b, a ≤ b → b < a + 6 * cb.length → m'.read b = m.read b) : EntriesAt m' a cb := by
  rintro ⟨e, k⟩ hp
  obtain ⟨hk, -⟩ := List.getElem?_eq_some_iff.1 (List.mk_mem_zipIdx_iff_getElem?.1 hp)
  obtain ⟨hsym, hlen, hcode⟩ := h _ hp
  dsimp only at *
  refine ⟨?_, ?_, fun j hj => ?_⟩
  · rw [hsame _ (by omega) (by omega), hsym]
  · rw [hsame _ (by omega) (by omega), hlen]
  · rw [hsame _ (by omega) (by omega), hcode j hj]

/-- Bit `j` of a Bitstream written to canonical memory stands in byte `j div 8` (R67). -/
theorem getLsbD_read_writeBytes {m : Memory} (hm : m.wf) (a : Nat) (stream : List Byte) {j : Nat}
    (hj : j < 8 * stream.length) :
    ((m.writeBytes a stream).read (a + j / 8)).getLsbD (7 - j % 8) = streamBit stream j := by
  rw [Memory.read_writeBytes _ _ _ _ hm, if_pos (by omega), Nat.add_sub_cancel_left]
  rfl

/-- HUF_BUILD commits the Codebook, then the Bitstream. -/
theorem commitMem_hufBuild (b : BodyResult) (s : State) :
    commitMem .hufBuild b s =
      (s.mem.writeBytes (operandAddr s.args .dst0) b.dst0.toBytes).writeBytes (operandAddr s.args .dst1) b.dst1.toBytes := rfl

/-- Outputs of HUF_BUILD within their capacities do not overlap (R117). -/
theorem hufBuild_outputs_disjoint {s : State} (hl : OperandsLegal .hufBuild s) {n m : Nat}
    (hn : n ≤ operandCount s.args .dst0) (hm : m ≤ operandCount s.args .dst1) {b : Nat}
    (hlo : operandAddr s.args .dst0 ≤ b) (hhi : b < operandAddr s.args .dst0 + 6 * n) :
    b < operandAddr s.args .dst1 ∨ operandAddr s.args .dst1 + m ≤ b := by
  have hin : (rangeOfSize s.args .dst0 6).contains b = true := (contains_rangeOfSize _ _ _ _).2 (by omega)
  have hout := not_contains_both hl (k := .dst0) (l := .dst1) (by decide) rfl rfl hin
  rw [contains_rangeOfSize] at hout
  omega

/-- Success of HUF_BUILD with outputs that fit: the Codebook and the Bitstream stand in memory, and no other byte changed. -/
theorem exec_hufBuild_stores {s : State} {cb : List Entry} {stream : List Byte} {res : Results} (hr : s.raced = false)
    (hwf : s.mem.wf) (hl : OperandsLegal .hufBuild s)
    (hb : bodyOf .hufBuild s = .ok ⟨.entries cb, .bytes stream, res, false⟩)
    (hcb : cb.length ≤ operandCount s.args .dst0) (hstream : stream.length ≤ operandCount s.args .dst1) :
    ∃ t, exec .hufBuild s = .next t ∧ EndsWith s t (doneStatus false) 0 res ∧
      EntriesAt t.mem (operandAddr s.args .dst0) cb ∧
      (∀ j, j < 8 * stream.length →
        (t.mem.read (operandAddr s.args .dst1 + j / 8)).getLsbD (7 - j % 8) = streamBit stream j) ∧
      ∀ b, (b < operandAddr s.args .dst0 ∨ operandAddr s.args .dst0 + 6 * cb.length ≤ b) →
        (b < operandAddr s.args .dst1 ∨ operandAddr s.args .dst1 + stream.length ≤ b) → t.mem.read b = s.mem.read b := by
  have hfits : capacityCheck .hufBuild ⟨.entries cb, .bytes stream, res, false⟩ s = none := by
    rw [capacityCheck_eq_none]
    intro k hk _
    simp only [List.mem_cons, List.not_mem_nil, or_false] at hk
    rcases hk with rfl | rfl
    · exact hcb
    · exact hstream
  have hmem : (commit .hufBuild ⟨.entries cb, .bytes stream, res, false⟩ s).mem = _ := commitMem_hufBuild _ _
  refine ⟨_, exec_commit .hufBuild s _ hr hl hb hfits, finish_endsWith _ _ _ _ _, ?_, ?_, ?_⟩ <;> rw [hmem]
  · refine (entriesAt_writeBytes s.mem _ cb hwf).congr fun b hlo hhi => Memory.read_writeBytes_outside _ _ _ _ ?_
    exact hufBuild_outputs_disjoint hl hcb hstream hlo hhi
  · exact fun j => getLsbD_read_writeBytes (Memory.writeBytes_wf _ _ _ hwf) _ stream
  · intro b h0 h1
    rw [← length_flatMap_entry] at h0
    exact (Memory.read_writeBytes_outside _ _ _ _ h1).trans (Memory.read_writeBytes_outside _ _ _ _ h0)

end Sys2Proof.Machine

open Sys2Proof Sys2Proof.Machine

/-- Settles O26: the body gives the Codebook and the packed codes, and the commit stores each beside the other. -/
theorem hufBuildWritesCodebookAndBitstream : Obligations.HufBuildWritesCodebookAndBitstream := by
  refine ⟨exists_huffmanCodes, ?_⟩
  rintro s d syms code bits nB hraced hwf hlegal hsrc ha hcode rfl rfl hcap0 hcap1
  have hbody : bodyOf .hufBuild s = _ := (congrArg hufBuild hsrc).trans (hufBuild_eq ha hcode)
  have hlen := length_packBits (d.flatMap code)
  obtain ⟨t, ht, hends, hcb, hstream, hframe⟩ := exec_hufBuild_stores hraced hwf hlegal hbody
    (by rwa [length_codebookFor]) (by rwa [hlen])
  rw [length_codebookFor, hlen] at hframe
  refine ⟨t, ht, hends, hcb, fun j hj => ?_, hframe⟩
  have hj : j < 8 * (packBits (d.flatMap code)).length := by rwa [hlen]
  rw [hstream j hj, streamBit_packBits _ hj]

end

section
/-! SUPPORT. Command words (30_encoding.md R91 to R96): the fields of a word and the word of a field triple are inverse, the
decoder against the encoder, the opcode map as the table of the encoder, and the step that runs the word in CMD. -/

namespace Sys2Proof

/-! ## Fields -/

/-- Field triples are compared field by field. -/
theorem CmdFields.eq_iff (f g : CmdFields) : f = g ↔ f.rsvd = g.rsvd ∧ f.engine = g.engine ∧ f.func = g.func := by
  cases f
  cases g
  rw [CmdFields.mk.injEq]

/-- A word is put together from its fields (R91). -/
@[simp] theorem CmdFields.toWord_fieldsOf (w : Word) : (fieldsOf w).toWord = w := by
  have hhigh : w.extractLsb' 8 24 ++ w.extractLsb' 4 4 = w.extractLsb' 4 28 :=
    BitVec.extractLsb'_append_extractLsb'_eq_extractLsb' rfl
  have hall : w.extractLsb' 4 28 ++ w.extractLsb' 0 4 = w.extractLsb' 0 32 :=
    BitVec.extractLsb'_append_extractLsb'_eq_extractLsb' rfl
  exact (congrArg (· ++ w.extractLsb' 0 4) hhigh).trans (hall.trans BitVec.extractLsb'_eq_self)

/-- The fields of a word are those it was put together from (R91). -/
@[simp] theorem fieldsOf_toWord (f : CmdFields) : fieldsOf f.toWord = f := by
  rw [CmdFields.eq_iff]
  refine ⟨?_, ?_, BitVec.extractLsb'_append_eq_right⟩
  · exact (BitVec.extractLsb'_append_eq_of_le (by decide)).trans BitVec.extractLsb'_append_eq_left
  · exact (BitVec.extractLsb'_append_eq_of_le (by decide)).trans BitVec.extractLsb'_append_eq_right

theorem fieldsOf_eq_iff (w : Word) (f : CmdFields) : fieldsOf w = f ↔ w = f.toWord :=
  ⟨fun h => by rw [← h, CmdFields.toWord_fieldsOf], fun h => by rw [h, fieldsOf_toWord]⟩

/-! ## The decoder -/

/-- The reserved bits of a command's word are 0 (R91). -/
@[simp] theorem Instr.fields_rsvd (i : Instr) : i.fields.rsvd = 0 := by cases i <;> rfl

/-- R94: the command of an ENGINE and a FUNC value is the one with these fields. -/
theorem lookup_eq_ok_iff (engine func : BitVec 4) (i : Instr) :
    lookup engine func = .ok i ↔ engine = i.fields.engine ∧ func = i.fields.func := by
  constructor
  · intro h
    unfold lookup at h
    split at h
    case h_14 => split at h <;> cases h
    all_goals
      next hengine hfunc =>
        cases h
        exact ⟨BitVec.eq_of_toNat_eq hengine, BitVec.eq_of_toNat_eq hfunc⟩
  · rintro ⟨rfl, rfl⟩
    cases i <;> rfl

theorem decode_of_rsvd_eq {w : Word} (h : (fieldsOf w).rsvd = 0) :
    decode w = lookup (fieldsOf w).engine (fieldsOf w).func := if_pos h

/-- R96: a reserved bit that is set makes the word illegal. -/
theorem decode_of_rsvd_ne {w : Word} (h : (fieldsOf w).rsvd ≠ 0) : decode w = .error .reservedBits := if_neg h

/-- R95: a word decodes as the command with its fields. -/
theorem decode_eq_ok_iff_fields (w : Word) (i : Instr) : decode w = .ok i ↔ fieldsOf w = i.fields := by
  by_cases hrsvd : (fieldsOf w).rsvd = 0
  · rw [decode_of_rsvd_eq hrsvd, lookup_eq_ok_iff, CmdFields.eq_iff, i.fields_rsvd, and_iff_right hrsvd]
  · rw [decode_of_rsvd_ne hrsvd]
    exact iff_of_false nofun fun h => hrsvd (h ▸ i.fields_rsvd)

/-- The decoder accepts the words of the encoder only, each as its command (R94, R95). -/
theorem decode_eq_ok_iff (w : Word) (i : Instr) : decode w = .ok i ↔ w = encode i :=
  (decode_eq_ok_iff_fields w i).trans (fieldsOf_eq_iff w i.fields)

@[simp] theorem decode_encode (i : Instr) : decode (encode i) = .ok i := (decode_eq_ok_iff _ i).2 rfl

/-! ## The opcode map -/

/-- The commands in the order of the rows of R94. -/
def opcodeRows : List Instr :=
  [.nop, .saPrep, .saSais, .saPd, .bwtFwd, .bwtInv, .alphaScan, .mtfEnc, .mtfDec, .rleEnc, .rleDec, .hufBuild, .hufDec]

theorem mem_opcodeRows (i : Instr) : i ∈ opcodeRows := by cases i <;> decide

/-- A word is a row's, with that row's command, exactly if the decoder accepts it so. -/
theorem decode_eq_ok_iff_mem_words (w : Word) (i : Instr) :
    decode w = .ok i ↔ (w, i) ∈ opcodeRows.map fun j => (encode j, j) := by
  simp [decode_eq_ok_iff, mem_opcodeRows, eq_comm (a := w)]

/-- The ENGINE and FUNC values of the rows of R94. -/
def opcodePairs : List (Nat × Nat) := opcodeRows.map fun i => (i.fields.engine.toNat, i.fields.func.toNat)

theorem mem_opcodePairs_iff (engine func : Nat) :
    (engine, func) ∈ opcodePairs ↔ ∃ i : Instr, i.fields.engine.toNat = engine ∧ i.fields.func.toNat = func := by
  simp [opcodePairs, mem_opcodeRows]

/-- The reserved engines 7 to 15 have no row (R91, R94). -/
theorem not_mem_opcodePairs_of_reserved {engine func : Nat} (h : 7 ≤ engine) : (engine, func) ∉ opcodePairs := by
  rw [mem_opcodePairs_iff]
  rintro ⟨i, rfl, -⟩
  exact absurd h (by cases i <;> decide)

/-- A word names a command exactly if bits 31:8 are 0 and ENGINE and FUNC are a row's (R91, R94). -/
theorem exists_decode_eq_ok_iff (w : Word) :
    (∃ i, decode w = .ok i) ↔
      (fieldsOf w).rsvd = 0 ∧ ((fieldsOf w).engine.toNat, (fieldsOf w).func.toNat) ∈ opcodePairs := by
  rw [mem_opcodePairs_iff]
  constructor
  · rintro ⟨i, hd⟩
    rw [(decode_eq_ok_iff_fields w i).1 hd]
    exact ⟨i.fields_rsvd, i, rfl, rfl⟩
  · rintro ⟨hrsvd, i, hengine, hfunc⟩
    refine ⟨i, (decode_eq_ok_iff_fields w i).2 ((CmdFields.eq_iff _ _).2 ⟨?_, ?_, ?_⟩)⟩
    · rw [hrsvd, i.fields_rsvd]
    · exact BitVec.eq_of_toNat_eq hengine.symm
    · exact BitVec.eq_of_toNat_eq hfunc.symm

/-- R96: which words are illegal. -/
theorem forall_decode_ne_ok_iff (w : Word) :
    (∀ i, decode w ≠ .ok i) ↔ (fieldsOf w).rsvd ≠ 0 ∨ 7 ≤ (fieldsOf w).engine.toNat ∨
      ((fieldsOf w).engine.toNat, (fieldsOf w).func.toNat) ∉ opcodePairs := by
  rw [← not_exists, exists_decode_eq_ok_iff, not_and_or]
  exact or_congr Iff.rfl ⟨.inr, fun h => h.elim not_mem_opcodePairs_of_reserved id⟩

end Sys2Proof

namespace Sys2Proof.Machine

/-! ## The step that runs the word in CMD -/

variable {s : State}

/-- R95, R112: the sequencer's step runs the command in CMD. -/
theorem step_command {i : Instr} (hbusy : s.status.busy = true) (hturn : s.delay = 0 ∨ s.host = [])
    (hd : decode s.cmd = .ok i) : step s = exec i s :=
  (step_sequencer s hbusy hturn).trans (complete_command s i hd)

/-- R96, R262, R263: the sequencer's step on an illegal word in CMD. -/
theorem step_illegal (hbusy : s.status.busy = true) (hturn : s.delay = 0 ∨ s.host = [])
    (hd : ∀ i, decode s.cmd ≠ .ok i) : step s = .next (takeFault none ⟨.illegalCommand, s.cmd⟩ s) := by
  rw [step_sequencer s hbusy hturn]
  cases he : decode s.cmd with
  | ok i => exact absurd he (hd i)
  | error e => exact complete_illegal s e he

/-- R110, R111: a write to CMD while idle is an acceptance, whatever the word. -/
theorem step_writeCmd_idle {w : Word} {rest : List HostAction} (hidle : s.status.busy = false)
    (hh : s.host = .writeWindow 4 0x04 w :: rest) :
    step s = .next (accept w { s with host := rest, delay := s.delay - 1 }) := by
  rw [step_writeWindow (.inl hidle) hh rfl (by decide)]
  exact congrArg Host.Outcome.next (writeWindowAt_idle (s := { s with host := rest, delay := s.delay - 1 }) hidle .cmd)

theorem withFetchWord_toNat (s : State) (w : Word) : s.withFetchWord 32 w.toNat = withCommand s w := by
  rw [State.withFetchWord, BitVec.ofNat_toNat, BitVec.setWidth_eq]

end Sys2Proof.Machine

open Sys2Proof Sys2Proof.Machine

/-- Settles O2: the opcode map is the table of the encoder, and the decoder accepts the encoder's words. -/
theorem decoderAcceptsExactlyTheOpcodeMap : Obligations.DecoderAcceptsExactlyTheOpcodeMap :=
  ⟨decode_eq_ok_iff_mem_words, complete_command⟩

/-- Settles O5: a word that names no command has no row of R94; acceptance does not look at the word, and the completion of an
illegal one takes a fault without a command. -/
theorem illegalWordsAreAcceptedAndFault : Obligations.IllegalWordsAreAcceptedAndFault := by
  refine ⟨forall_decode_ne_ok_iff, fun s w rest hidle hh => ?_, fun s hbusy hturn hd => ?_⟩
  · exact ⟨_, step_writeCmd_idle hidle hh, rfl, rfl⟩
  · exact ⟨_, step_illegal hbusy hturn hd, finish_endsWith _ _ _ _ _, rfl⟩

/-- Settles O1: `decode_encode`, and the word of each row is well formed. -/
theorem decodeOfEncodeIsTheCommand : Obligations.DecodeOfEncodeIsTheCommand :=
  fun i => ⟨by cases i <;> rfl, decode_encode i⟩

/-- Settles O3: four words of the encoder, and three words that fail one test of R95 each. -/
theorem sampleWordsDecodeAsTheTableSays : Obligations.SampleWordsDecodeAsTheTableSays :=
  ⟨decode_encode .nop, decode_encode .saSais, decode_encode .rleEnc, decode_encode .hufDec, by decide, by decide, by decide⟩

/-- Settles O4: the sequencer's step on the word in CMD, which `withFetchWord` puts there. -/
theorem stepRunsTheAcceptedCommand : Obligations.StepRunsTheAcceptedCommand := by
  refine ⟨fun s i hbusy hturn hd => step_command hbusy hturn hd, fun s w i hd => ?_⟩
  rw [withFetchWord_toNat]
  exact step_command rfl (.inl rfl) hd

/-- Settles O13: `stmtActions` on the statements of R100. -/
theorem runStatementIsTheWritesOfItsExample : Obligations.RunStatementIsTheWritesOfItsExample :=
  ⟨⟨rfl, rfl⟩, rfl, rfl, rfl, rfl, rfl⟩

end

section
/-! SUPPORT. The sequencer (40_sequencer.md): the checks of R114 in their order, the first that raises; which errors a completion can
report (R260); what a command reads (R119); and the bound on the time to completion (R112; log 4). -/

namespace Sys2Proof.Machine

section
variable {i : Instr} {s : State}

/-! ## The first check that raises (R114) -/

theorem sizeCheck_eq (i : Instr) (s : State) :
    sizeCheck i s = ([.src0, .src1, .param] : List Operand).findSome? fun k =>
      if OverLimit i s k then some ⟨.tooLarge, infoOf k.id⟩ else none := by
  unfold sizeCheck
  exact congrArg (fun f => List.findSome? f _) (funext fun k => if_congr (tooLarge_iff i s k) rfl rfl)

/-- A check that raises for the elements with `p`: the first of them is what it answers. -/
theorem findSome?_ite_first {α : Type} {p : α → Prop} [DecidablePred p] {f : α → Raise} {l before after : List α} {k : α}
    (hl : l = before ++ k :: after) (hk : p k) (hbefore : ∀ j ∈ before, ¬ p j) :
    (l.findSome? fun j => if p j then some (f j) else none) = some (f k) :=
  findSome?_at _ l before after k hl (fun j hj => if_neg (hbefore j hj)) _ (if_pos hk)

/-- Stages 2 to 4, the first that raises (R114, R265). -/
theorem preCheck_eq_or (i : Instr) (s : State) :
    preCheck i s = (sizeCheck i s).or ((addressCheck i s).or (overlapCheck i s)) := by
  unfold preCheck
  cases sizeCheck i s with
  | some r => rfl
  | none => cases addressCheck i s <;> rfl

theorem capacityCheck_eq (i : Instr) (b : BodyResult) (s : State) :
    capacityCheck i b s = ([.dst0, .dst1] : List Operand).findSome? fun k =>
      if (operandSize i k).isSome = true ∧ operandCount s.args k < (b.out k).count then some ⟨.outputOverflow, infoOf k.id⟩
      else none := by
  unfold capacityCheck
  exact congrArg (fun f => List.findSome? f _) (funext fun k => if_congr (by simp) rfl rfl)

theorem exec_capacity_error {b : BodyResult} {r : Raise} (hr : s.raced = false) (hl : OperandsLegal i s)
    (hb : bodyOf i s = .ok b) (hc : capacityCheck i b s = some r) : exec i s = .next (takeFault (some i) r s) := by
  rw [exec_not_raced i s hr]
  unfold completeWith
  rw [(preCheck_eq_none_iff i s).2 hl]
  simp only [hb, hc]

theorem exec_preCheck_error {r : Raise} (hr : s.raced = false) (hp : preCheck i s = some r) :
    exec i s = .next (takeFault (some i) r s) := by
  rw [exec_not_raced i s hr]
  unfold completeWith
  rw [hp]

/-! ## Errors that a completion does not report (R260) -/

/-- The codes number the errors in the order of their declaration, from 1. -/
theorem ErrorKind.toNat_code (k : ErrorKind) : k.code.toNat = k.ctorIdx + 1 := by cases k <;> rfl

theorem ErrorKind.code_injective : Function.Injective ErrorKind.code := by
  intro k l h
  have hidx : k.ctorIdx = l.ctorIdx := by
    have hnat := congrArg BitVec.toNat h
    rw [k.toNat_code, l.toNat_code] at hnat
    omega
  rw [← ErrorKind.ofNat_ctorIdx k, hidx, ErrorKind.ofNat_ctorIdx]

theorem ErrorKind.code_ne_zero (k : ErrorKind) : k.code ≠ 0 := by cases k <;> decide

/-- An error of stages 1 to 4 that the shared checks do not raise is not reported at all. -/
theorem exec_errcode_ne {k : ErrorKind} (hr : s.raced = false) (hstage : k.stage ≤ 4)
    (hno : ∀ r, preCheck i s = some r → r.kind ≠ k) : ∃ t, exec i s = .next t ∧ t.status.errcode ≠ k.code := by
  have hfault (r : Raise) (h : r.kind ≠ k) : (takeFault (some i) r s).status.errcode ≠ k.code :=
    ErrorKind.code_injective.ne h
  refine ⟨_, exec_not_raced i s hr, ?_⟩
  rcases completeWith_cases i (bodyOf i) s with
    ⟨r, hp, ht⟩ | ⟨-, r, hb, ht⟩ | ⟨-, b, -, ⟨r, hc, ht⟩ | ⟨-, ht⟩⟩ <;> rw [ht]
  · exact hfault r (hno r hp)
  · refine hfault r fun h => ?_
    rw [← h, bodyOf_error_stage i s r hb] at hstage
    omega
  · refine hfault r fun h => ?_
    rw [← h, capacityCheck_kind i b s r hc] at hstage
    exact absurd hstage (by decide)
  · exact k.code_ne_zero.symm

end

/-! ## What a command reads (R119) -/

/-- Two states that agree on what R119 names: the parameters, the used argument registers and the bytes of the used source
ranges. -/
structure SameOperands (i : Instr) (s t : State) : Prop where
  params : s.params = t.params
  regs : ∀ k, (operandSize i k).isSome = true →
    operandAddr s.args k = operandAddr t.args k ∧ operandCount s.args k = operandCount t.args k
  param : i = .hufDec → s.args.param = t.args.param
  bytes : ∀ b, inRanges (srcRanges i s.args) b = true → s.mem.read b = t.mem.read b

namespace SameOperands

variable {i : Instr} {s t : State} (h : SameOperands i s t)
include h

theorem overLimit_iff (k : Operand) : OverLimit i s k ↔ OverLimit i t k := by
  unfold OverLimit
  split
  · exact and_congr_right fun hi => by rw [h.params, h.param hi]
  · exact and_congr_right fun hk => by rw [h.params, (h.regs k hk).2]

theorem outsideMemory_iff (k : Operand) : OutsideMemory i s k ↔ OutsideMemory i t k :=
  and_congr_right fun hk => by rw [h.params, (h.regs k hk).1, (h.regs k hk).2]

theorem overlapping_iff (a b : Operand) : Overlapping i s a b ↔ Overlapping i t a b :=
  and_congr_right fun ha => and_congr_right fun hb => by
    rw [(h.regs a ha).1, (h.regs a ha).2, (h.regs b hb).1, (h.regs b hb).2]

/-- Stages 2 to 4 answer alike. -/
theorem preCheck_eq : preCheck i s = preCheck i t := by
  unfold preCheck
  simp only [sizeCheck_eq, addressCheck_eq, overlapCheck_eq, h.overLimit_iff, h.outsideMemory_iff, h.overlapping_iff]

theorem operandsLegal (hl : OperandsLegal i s) : OperandsLegal i t := by
  rwa [← preCheck_eq_none_iff, ← h.preCheck_eq, preCheck_eq_none_iff]

/-- Stage 6 answers alike. -/
theorem capacityCheck_eq (b : BodyResult) : capacityCheck i b s = capacityCheck i b t := by
  simp only [Machine.capacityCheck_eq]
  refine congrArg (fun f => List.findSome? f _) (funext fun k => if_congr ?_ rfl rfl)
  exact and_congr_right fun hk => by rw [(h.regs k hk).2]

/-- A byte of a used source is the same in both. -/
theorem read_eq {k : Operand} {u b : Nat} (hk : k ∈ ([.src0, .src1] : List Operand)) (hu : operandSize i k = some u)
    (hlo : operandAddr s.args k ≤ b) (hhi : b < operandAddr s.args k + u * operandCount s.args k) :
    s.mem.read b = t.mem.read b :=
  h.bytes b ((inRanges_rangesOf _ _ _ b).2 ⟨k, hk, u, hu, (contains_rangeOfSize _ _ _ _).2 ⟨hlo, hhi⟩⟩)

theorem addr_eq {k : Operand} {u : Nat} (hu : operandSize i k = some u) :
    operandAddr s.args k = operandAddr t.args k := (h.regs k (by rw [hu]; rfl)).1

theorem count_eq {k : Operand} {u : Nat} (hu : operandSize i k = some u) :
    operandCount s.args k = operandCount t.args k := (h.regs k (by rw [hu]; rfl)).2

/-- `Bytes` of a used source of bytes. -/
theorem bytesOf_eq {k : Operand} (hk : k ∈ ([.src0, .src1] : List Operand)) (hu : operandSize i k = some 1) :
    s.bytesOf k = t.bytesOf k := by
  unfold State.bytesOf
  rw [← h.addr_eq hu, ← h.count_eq hu]
  exact Memory.readBytes_congr _ _ _ _ fun b hlo hhi => h.read_eq hk hu hlo (by omega)

/-- `Words` of a used source of suffix-array entries. -/
theorem wordsOf_eq {k : Operand} (hk : k ∈ ([.src0, .src1] : List Operand)) (hu : operandSize i k = some 4) :
    s.wordsOf k = t.wordsOf k := by
  unfold State.wordsOf
  rw [← h.addr_eq hu, ← h.count_eq hu]
  refine List.map_congr_left fun j hj => congrArg leNat (Memory.readBytes_congr _ _ _ _ fun b hlo hhi => ?_)
  have hj := List.mem_range.1 hj
  exact h.read_eq hk hu (by omega) (by omega)

/-- `Entries` of a used source of codebook entries. -/
theorem entriesOf_eq {k : Operand} (hk : k ∈ ([.src0, .src1] : List Operand)) (hu : operandSize i k = some 6) :
    s.entriesOf k = t.entriesOf k := by
  unfold State.entriesOf
  rw [← h.addr_eq hu, ← h.count_eq hu]
  refine List.map_congr_left fun j hj => ?_
  have hj := List.mem_range.1 hj
  have hread (d : Nat) (hd : d < 6) :
      s.mem.read (operandAddr s.args k + 6 * j + d) = t.mem.read (operandAddr s.args k + 6 * j + d) :=
    h.read_eq hk hu (by omega) (by omega)
  have hcode : s.mem.readBytes (operandAddr s.args k + 6 * j + 2) 4 =
      t.mem.readBytes (operandAddr s.args k + 6 * j + 2) 4 :=
    Memory.readBytes_congr _ _ _ _ fun b hlo hhi => h.read_eq hk hu (by omega) (by omega)
  have hsym := hread 0 (by omega)
  rw [Nat.add_zero] at hsym
  simp only [Memory.readEntry, Memory.readLE, hsym, hread 1 (by omega), hcode]

theorem bytesOf_src0 (hu : operandSize i .src0 = some 1) : s.bytesOf .src0 = t.bytesOf .src0 :=
  h.bytesOf_eq (by decide) hu

/-- Stage 5 answers alike (R120, R121). -/
theorem bodyOf_eq : bodyOf i s = bodyOf i t := by
  cases i with
  | nop => rfl
  | saPrep => exact congrArg prepText (h.bytesOf_src0 rfl)
  | saSais => exact congrArg (buildSuffixArray inducedSort) (h.bytesOf_src0 rfl)
  | saPd => exact congrArg (buildSuffixArray prefixDoubling) (h.bytesOf_src0 rfl)
  | bwtFwd => exact congrArg₂ forwardTransform (h.bytesOf_src0 rfl) (h.wordsOf_eq (by decide) rfl)
  | bwtInv => exact congrArg inverseTransform (h.bytesOf_src0 rfl)
  | alphaScan => simp only [bodyOf, bodyAlphaScan, h.bytesOf_src0 rfl]
  | mtfEnc => exact congrArg₂ (recencyCoder mtfEncode) (h.bytesOf_src0 rfl) (h.bytesOf_eq (by decide) rfl)
  | mtfDec => exact congrArg₂ (recencyCoder mtfDecode) (h.bytesOf_src0 rfl) (h.bytesOf_eq (by decide) rfl)
  | rleEnc => simp only [bodyOf, bodyRleEnc, h.bytesOf_src0 rfl]
  | rleDec => simp only [bodyOf, bodyRleDec, h.bytesOf_src0 rfl]
  | hufBuild => exact congrArg hufBuild (h.bytesOf_src0 rfl)
  | hufDec =>
    simp only [bodyOf, bodyHufDec, operandCount, h.bytesOf_src0 rfl, h.entriesOf_eq (k := .src1) (by decide) rfl, h.param rfl]

/-- The two completions take the same fault or commit the same outputs (R119). -/
theorem exec_alike (hs : s.raced = false) (ht : t.raced = false) :
    (∃ r, exec i s = .next (takeFault (some i) r s) ∧ exec i t = .next (takeFault (some i) r t)) ∨
      ∃ b, exec i s = .next (commit i b s) ∧ exec i t = .next (commit i b t) := by
  rw [exec_not_raced i s hs]
  rcases completeWith_cases i (bodyOf i) s with
    ⟨r, hp, hx⟩ | ⟨hl, r, hb, hx⟩ | ⟨hl, b, hb, ⟨r, hc, hx⟩ | ⟨hc, hx⟩⟩ <;> rw [hx]
  · exact .inl ⟨r, rfl, exec_preCheck_error ht (h.preCheck_eq ▸ hp)⟩
  · exact .inl ⟨r, rfl, exec_body_error i t r ht (h.operandsLegal hl) (h.bodyOf_eq ▸ hb)⟩
  · exact .inl ⟨r, rfl, exec_capacity_error ht (h.operandsLegal hl) (h.bodyOf_eq ▸ hb) (h.capacityCheck_eq b ▸ hc)⟩
  · exact .inr ⟨b, rfl, exec_commit i t b ht (h.operandsLegal hl) (h.bodyOf_eq ▸ hb) (h.capacityCheck_eq b ▸ hc)⟩

end SameOperands

/-! ## The time to completion (R112; log 4) -/

section
variable {s t : State}

/-- The sequencer's step clears BUSY, for a command and for an illegal word. -/
theorem complete_clears_busy (s : State) : ∃ t, complete s = .next t ∧ t.status.busy = false := by
  cases hd : decode s.cmd with
  | ok i =>
    rw [complete_command s i hd]
    refine ⟨_, exec_next i s, ?_⟩
    rcases exec_next_cases (exec_next i s) with ⟨trail, res, m, -, ht⟩ | ⟨k, info, res, m, -, ht⟩ <;> rw [ht] <;> rfl
  | error e => exact ⟨_, complete_illegal s e hd, rfl⟩

/-- No action in the host's queue can stop the model. -/
def HostRuns (s : State) : Prop := ∀ a ∈ s.host, actionRuns s.params.memSize a = true

/-- After the host action `a` in the state `s`, the command is still in progress in `t`, its delay and the parameters as before, and
the host has nothing new to do: `WAIT` puts itself back in the queue (R99). -/
structure StillBusy (a : HostAction) (s t : State) : Prop where
  busy : t.status.busy = true
  delay : t.delay = s.delay
  params : t.params = s.params
  host : ∀ b ∈ t.host, b = a ∨ b ∈ s.host

/-- A host action that cannot stop the model, while a command is in progress: a reset ends the command, any other action leaves it
in progress. -/
theorem hostAct_of_runs {a : HostAction} (hbusy : s.status.busy = true) (ha : actionRuns s.params.memSize a = true) :
    ∃ t, hostAct a s = .next t ∧ (t.status.busy = false ∨ StillBusy a s t) := by
  cases a with
  | writeWindow bytes offset v =>
    refine ⟨s, ?_, .inr ⟨hbusy, rfl, rfl, fun _ => .inr⟩⟩
    exact (if_pos ha).trans (congrArg _ (writeWindowAt_busy hbusy))
  | readWindow bytes offset => exact ⟨_, if_pos ha, .inr ⟨hbusy, rfl, rfl, fun _ => .inr⟩⟩
  | writeByte addr v => exact ⟨_, if_pos (of_decide_eq_true ha), .inr ⟨hbusy, rfl, rfl, fun _ => .inr⟩⟩
  | readByte addr =>
    obtain ⟨d, k, hnext, -⟩ := hostReadByte_next (of_decide_eq_true ha)
    exact ⟨_, hnext, .inr ⟨hbusy, rfl, rfl, fun _ => .inr⟩⟩
  | wait =>
    refine ⟨_, rfl, .inr ⟨hbusy, rfl, rfl, fun b hb => ?_⟩⟩
    rw [if_pos hbusy] at hb
    exact List.mem_cons.1 hb
  | expectData v => cases ha
  | reset => exact ⟨_, rfl, .inl rfl⟩

/-- The host's step while a command is in progress ends it, or leaves one host action less before its completion. -/
theorem step_host_of_runs (hbusy : s.status.busy = true) (hdelay : s.delay ≠ 0) (hhost : s.host ≠ []) (hruns : HostRuns s) :
    ∃ t, step s = .next t ∧
      (t.status.busy = false ∨ t.status.busy = true ∧ t.delay = s.delay - 1 ∧ HostRuns t) := by
  obtain ⟨a, rest, hh⟩ := List.exists_cons_of_ne_nil hhost
  unfold HostRuns at hruns
  rw [hh] at hruns
  obtain ⟨t, ht, hcase⟩ :=
    hostAct_of_runs (s := takeAction a rest s) (a := a) hbusy (hruns a List.mem_cons_self)
  refine ⟨t, (step_host s a rest (.inr hdelay) hh).trans ht, hcase.imp_right fun hstill => ?_⟩
  refine ⟨hstill.busy, hstill.delay, fun b hb => ?_⟩
  rw [hstill.params]
  exact hruns b (List.mem_cons.2 (hstill.host b hb))

/-- A run of one step more, when the first step goes on. -/
theorem run_succ_of_step {M : Host.Core} {s t : M.State} (k : Nat) (h : M.step s = .next t) : M.run (k + 1) s = M.run k t := by
  rw [Host.Core.run, h]

theorem core_run_succ (k : Nat) (h : step s = .next t) : core.run (k + 1) s = core.run k t := run_succ_of_step (M := core) k h

/-- R112, by recursion on the host actions left before the completion. -/
theorem busy_cleared_within_delay {s : State} (hbusy : s.status.busy = true) (hruns : HostRuns s) :
    ∃ k t, k ≤ s.delay + 1 ∧ core.run k s = .next t ∧ t.status.busy = false := by
  by_cases hturn : s.delay = 0 ∨ s.host = []
  · obtain ⟨t, ht, hidle⟩ := complete_clears_busy s
    exact ⟨1, t, by omega, core_run_succ 0 ((step_sequencer s hbusy hturn).trans ht), hidle⟩
  · obtain ⟨hdelay, hhost⟩ := not_or.1 hturn
    obtain ⟨t, ht, hidle | ⟨hbusy', hless, hruns'⟩⟩ := step_host_of_runs hbusy hdelay hhost hruns
    · exact ⟨1, t, by omega, core_run_succ 0 ht, hidle⟩
    · obtain ⟨k, u, hk, hu, hidle⟩ := busy_cleared_within_delay hbusy' hruns'
      exact ⟨k + 1, u, by omega, (core_run_succ k ht).trans hu, hidle⟩
termination_by s.delay

end

end Sys2Proof.Machine

open Sys2Proof Sys2Proof.Machine

/-- Settles O44: the checks, the body and the capacities are functions of what the two states share. -/
theorem outcomeDependsOnlyOnUsedOperands : Obligations.OutcomeDependsOnlyOnUsedOperands := by
  intro i s1 s2 hr1 hr2 hparams hregs hparam hbytes
  have hsame : SameOperands i s1 s2 := ⟨hparams, hregs, hparam, hbytes⟩
  rcases hsame.exec_alike hr1 hr2 with ⟨r, h1, h2⟩ | ⟨b, h1, h2⟩
  · exact ⟨_, _, h1, h2, rfl, rfl, rfl, nofun⟩
  · exact ⟨_, _, h1, h2, rfl, rfl, rfl, fun _ => ⟨b, rfl, rfl⟩⟩

/-- Settles O28: stage 2 is the first to raise, and no other stage raises TooLarge. -/
theorem sizeLimitIsCheckedInOrder : Obligations.SizeLimitIsCheckedInOrder := by
  intro i s hr
  constructor
  · intro k before after hl hk hbefore
    have hcheck := (sizeCheck_eq i s).trans (findSome?_ite_first hl hk hbefore)
    exact exec_faultsEarly i s _ hr (by rw [preCheck_eq_or, hcheck, Option.some_or])
  · intro hsize
    refine exec_errcode_ne hr (by decide) fun r hp => ?_
    rw [preCheck_eq_or, (sizeCheck_eq_none i s).2 hsize, Option.none_or, Option.or_eq_some_iff] at hp
    rcases hp with hp | ⟨-, hp⟩
    · rw [addressCheck_kind i s r hp]; decide
    · rw [overlapCheck_kind i s r hp]; decide

/-- Settles O29: once the sizes pass, stage 3 is the first to raise, and no later stage raises AddressError. -/
theorem addressRangeIsCheckedInOrder : Obligations.AddressRangeIsCheckedInOrder := by
  intro i s hr hsize
  have hpre := preCheck_eq_or i s
  rw [(sizeCheck_eq_none i s).2 hsize, Option.none_or] at hpre
  constructor
  · intro k before after hl hk hbefore
    have hcheck := (addressCheck_eq i s).trans (findSome?_ite_first hl hk hbefore)
    exact exec_faultsEarly i s _ hr (by rw [hpre, hcheck, Option.some_or])
  · intro haddr
    refine exec_errcode_ne hr (by decide) fun r hp => ?_
    rw [hpre, (addressCheck_eq_none i s).2 haddr, Option.none_or] at hp
    rw [overlapCheck_kind i s r hp]
    decide

/-- Settles O30: once sizes and addresses pass, stage 4 is the first to raise, and legal operands raise nothing in stages 2 to 4. -/
theorem overlapIsCheckedInOrder : Obligations.OverlapIsCheckedInOrder := by
  intro i s hr hsize haddr
  constructor
  · intro a b before after hl hab hbefore
    have hcheck := (overlapCheck_eq i s).trans (findSome?_ite_first hl hab hbefore)
    refine exec_faultsEarly i s ⟨.bufferOverlap, infoOf (16 * a.id + b.id)⟩ hr ?_
    rw [preCheck_eq_or, (sizeCheck_eq_none i s).2 hsize, (addressCheck_eq_none i s).2 haddr, Option.none_or, Option.none_or,
      hcheck]
  · intro hl
    refine exec_errcode_ne hr (by decide) fun r hp => ?_
    rw [(preCheck_eq_none_iff i s).2 hl] at hp
    cases hp

/-- Settles O31: a body's error is of stage 5; outputs that fit are committed; else stage 6 raises for the first that does not. -/
theorem capacityIsCheckedAfterTheBody : Obligations.CapacityIsCheckedAfterTheBody := by
  intro i s hr hl
  refine ⟨fun r hb => ⟨exec_faultsLate i s r hr hl hb, fun hkind => ?_⟩, fun b hb hfits => ?_, ?_⟩
  · have hstage := bodyOf_error_stage i s r hb
    rw [hkind] at hstage
    exact absurd hstage (by decide)
  · exact ⟨_, exec_commit i s b hr hl hb ((capacityCheck_eq_none i b s).2 hfits), finish_endsWith _ _ _ _ _⟩
  · intro b k before after hb hlist hused hover hbefore
    have hcheck := (capacityCheck_eq i b s).trans (findSome?_ite_first hlist ⟨hused, hover⟩ fun j hj hno =>
      Nat.not_lt.2 (hbefore j hj hno.1) hno.2)
    exact ⟨_, exec_capacity_error hr hl hb hcheck, finish_endsWith _ _ _ _ _, takeFault_unchangedOutside i _ s⟩

/-- Settles O45: the completion clears BUSY, and each host action before it leaves one less to come or resets the block. -/
theorem busyBlockCompletes : Obligations.BusyBlockCompletes := by
  refine ⟨fun s hbusy hturn => ?_, fun s hbusy hruns => busy_cleared_within_delay hbusy hruns⟩
  rw [step_sequencer s hbusy hturn]
  exact complete_clears_busy s

/-- Settles O7: the step is the acceptance of the word. -/
theorem commandWriteWhileIdleIsAccepted : Obligations.CommandWriteWhileIdleIsAccepted := by
  intro s w rest hidle hh
  exact ⟨_, step_writeCmd_idle hidle hh, rfl, rfl, rfl, rfl, rfl, rfl, rfl, rfl⟩

/-- Settles O14: NOP has no operand to check, and its commit stores nothing. -/
theorem nopCompletes : Obligations.NopCompletes := by
  refine ⟨rfl, fun s hr => ?_⟩
  have hx := exec_commit .nop s _ hr ((preCheck_eq_none_iff .nop s).1 (preCheck_nop s)) rfl (capacityCheck_nop _ s)
  have hword : (doneStatus false).toWord = 0x00000002 := by decide
  exact ⟨_, hx, finish_endsWith _ _ _ _ _, hword, rfl⟩

end

section
/-! SUPPORT. The suffix array builders on Texts and on other sequences (41_suffix_array.md). -/

namespace Sys2Proof.Machine

/-- A sequence with a 0 byte before its last is no Text. -/
theorem wellFormedText_false_of_interiorZero {t : List Byte} {k : Nat} (h : interiorZero t = some k) :
    wellFormedText t = false := by simp [wellFormedText, h]

/-- SA_PREP of an input with no 0 byte before its last. -/
theorem prepText_of_interiorZero_none {input : List Byte} (h : interiorZero input = none) :
    prepText input =
      let text := if input.getLast? = some 0 then input else input ++ [0]
      .ok ⟨.bytes text, .bytes [], ⟨infoOf text.length, infoOf (text.length - 1),
        if input.getLast? = some 0 then 1 else 0⟩, false⟩ := by
  have hhad : infoOf (input.getLast? == some 0).toNat = if input.getLast? = some 0 then 1 else 0 := by
    by_cases hlast : input.getLast? = some 0
    · simp [hlast, infoOf]
    · rw [if_neg hlast, beq_eq_false_iff_ne.2 hlast]
      rfl
  simp only [prepText, h, sentinel, beq_iff_eq, hhad]

/-- A builder refuses a sequence that is no Text. -/
theorem buildSuffixArray_of_not_wellFormed {builder : List Nat → List Nat} {t : List Byte} (h : wellFormedText t = false) :
    buildSuffixArray builder t = .error ⟨.sentinelViolation, infoOf (sentinelInfo t)⟩ := by simp [buildSuffixArray, h]

/-- A builder's command on a Text stores the entries of its procedure at DST0. -/
theorem exec_builder_stores {i : Instr} {s : State} {builder : List Nat → List Nat} (hr : s.raced = false)
    (hwf : s.mem.wf) (hl : OperandsLegal i s) (hbody : bodyOf i s = buildSuffixArray builder (s.bytesOf .src0))
    (h0 : (operandSize i .dst0).isSome = true) (h1 : operandSize i .dst1 = none) (htext : IsText (s.bytesOf .src0))
    (hlen : (builder (symbols (s.bytesOf .src0))).length ≤ operandCount s.args .dst0) :
    ∃ t, exec i s = .next t ∧ EndsWith s t (doneStatus false) 0 ⟨s.args.src0Len, 0, 0⟩ ∧
      Stores s t (operandAddr s.args .dst0)
        ((builder ((s.bytesOf .src0).map BitVec.toNat)).flatMap fun e => leBytes (BitVec.ofNat 32 e)) := by
  have hres : infoOf (s.bytesOf .src0).length = s.args.src0Len := by
    rw [length_bytesOf]; exact infoOf_toNat _
  rw [buildSuffixArray, if_pos (wellFormedText_of_isText _ htext), hres] at hbody
  rw [← words_toBytes]
  exact exec_stores_dst0 i s _ hr hwf hl hbody h0 h1 (by simpa [Payload.count] using hlen)

end Sys2Proof.Machine

open Sys2Proof Sys2Proof.Machine

/-- Settles O15: with no 0 before the last byte the body gives the Text, which is stored at DST0. -/
theorem saPrepAppendsTheSentinel : Obligations.SaPrepAppendsTheSentinel := by
  intro s input text hr hwf hl hinput hzero htext hcap
  have hbody := prepText_of_interiorZero_none ((interiorZero_eq_none input).2 hzero)
  rw [← hinput] at hbody
  subst htext hinput
  exact exec_stores_dst0 .saPrep s _ hr hwf hl hbody rfl rfl hcap

/-- Settles O16: a Text passes the check, and the procedure gives one entry per byte. -/
theorem saSaisWritesItsArray : Obligations.SaSaisWritesItsArray := by
  intro s hr hwf hl htext hcap
  refine exec_builder_stores (builder := inducedSort) hr hwf hl rfl rfl rfl htext ?_
  rw [length_inducedSort, symbols, List.length_map, length_bytesOf]
  exact hcap

/-- Settles O17: a Text passes the check, and the procedure gives at most one entry per byte. -/
theorem saPdWritesItsArray : Obligations.SaPdWritesItsArray := by
  intro s hr hwf hl htext hcap
  refine exec_builder_stores (builder := prefixDoubling) hr hwf hl rfl rfl rfl htext ?_
  refine (length_prefixDoubling_le _).trans ?_
  rw [symbols, List.length_map, length_bytesOf]
  exact hcap

/-- Settles O32: the search for an interior 0 finds the least one. -/
theorem saPrepRefusesAnInteriorZero : Obligations.SaPrepRefusesAnInteriorZero := by
  intro s k hr hl hk hzero hfirst
  have hbody : bodyOf .saPrep s = .error ⟨.sentinelViolation, infoOf k⟩ := by
    simp only [bodyOf, bodySaPrep, prepText, interiorZero_eq_some _ k hk hzero hfirst]
  exact exec_faultsLate .saPrep s _ hr hl hbody

/-- Settles O33: each of the three kinds of sequence fails the check, and `sentinelInfo` is the index named. -/
theorem buildersRefuseAMalformedText : Obligations.BuildersRefuseAMalformedText := by
  intro i s text hi hr hl htext
  have hrefuse (h : wellFormedText text = false) : FaultsLate i s .sentinelViolation (infoOf (sentinelInfo text)) := by
    have hbody : bodyOf i s = .error ⟨.sentinelViolation, infoOf (sentinelInfo text)⟩ := by
      rcases hi with rfl | rfl <;> (subst htext; exact buildSuffixArray_of_not_wellFormed h)
    exact exec_faultsLate i s _ hr hl hbody
  refine ⟨fun hnil => ?_, fun k hk hzero hfirst => ?_, fun hne hall => ?_⟩
  · subst hnil
    exact hrefuse rfl
  · have hint := interiorZero_eq_some text k hk hzero hfirst
    simpa [sentinelInfo, infoOf, hint] using hrefuse (wellFormedText_false_of_interiorZero hint)
  · have hint : interiorZero text = none := (interiorZero_eq_none text).2 fun k hk => hall k (by omega)
    have hlast : text.getLast? ≠ some sentinel := by
      rw [List.getLast?_eq_some_getLast hne]
      have := hall (text.length - 1) (by have := List.length_pos_of_ne_nil hne; omega)
      rw [List.getD_eq_getElem _ _ (by have := List.length_pos_of_ne_nil hne; omega)] at this
      simpa [List.getLast_eq_getElem, sentinel] using this
    simpa [sentinelInfo, infoOf, hint] using hrefuse (by simp [wellFormedText, hlast])

/-- Settles O54: two arrangements of the same positions that both rise strictly are equal. -/
theorem suffixArrayIsUnique : Obligations.SuffixArrayIsUnique := by
  rintro t sa sb ⟨hpa, hsa⟩ ⟨hpb, hsb⟩
  rw [List.pairwise_map] at hsa hsb
  exact (hpa.trans hpb.symm).eq_of_pairwise (fun a b _ _ hab hba => absurd hba hab.asymm) hsa hsb
end

section
/-! SUPPORT. Ranks given along a list sorted by a key: the re-ranking of a doubling round (41_suffix_array.md R153) and
the naming of LMS substrings (R149) are both this. -/

namespace Sys2Proof.Machine

section
variable {κ : Type} [LinearOrder κ]

/-- From the rank `r` of the position before (`prev`), each position of a list gets the same rank if its key equals its
predecessor's, else one more; with the last rank given. -/
def rankAlong (key : Nat → κ) : List Nat → Nat → Nat → List Nat → List Nat × Nat
  | new, r, _, [] => (new, r)
  | new, r, prev, i :: rest =>
    let r' := if key i = key prev then r else r + 1
    rankAlong key (new.set i r') r' i rest

/-- The positions of `l` hold ranks from `low` to `top` that order them as their keys do, and `top` says whether the keys
are all different. -/
structure RanksBy (key : Nat → κ) (l ranks : List Nat) (low top : Nat) : Prop where
  lt_iff : ∀ i ∈ l, ∀ j ∈ l, ranks.getD i 0 < ranks.getD j 0 ↔ key i < key j
  low_le : ∀ i ∈ l, low ≤ ranks.getD i 0
  le_top : ∀ i ∈ l, ranks.getD i 0 ≤ top
  exists_low : ∃ i ∈ l, ranks.getD i 0 = low
  exists_top : ∃ i ∈ l, ranks.getD i 0 = top
  top_lt : top < low + l.length
  strict_iff : top + 1 = low + l.length ↔ l.Pairwise fun i j => key i < key j

theorem rankAlong_of_notMem (key : Nat → κ) {rest : List Nat} (new : List Nat) (r prev : Nat) {j : Nat}
    (hj : j ∉ rest) :
    (rankAlong key new r prev rest).1.getD j 0 = new.getD j 0 := by
  induction rest generalizing new r prev with
  | nil => rfl
  | cons i rest ih =>
    obtain ⟨hji, hj⟩ := not_or.1 (mt List.mem_cons.2 hj)
    rw [rankAlong, ih _ _ _ hj]
    simp [List.getD_eq_getElem?_getD, List.getElem?_set_ne (Ne.symm hji)]

section
variable {key : Nat → κ} {i prev : Nat} {l ranks : List Nat} {r top : Nat}
  (h : RanksBy key (i :: l) ranks (if key i = key prev then r else r + 1) top)
  (hsorted : (prev :: i :: l).Pairwise fun a b => key a ≤ key b) (hprev : ranks.getD prev 0 = r)
include h

/-- Ranks after a front position of rank `r` are at least `r`. -/
theorem RanksBy.front_le {j : Nat} (hj : j ∈ i :: l) : r ≤ ranks.getD j 0 := by
  have := h.low_le j hj
  split at this <;> omega

include hsorted hprev

/-- A front position compares with those after it, if the rank next to it is its own or, where the key is greater, one
more. -/
theorem RanksBy.front_lt_iff (hi : ranks.getD i 0 = if key i = key prev then r else r + 1) {j : Nat} (hj : j ∈ i :: l) :
    ranks.getD prev 0 < ranks.getD j 0 ↔ key prev < key j := by
  obtain ⟨hle, htail⟩ := List.pairwise_cons.1 hsorted
  by_cases heq : key i = key prev
  · rw [hprev, ← heq, ← h.lt_iff i List.mem_cons_self j hj, hi, if_pos heq]
  · have hij : key i ≤ key j := by
      rcases List.mem_cons.1 hj with rfl | hj
      · exact le_rfl
      · exact (List.pairwise_cons.1 htail).1 j hj
    have := h.low_le j hj
    rw [if_neg heq] at this
    exact iff_of_true (by omega) (((hle i List.mem_cons_self).lt_of_ne' heq).trans_le hij)

/-- With a front position the ranks go up to the length exactly if all keys are different. -/
theorem RanksBy.front_strict_iff (hi : ranks.getD i 0 = if key i = key prev then r else r + 1) :
    top + 1 = r + (prev :: i :: l).length ↔ (prev :: i :: l).Pairwise fun a b => key a < key b := by
  have htop := h.top_lt
  rw [List.pairwise_cons, ← h.strict_iff]
  simp only [List.length_cons] at htop ⊢
  by_cases heq : key i = key prev
  · rw [if_pos heq] at htop
    exact iff_of_false (by omega) fun hall => absurd (hall.1 i List.mem_cons_self) heq.not_gt
  · rw [if_neg heq] at htop ⊢
    have hall (j : Nat) (hj : j ∈ i :: l) : key prev < key j := by
      refine (h.front_lt_iff hsorted hprev hi hj).1 ?_
      have := h.low_le j hj
      rw [if_neg heq] at this
      omega
    exact ⟨fun hlen => ⟨hall, by omega⟩, fun ⟨_, hlen⟩ => by omega⟩

/-- A position in front keeps the ranks right. -/
theorem RanksBy.cons (hi : ranks.getD i 0 = if key i = key prev then r else r + 1) :
    RanksBy key (prev :: i :: l) ranks r top := by
  obtain ⟨hle, -⟩ := List.pairwise_cons.1 hsorted
  refine ⟨fun a ha b hb => ?_, fun a ha => ?_, fun a ha => ?_, ⟨prev, List.mem_cons_self, hprev⟩, ?_, ?_,
    h.front_strict_iff hsorted hprev hi⟩
  · rcases List.mem_cons.1 ha with rfl | ha' <;> rcases List.mem_cons.1 hb with rfl | hb'
    · simp only [lt_irrefl]
    · exact h.front_lt_iff hsorted hprev hi hb'
    · have hlow := h.front_le ha'
      exact iff_of_false (by omega) (not_lt.2 (hle a ha'))
    · exact h.lt_iff a ha' b hb'
  · rcases List.mem_cons.1 ha with rfl | ha
    · exact hprev.ge
    · exact h.front_le ha
  · rcases List.mem_cons.1 ha with rfl | ha
    · have hlow := h.front_le List.mem_cons_self
      have htop := h.le_top i List.mem_cons_self
      omega
    · exact h.le_top a ha
  · obtain ⟨a, ha, htop⟩ := h.exists_top
    exact ⟨a, List.mem_cons_of_mem _ ha, htop⟩
  · have htop := h.top_lt
    simp only [List.length_cons] at htop ⊢
    split at htop <;> omega

end

/-- Ranking along a list sorted by key. -/
theorem rankAlong_ranksBy (key : Nat → κ) {rest new : List Nat} {r prev : Nat} (hnodup : (prev :: rest).Nodup)
    (hsorted : (prev :: rest).Pairwise fun i j => key i ≤ key j) (hlt : ∀ i ∈ rest, i < new.length)
    (hprev : new.getD prev 0 = r) :
    RanksBy key (prev :: rest) (rankAlong key new r prev rest).1 r (rankAlong key new r prev rest).2 := by
  induction rest generalizing new r prev with
  | nil => subst hprev; constructor <;> simp [rankAlong]
  | cons i rest ih =>
    obtain ⟨hfresh, hnodup'⟩ := List.nodup_cons.1 hnodup
    have hfirst : (new.set i (if key i = key prev then r else r + 1)).getD i 0 = if key i = key prev then r else r + 1 := by
      simp [List.getD_eq_getElem?_getD, hlt i (by simp)]
    refine (ih hnodup' (List.pairwise_cons.1 hsorted).2 (fun j hj => ?_) hfirst).cons hsorted ?_ ?_
    · simpa using hlt j (by simp [hj])
    · have := rankAlong_of_notMem key new r prev hfresh
      rwa [hprev] at this
    · rw [rankAlong_of_notMem key _ _ _ (List.nodup_cons.1 hnodup').1, hfirst]

end

/-! ## Lexicographic order -/

/-- Longer lists compare as their beginnings do, if those differ and no beginning that was extended is the shorter one. -/
theorem append_lt_append_of_lt {a b c d : List Nat} (h : a < b) (hlen : a.length < b.length → c = []) :
    a ++ c < b ++ d := by
  induction a generalizing b with
  | nil =>
    cases b with
    | nil => exact absurd h (List.not_lt_nil _)
    | cons y b => rw [hlen (by simp)]; exact List.nil_lt_cons _ _
  | cons x a ih =>
    cases b with
    | nil => exact absurd h (List.not_lt_nil _)
    | cons y b =>
      rw [List.cons_append, List.cons_append, List.cons_lt_cons_iff]
      rcases List.cons_lt_cons_iff.1 h with hxy | ⟨hxy, hab⟩
      · exact .inl hxy
      · exact .inr ⟨hxy, ih hab fun hl => hlen (by simpa using hl)⟩

/-- Lists whose first `k` elements differ compare as those do. -/
theorem lt_of_take_lt {u v : List Nat} {k : Nat} (h : u.take k < v.take k) : u < v := by
  rw [← List.take_append_drop k u, ← List.take_append_drop k v]
  refine append_lt_append_of_lt h fun hlen => List.drop_eq_nil_of_le ?_
  simp only [List.length_take] at hlen
  omega

/-- The first `2k` elements compare by the first `k` and then by the `k` after them. -/
theorem take_two_mul_lt_iff (u v : List Nat) (k : Nat) :
    u.take (2 * k) < v.take (2 * k) ↔
      u.take k < v.take k ∨ u.take k = v.take k ∧ (u.drop k).take k < (v.drop k).take k := by
  have hless {u v : List Nat} (h : u.take k < v.take k) : u.take (2 * k) < v.take (2 * k) := by
    rw [two_mul, List.take_add, List.take_add]
    refine append_lt_append_of_lt h fun hlen => ?_
    simp only [List.length_take] at hlen
    rw [List.drop_eq_nil_of_le (by omega), List.take_nil]
  rcases lt_trichotomy (u.take k) (v.take k) with h | h | h
  · exact iff_of_true (hless h) (.inl h)
  · rw [two_mul, List.take_add, List.take_add, h]
    simp only [lt_self_iff_false, false_or, true_and]
    refine ⟨fun hlt => lt_of_not_ge fun hge => ?_, List.append_left_lt⟩
    rcases hge.lt_or_eq with hgt | heq
    · exact hlt.asymm (List.append_left_lt hgt)
    · rw [heq] at hlt
      exact lt_irrefl _ hlt
  · refine iff_of_false (hless h).asymm ?_
    rintro (h' | ⟨h', -⟩)
    · exact h.asymm h'
    · exact h.ne' h'

/-- Suffixes from different positions are different. -/
theorem drop_inj {l : List Nat} {i j : Nat} (hi : i < l.length) (hj : j < l.length) (h : l.drop i = l.drop j) : i = j := by
  have := congrArg List.length h
  simp only [List.length_drop] at this
  omega

/-- `sa` is the suffix array of a sequence of naturals (R142). -/
def Sorts (sym sa : List Nat) : Prop :=
  sa.Perm (List.range sym.length) ∧ sa.Pairwise fun i j => sym.drop i < sym.drop j

theorem isSuffixArray_of_sorts {t : List Byte} {sa : List Nat} (h : Sorts (t.map BitVec.toNat) sa) : IsSuffixArray t sa :=
  ⟨by simpa using h.1, List.pairwise_map.2 h.2⟩

end Sys2Proof.Machine
end

section
/-! SUPPORT. Prefix doubling (41_suffix_array.md R153): before the round with window k the ranks order the positions by the
first k symbols of their suffixes, and a round doubles k. -/

namespace Sys2Proof.Machine

/-- The key of a round, in the lexicographic order of pairs. -/
def roundKey (rank : List Nat) (k i : Nat) : ℕ ×ₗ ℤ := toLex (pdKey rank k i)

theorem keyLe_iff (rank : List Nat) (k i j : Nat) :
    keyLe (pdKey rank k i) (pdKey rank k j) = true ↔ roundKey rank k i ≤ roundKey rank k j := by
  simp [keyLe, roundKey, Prod.Lex.toLex_le_toLex]

/-! ## The sort -/

theorem insertByKey_eq (rank : List Nat) (k i : Nat) (l : List Nat) :
    insertByKey rank k i l = l.orderedInsert (fun a b => roundKey rank k a ≤ roundKey rank k b) i := by
  induction l with
  | nil => rfl
  | cons j l ih => rw [insertByKey, List.orderedInsert_cons, ih]; exact if_congr (keyLe_iff rank k i j) rfl rfl

theorem orderByKey_eq (rank : List Nat) (k : Nat) :
    orderByKey rank k =
      (List.range rank.length).insertionSort fun a b => roundKey rank k a ≤ roundKey rank k b := by
  rw [orderByKey, funext fun i => funext fun l => insertByKey_eq rank k i l]
  rfl

theorem orderByKey_perm (rank : List Nat) (k : Nat) : (orderByKey rank k).Perm (List.range rank.length) := by
  rw [orderByKey_eq]
  exact List.perm_insertionSort _ _

theorem orderByKey_sorted (rank : List Nat) (k : Nat) :
    (orderByKey rank k).Pairwise fun i j => roundKey rank k i ≤ roundKey rank k j := by
  rw [orderByKey_eq]
  have : Std.Total fun a b => roundKey rank k a ≤ roundKey rank k b := ⟨fun _ _ => le_total _ _⟩
  have : IsTrans Nat fun a b => roundKey rank k a ≤ roundKey rank k b := ⟨fun _ _ _ => le_trans⟩
  exact List.pairwise_insertionSort _ _

/-! ## The re-ranking -/

theorem assignRanks_eq (rank : List Nat) (k : Nat) (new : List Nat) (r prev : Nat) (rest : List Nat) :
    assignRanks rank k new r prev rest = (rankAlong (roundKey rank k) new r prev rest).1 := by
  induction rest generalizing new r prev with
  | nil => rfl
  | cons i rest ih => rw [assignRanks, ih, rankAlong]; simp only [roundKey, toLex_inj]

/-- What a round's re-ranking gives. -/
theorem exists_ranksBy_rerank {rank : List Nat} (hne : rank ≠ []) (k : Nat) :
    ∃ top, RanksBy (roundKey rank k) (orderByKey rank k) (rerank rank k (orderByKey rank k)) 0 top := by
  have hperm := orderByKey_perm rank k
  have hsorted := orderByKey_sorted rank k
  cases hord : orderByKey rank k with
  | nil =>
    rw [hord] at hperm
    exact absurd (List.length_eq_zero_iff.1 (by simpa using hperm.length_eq.symm)) hne
  | cons i rest =>
    rw [hord] at hperm hsorted
    have hlt (j : Nat) (hj : j ∈ i :: rest) : j < rank.length := List.mem_range.1 (hperm.mem_iff.1 hj)
    rw [rerank, assignRanks_eq]
    refine ⟨_, rankAlong_ranksBy _ (hperm.nodup_iff.2 List.nodup_range) hsorted (fun j hj => ?_) ?_⟩
    · simpa using hlt j (by simp [hj])
    · simp [List.getD_eq_getElem?_getD, hlt i (by simp)]

theorem length_rerank_orderByKey {rank : List Nat} (hne : rank ≠ []) (k : Nat) :
    (rerank rank k (orderByKey rank k)).length = rank.length := by
  refine length_rerank rank k _ fun h => hne ?_
  rw [← List.length_eq_zero_iff, ← length_orderByKey rank k, h, List.length_nil]

/-- The greatest of the ranks of all positions is their top. -/
theorem RanksBy.foldl_max_eq {κ : Type} [LinearOrder κ] {key : Nat → κ} {l ranks : List Nat} {low top : Nat}
    (h : RanksBy key l ranks low top) (hperm : l.Perm (List.range ranks.length)) : ranks.foldl max 0 = top := by
  have hmem (j : Nat) : j ∈ l ↔ j < ranks.length := by rw [hperm.mem_iff, List.mem_range]
  have hmax : ranks.max? = some top := by
    rw [List.max?_eq_some_iff]
    constructor
    · obtain ⟨i, hi, htop⟩ := h.exists_top
      rw [List.getD_eq_getElem _ _ ((hmem i).1 hi)] at htop
      exact htop ▸ List.getElem_mem _
    · intro b hb
      obtain ⟨j, hj, rfl⟩ := List.getElem_of_mem hb
      rw [← List.getD_eq_getElem _ 0 hj]
      exact h.le_top j ((hmem j).2 hj)
  rw [List.foldl_max, hmax]
  simp

/-! ## The rounds -/

/-- The ranks order the positions by the first `k` symbols of their suffixes. -/
structure RanksPrefixes (sym rank : List Nat) (k : Nat) : Prop where
  length_eq : rank.length = sym.length
  lt_iff : ∀ i < sym.length, ∀ j < sym.length,
    rank.getD i 0 < rank.getD j 0 ↔ (sym.drop i).take k < (sym.drop j).take k

/-- The symbols are ranks by the first symbol. -/
theorem ranksPrefixes_one (sym : List Nat) : RanksPrefixes sym sym 1 := by
  refine ⟨rfl, fun i hi j hj => ?_⟩
  rw [List.drop_eq_getElem_cons hi, List.drop_eq_getElem_cons hj, List.getD_eq_getElem _ _ hi, List.getD_eq_getElem _ _ hj]
  simp only [List.take_succ_cons, List.take_zero, List.cons_lt_cons_iff, lt_self_iff_false, and_false, or_false]

namespace RanksPrefixes
variable {sym rank : List Nat} {k : Nat}

theorem eq_iff (h : RanksPrefixes sym rank k) {i j : Nat} (hi : i < sym.length) (hj : j < sym.length) :
    rank.getD i 0 = rank.getD j 0 ↔ (sym.drop i).take k = (sym.drop j).take k := by
  rw [le_antisymm_iff, le_antisymm_iff, ← not_lt, ← not_lt, ← not_lt, ← not_lt, h.lt_iff i hi j hj, h.lt_iff j hj i hi]

/-- The second component of a key compares the `k` symbols from `i + k` on. -/
theorem snd_lt_iff (h : RanksPrefixes sym rank k) (hk : 0 < k) (i j : Nat) :
    (pdKey rank k i).2 < (pdKey rank k j).2 ↔ (sym.drop (i + k)).take k < (sym.drop (j + k)).take k := by
  have hnil {i : Nat} (hi : ¬ i + k < sym.length) : (sym.drop (i + k)).take k = [] := by
    rw [List.drop_eq_nil_of_le (by omega), List.take_nil]
  simp only [pdKey, h.length_eq]
  by_cases hi : i + k < sym.length <;> by_cases hj : j + k < sym.length
  · rw [if_pos hi, if_pos hj, Nat.cast_lt, h.lt_iff _ hi _ hj]
  · rw [if_pos hi, if_neg hj, hnil hj]
    exact iff_of_false (by omega) (List.not_lt_nil _)
  · rw [if_neg hi, if_pos hj, hnil hi, List.drop_eq_getElem_cons hj]
    obtain ⟨k', rfl⟩ := Nat.exists_eq_succ_of_ne_zero hk.ne'
    exact iff_of_true (by omega) (List.nil_lt_cons _ _)
  · rw [if_neg hi, if_neg hj, hnil hi, hnil hj]
    exact iff_of_false (by omega) (List.not_lt_nil _)

/-- The keys of a round compare the first `2k` symbols. -/
theorem roundKey_lt_iff (h : RanksPrefixes sym rank k) (hk : 0 < k) {i j : Nat} (hi : i < sym.length)
    (hj : j < sym.length) :
    roundKey rank k i < roundKey rank k j ↔ (sym.drop i).take (2 * k) < (sym.drop j).take (2 * k) := by
  rw [take_two_mul_lt_iff, List.drop_drop, List.drop_drop, ← h.lt_iff i hi j hj, ← h.eq_iff hi hj,
    ← h.snd_lt_iff hk i j]
  exact Prod.Lex.toLex_lt_toLex

/-- A round doubles the window. -/
theorem rerank (h : RanksPrefixes sym rank k) (hk : 0 < k) (hne : sym ≠ []) :
    RanksPrefixes sym (rerank rank k (orderByKey rank k)) (2 * k) := by
  have hne' : rank ≠ [] := by
    rw [← List.length_pos_iff, h.length_eq]
    exact List.length_pos_iff.2 hne
  obtain ⟨top, hranks⟩ := exists_ranksBy_rerank hne' k
  have hmem {i : Nat} (hi : i < sym.length) : i ∈ orderByKey rank k := by
    rw [(orderByKey_perm rank k).mem_iff, List.mem_range, h.length_eq]
    exact hi
  refine ⟨(length_rerank_orderByKey hne' k).trans h.length_eq, fun i hi j hj => ?_⟩
  rw [hranks.lt_iff i (hmem hi) j (hmem hj), h.roundKey_lt_iff hk hi hj]

/-- The stop test holds exactly if the round's keys are all different. -/
theorem stop_iff (h : RanksPrefixes sym rank k) (hne : sym ≠ []) :
    (Machine.rerank rank k (orderByKey rank k)).foldl max 0 + 1 = rank.length ↔
      (orderByKey rank k).Pairwise fun i j => roundKey rank k i < roundKey rank k j := by
  have hne' : rank ≠ [] := by
    rw [← List.length_pos_iff, h.length_eq]
    exact List.length_pos_iff.2 hne
  obtain ⟨top, hranks⟩ := exists_ranksBy_rerank hne' k
  rw [← hranks.strict_iff, length_orderByKey, Nat.zero_add,
    hranks.foldl_max_eq (by rw [length_rerank_orderByKey hne']; exact orderByKey_perm rank k)]

/-- When the keys of a round are all different, its order is the suffix array. -/
theorem sorts_of_strict (h : RanksPrefixes sym rank k) (hk : 0 < k)
    (hstrict : (orderByKey rank k).Pairwise fun i j => roundKey rank k i < roundKey rank k j) :
    Sorts sym (orderByKey rank k) := by
  have hperm := orderByKey_perm rank k
  rw [h.length_eq] at hperm
  have hlt {i : Nat} (hi : i ∈ orderByKey rank k) : i < sym.length := List.mem_range.1 (hperm.mem_iff.1 hi)
  exact ⟨hperm, hstrict.imp_of_mem fun hi hj hij => lt_of_take_lt ((h.roundKey_lt_iff hk (hlt hi) (hlt hj)).1 hij)⟩

/-- A window over half the length makes the keys all different. -/
theorem strict_of_length_le (h : RanksPrefixes sym rank k) (hk : 0 < k) (hlen : sym.length ≤ 2 * k) :
    (orderByKey rank k).Pairwise fun i j => roundKey rank k i < roundKey rank k j := by
  have hperm := orderByKey_perm rank k
  rw [h.length_eq] at hperm
  have hlt {i : Nat} (hi : i ∈ orderByKey rank k) : i < sym.length := List.mem_range.1 (hperm.mem_iff.1 hi)
  have htake (i : Nat) : (sym.drop i).take (2 * k) = sym.drop i :=
    List.take_of_length_le (by rw [List.length_drop]; omega)
  refine ((orderByKey_sorted rank k).and (hperm.nodup_iff.2 List.nodup_range)).imp_of_mem fun hi hj ⟨hle, hij⟩ => ?_
  refine lt_of_not_ge fun hge => ?_
  have hji := h.roundKey_lt_iff hk (hlt hj) (hlt hi)
  have hij' := h.roundKey_lt_iff hk (hlt hi) (hlt hj)
  rw [htake, htake] at hji hij'
  rcases lt_trichotomy (sym.drop _) (sym.drop _) with hd | hd | hd
  · exact absurd (hij'.2 hd) hge.not_gt
  · exact hij (drop_inj (hlt hi) (hlt hj) hd)
  · exact absurd (hji.2 hd) hle.not_gt

/-- The loop ends with the suffix array, if the fuel allows the window to reach the length. -/
theorem pdLoop_sorts {fuel : Nat} (h : RanksPrefixes sym rank k) (hk : 0 < k) (hne : sym ≠ [])
    (hfuel : sym.length ≤ k * 2 ^ (fuel + 1)) : Sorts sym (pdLoop (fuel + 1) rank k) := by
  induction fuel generalizing rank k with
  | zero =>
    have hstrict := h.strict_of_length_le hk (by omega)
    rw [pdLoop, if_pos ((h.stop_iff hne).2 hstrict)]
    exact h.sorts_of_strict hk hstrict
  | succ fuel ih =>
    rw [pdLoop]
    split
    case isTrue hstop => exact h.sorts_of_strict hk ((h.stop_iff hne).1 hstop)
    case isFalse =>
      refine ih (h.rerank hk hne) (by omega) (hfuel.trans_eq ?_)
      rw [pow_succ]
      ring

end RanksPrefixes

/-- Prefix doubling builds the suffix array of every sequence. -/
theorem prefixDoubling_sorts (sym : List Nat) (hne : sym ≠ []) : Sorts sym (prefixDoubling sym) := by
  refine (ranksPrefixes_one sym).pdLoop_sorts Nat.one_pos hne ?_
  rw [Nat.one_mul]
  exact (Nat.lt_succ_self _).le.trans Nat.lt_two_pow_self.le

end Sys2Proof.Machine

open Sys2Proof Sys2Proof.Machine

/-- Settles O56: the invariant of the rounds gives the suffix array of any sequence that is not empty. -/
theorem prefixDoublingBuildsTheSuffixArray : Obligations.PrefixDoublingBuildsTheSuffixArray := by
  rintro t ⟨body, rfl, -⟩
  exact isSuffixArray_of_sorts (prefixDoubling_sorts _ (by simp))
end

section
/-! SUPPORT. Symbols with their types (41_suffix_array.md R145, R146): a type-S symbol c is coded 2c + 1, a type-L symbol 2c,
so that codes compare as symbol and then type do, L before S. -/

namespace Sys2Proof.Machine

/-- The element at `i`, read with a default, heads the suffix from `i`. -/
theorem drop_eq_getD_cons {α : Type} {l : List α} {i : Nat} (h : i < l.length) (d : α) :
    l.drop i = l.getD i d :: l.drop (i + 1) := by
  rw [List.drop_eq_getElem_cons h, List.getD_eq_getElem _ _ h]

/-- Suffixes compare by their first symbols and then by the suffixes after them. -/
theorem drop_lt_drop_iff {l : List Nat} {i j : Nat} (hi : i < l.length) (hj : j < l.length) :
    l.drop i < l.drop j ↔ l.getD i 0 < l.getD j 0 ∨ l.getD i 0 = l.getD j 0 ∧ l.drop (i + 1) < l.drop (j + 1) := by
  rw [drop_eq_getD_cons hi 0, drop_eq_getD_cons hj 0, List.cons_lt_cons_iff]

/-- A sequence the procedure takes (R145): its last element is 0 and occurs nowhere else. -/
def Terminated (sym : List Nat) : Prop := ∃ body, sym = body ++ [0] ∧ ∀ x ∈ body, x ≠ 0

theorem Terminated.length_pos {sym : List Nat} (h : Terminated sym) : 0 < sym.length := by
  obtain ⟨body, rfl, -⟩ := h
  simp

theorem Terminated.getD_eq_zero_iff {sym : List Nat} (h : Terminated sym) {i : Nat} (hi : i < sym.length) :
    sym.getD i 0 = 0 ↔ i + 1 = sym.length := by
  obtain ⟨body, rfl, hbody⟩ := h
  rw [List.length_append, List.length_singleton] at hi ⊢
  rw [Nat.add_right_cancel_iff]
  rcases Nat.lt_succ_iff_lt_or_eq.1 hi with hlt | rfl
  · rw [List.getD_append _ _ _ _ hlt, List.getD_eq_getElem _ _ hlt]
    exact iff_of_false (hbody _ (List.getElem_mem _)) hlt.ne
  · simp

/-! ## Types (R145) -/

section
variable {sym : List Nat}

@[simp] theorem length_slTypes (sym : List Nat) : (slTypes sym).length = sym.length := by
  induction sym using slTypes.induct with
  | case1 | case2 => rfl
  | case3 a b rest ih => rw [slTypes, List.length_cons, ih]; rfl

/-- The types of a suffix are a suffix of the types. -/
theorem slTypes_drop (sym : List Nat) (i : Nat) : slTypes (sym.drop i) = (slTypes sym).drop i := by
  have htail (l : List Nat) : slTypes l.tail = (slTypes l).tail := by
    rcases l with _ | ⟨a, _ | ⟨b, l⟩⟩ <;> rfl
  induction i with
  | zero => rfl
  | succ i ih => rw [← List.tail_drop, ← List.tail_drop, ← ih, htail]

theorem slTypes_last {i : Nat} (hi : i + 1 = sym.length) : (slTypes sym).getD i false = true := by
  have htypes := slTypes_drop sym i
  rw [drop_eq_getD_cons (by omega) 0, List.drop_eq_nil_of_le (by omega), slTypes,
    drop_eq_getD_cons (by rw [length_slTypes]; omega) false, List.cons.injEq] at htypes
  exact htypes.1.symm

theorem slTypes_step {i : Nat} (hi : i + 1 < sym.length) :
    (slTypes sym).getD i false = (decide (sym.getD i 0 < sym.getD (i + 1) 0) ||
      decide (sym.getD i 0 = sym.getD (i + 1) 0) && (slTypes sym).getD (i + 1) false) := by
  have hlen : i + 1 < (slTypes sym).length := by rwa [length_slTypes]
  have htypes := slTypes_drop sym i
  rw [drop_eq_getD_cons (by omega) 0, drop_eq_getD_cons hi 0, slTypes, drop_eq_getD_cons (by omega) false,
    List.cons.injEq, ← drop_eq_getD_cons hi 0, slTypes_drop, drop_eq_getD_cons hlen false] at htypes
  exact htypes.1.symm

/-! ## Codes -/

/-- The code of a symbol with its type. -/
def encodeTyped (p : Nat × Bool) : Nat := 2 * p.1 + p.2.toNat

theorem encodeTyped_injective : Function.Injective encodeTyped := by
  rintro ⟨a, s⟩ ⟨b, t⟩ h
  have hs := Bool.toNat_le s
  have ht := Bool.toNat_le t
  simp only [encodeTyped] at h
  obtain rfl : a = b := by omega
  cases s <;> cases t <;> simp at h ⊢

/-- The codes of the symbols with their types. -/
def codes (sym : List Nat) : List Nat := (sym.zip (slTypes sym)).map encodeTyped

/-- The code at a position. -/
def code (sym : List Nat) (i : Nat) : Nat := (codes sym).getD i 0

@[simp] theorem length_codes (sym : List Nat) : (codes sym).length = sym.length := by simp [codes]

theorem drop_codes {i : Nat} (hi : i < sym.length) : (codes sym).drop i = code sym i :: (codes sym).drop (i + 1) :=
  drop_eq_getD_cons (by rwa [length_codes]) 0

theorem drop_codes_lt_iff {i j : Nat} (hi : i < sym.length) (hj : j < sym.length) :
    (codes sym).drop i < (codes sym).drop j ↔
      code sym i < code sym j ∨ code sym i = code sym j ∧ (codes sym).drop (i + 1) < (codes sym).drop (j + 1) :=
  drop_lt_drop_iff (by rwa [length_codes]) (by rwa [length_codes])

theorem code_eq {i : Nat} (hi : i < sym.length) : code sym i = 2 * sym.getD i 0 + ((slTypes sym).getD i false).toNat := by
  have hi' : i < (slTypes sym).length := by rwa [length_slTypes]
  rw [code, List.getD_eq_getElem _ _ (by rwa [length_codes]), List.getD_eq_getElem _ _ hi, List.getD_eq_getElem _ _ hi']
  simp [codes, encodeTyped]

theorem code_div_two {i : Nat} (hi : i < sym.length) : code sym i / 2 = sym.getD i 0 := by
  rw [code_eq hi]
  have := Bool.toNat_le ((slTypes sym).getD i false)
  omega

/-- Type S is an odd code. -/
theorem slTypes_eq_true_iff {i : Nat} (hi : i < sym.length) : (slTypes sym).getD i false = true ↔ code sym i % 2 = 1 := by
  rw [code_eq hi]
  cases (slTypes sym).getD i false <;> simp

theorem slTypes_eq_false_iff {i : Nat} (hi : i < sym.length) : (slTypes sym).getD i false = false ↔ code sym i % 2 = 0 := by
  rw [← Bool.not_eq_true, slTypes_eq_true_iff hi]
  omega

/-- A type-S code is at most the code after it, a type-L code at least. -/
theorem code_step {i : Nat} (hi : i + 1 < sym.length) :
    code sym i % 2 = 1 ∧ code sym i ≤ code sym (i + 1) ∨ code sym i % 2 = 0 ∧ code sym (i + 1) ≤ code sym i := by
  rw [code_eq hi, code_eq (by omega), slTypes_step hi]
  rcases lt_trichotomy (sym.getD i 0) (sym.getD (i + 1) 0) with h | h | h
  · simp only [h, decide_true, Bool.true_or, Bool.toNat_true]
    omega
  · rw [h]
    cases (slTypes sym).getD (i + 1) false <;> simp
  · have := Bool.toNat_le ((slTypes sym).getD (i + 1) false)
    simp only [h.not_gt, h.ne', decide_false, Bool.false_and, Bool.or_self, Bool.toNat_false]
    omega

section
variable (h : Terminated sym)
include h

theorem one_lt_code {i : Nat} (hi : i + 1 < sym.length) : 1 < code sym i := by
  have hne := mt (h.getD_eq_zero_iff (by omega : i < sym.length)).1 (by omega)
  have := code_div_two (by omega : i < sym.length)
  omega

theorem code_eq_one_iff {i : Nat} (hi : i < sym.length) : code sym i = 1 ↔ i + 1 = sym.length := by
  constructor
  · intro hone
    by_contra hne
    have := one_lt_code h (by omega : i + 1 < sym.length)
    omega
  · intro hlast
    rw [code_eq hi, (h.getD_eq_zero_iff hi).2 hlast, slTypes_last hlast]
    rfl

/-- Positions of equal codes are both the last or both not. -/
theorem succ_lt_of_code_eq {i j : Nat} (hi : i + 1 < sym.length) (hj : j < sym.length) (heq : code sym i = code sym j) :
    j + 1 < sym.length := by
  have := one_lt_code h hi
  have := mt (code_eq_one_iff h hj).2
  omega

/-- A suffix that is less in codes is less in symbols: of two suffixes with the same first symbol, that of type L is less. -/
theorem drop_lt_of_drop_codes_lt {i j : Nat} (hi : i < sym.length) (hj : j < sym.length)
    (hlt : (codes sym).drop i < (codes sym).drop j) : sym.drop i < sym.drop j := by
  induction hd : sym.length - i generalizing i j with
  | zero => omega
  | succ d ih =>
    rw [drop_lt_drop_iff hi hj, ← code_div_two hi, ← code_div_two hj]
    rcases (drop_codes_lt_iff hi hj).1 hlt with hcode | ⟨hcode, hrest⟩
    · by_cases hsym : code sym i / 2 < code sym j / 2
      · exact .inl hsym
      have hodd := (code_eq_one_iff h hi).2
      have hi' : i + 1 < sym.length := by omega
      have hone := one_lt_code h hi'
      have hj' : j + 1 < sym.length := by
        have := (code_eq_one_iff h hj).2
        omega
      have hstepi := code_step hi'
      have hstepj := code_step hj'
      refine .inr ⟨by omega, ih hi' hj' ?_ (by omega)⟩
      exact (drop_codes_lt_iff hi' hj').2 (.inl (by omega))
    · by_cases hi' : i + 1 < sym.length
      · have hj' := succ_lt_of_code_eq h hi' hj hcode
        exact .inr ⟨by rw [hcode], ih hi' hj' hrest (by omega)⟩
      · have hone := (code_eq_one_iff h hi).2 (by omega)
        have hj' := (code_eq_one_iff h hj).1 (by omega)
        rw [List.drop_eq_nil_of_le (i := j + 1) (by rw [length_codes]; omega)] at hrest
        exact absurd hrest (List.not_lt_nil _)

end

/-! ## LMS positions (R146) -/

theorem lt_length_of_isLMS {i : Nat} (hi : isLMS (slTypes sym) i = true) : i < sym.length := by
  by_contra hge
  have htype : (slTypes sym).getD i false = false := List.getD_eq_default _ _ (by rw [length_slTypes]; omega)
  have hlast : i + 1 ≠ sym.length := by omega
  simp only [isLMS, length_slTypes, hlast, htype, decide_false, Bool.and_false, Bool.false_and, Bool.or_self,
    Bool.false_eq_true] at hi

theorem isLMS_last {i : Nat} (hi : i + 1 = sym.length) : isLMS (slTypes sym) i = true := by simp [isLMS, hi]

theorem isLMS_zero (hlen : 1 < sym.length) : isLMS (slTypes sym) 0 = false := by
  have : 1 ≠ sym.length := by omega
  simp [isLMS, this]

/-- The position before the last is of type L. -/
theorem code_before_last (h : Terminated sym) {i : Nat} (hi : i + 2 = sym.length) : code sym i % 2 = 0 := by
  have hlast := (code_eq_one_iff h (by omega : i + 1 < sym.length)).2 hi
  have hone := one_lt_code h (by omega : i + 1 < sym.length)
  have := code_step (by omega : i + 1 < sym.length)
  omega

/-- After the first position, LMS is type S right after type L. -/
theorem isLMS_succ_iff (h : Terminated sym) {i : Nat} (hi : i + 1 < sym.length) :
    isLMS (slTypes sym) (i + 1) = true ↔ code sym (i + 1) % 2 = 1 ∧ code sym i % 2 = 0 := by
  have hdefault : (slTypes sym).getD i true = (slTypes sym).getD i false := by
    have hi' : i < (slTypes sym).length := by rw [length_slTypes]; omega
    rw [List.getD_eq_getElem _ _ hi', List.getD_eq_getElem _ _ hi']
  have hunfold : isLMS (slTypes sym) (i + 1) = true ↔
      i + 2 = sym.length ∨ (slTypes sym).getD (i + 1) false = true ∧ (slTypes sym).getD i false = false := by
    simp only [isLMS, length_slTypes, Nat.add_sub_cancel, hdefault, Bool.or_eq_true, Bool.and_eq_true, decide_eq_true_eq,
      Bool.not_eq_true', Nat.succ_pos, true_and]
  rw [hunfold, slTypes_eq_true_iff hi, slTypes_eq_false_iff (by omega), or_iff_right_iff_imp]
  intro hlast
  exact ⟨by rw [(code_eq_one_iff h hi).2 hlast], code_before_last h hlast⟩

/-- An LMS position is of type S. -/
theorem code_odd_of_isLMS (h : Terminated sym) {i : Nat} (hi : isLMS (slTypes sym) i = true) : code sym i % 2 = 1 := by
  have hlt := lt_length_of_isLMS hi
  by_cases hlast : i + 1 = sym.length
  · rw [(code_eq_one_iff h hlt).2 hlast]
  · cases i with
    | zero => rw [isLMS_zero (by omega)] at hi; cases hi
    | succ i => exact ((isLMS_succ_iff h hlt).1 hi).1

theorem mem_lmsPositions {i : Nat} : i ∈ lmsPositions (slTypes sym) ↔ isLMS (slTypes sym) i = true := by
  rw [lmsPositions, List.mem_filter, List.mem_range, length_slTypes]
  exact and_iff_right_of_imp lt_length_of_isLMS

theorem pairwise_lmsPositions (sym : List Nat) : (lmsPositions (slTypes sym)).Pairwise (· < ·) :=
  List.pairwise_lt_range.filter _

theorem nodup_lmsPositions (sym : List Nat) : (lmsPositions (slTypes sym)).Nodup :=
  (pairwise_lmsPositions sym).imp fun h => h.ne

/-- R152: position 0 is no LMS position. -/
theorem length_lmsPositions_lt (hlen : 1 < sym.length) : (lmsPositions (slTypes sym)).length < sym.length := by
  have : (lmsPositions (slTypes sym)).length < (List.range (slTypes sym).length).length := by
    rw [lmsPositions, List.length_filter_lt_length_iff_exists]
    exact ⟨0, by rw [List.mem_range, length_slTypes]; omega, by rw [isLMS_zero hlen]; decide⟩
  rwa [List.length_range, length_slTypes] at this

end

end Sys2Proof.Machine
end

section
/-! SUPPORT. Buckets (41_suffix_array.md R147): the positions of one symbol and type have a region of the array, in the order
of the codes; and what an array holds after positions were placed in their buckets one after another, from the heads or from
the tails. -/

namespace Sys2Proof.Machine

section
variable {sym : List Nat}

/-! ## Regions -/

/-- How many positions have a code below `v`. -/
def below (sym : List Nat) (v : Nat) : Nat := (codes sym).countP fun x => decide (x < v)

/-- The index `p` lies in the region of code `v`. -/
def InRegion (sym : List Nat) (v p : Nat) : Prop := below sym v ≤ p ∧ p < below sym (v + 1)

theorem below_mono {u v : Nat} (h : u ≤ v) : below sym u ≤ below sym v :=
  List.countP_mono_left fun _ _ hx => decide_eq_true ((of_decide_eq_true hx).trans_le h)

theorem below_succ (sym : List Nat) (v : Nat) : below sym (v + 1) = below sym v + (codes sym).count v := by
  unfold below
  induction codes sym with
  | nil => rfl
  | cons x l ih =>
    rw [List.countP_cons, List.countP_cons, List.count_cons, ih]
    rcases lt_trichotomy x v with h | rfl | h
    · simp only [h, Nat.lt_succ_of_lt h, decide_true, if_true, beq_iff_eq, h.ne, if_false]
      omega
    · simp only [Nat.lt_succ_self, decide_true, if_true, lt_irrefl, decide_false, Bool.false_eq_true, if_false, beq_self_eq_true]
      omega
    · simp [h.not_gt, h.ne', Nat.not_lt.2 h]

theorem below_le_length (sym : List Nat) (v : Nat) : below sym v ≤ sym.length :=
  (List.countP_le_length).trans_eq (length_codes sym)

theorem InRegion.lt_length {v p : Nat} (h : InRegion sym v p) : p < sym.length :=
  h.2.trans_le (below_le_length sym _)

theorem InRegion.lt_of_lt {u v p q : Nat} (hp : InRegion sym u p) (hq : InRegion sym v q) (huv : u < v) : p < q :=
  hp.2.trans_le ((below_mono huv).trans hq.1)

theorem InRegion.code_unique {u v p : Nat} (hu : InRegion sym u p) (hv : InRegion sym v p) : u = v :=
  le_antisymm (not_lt.1 fun h => lt_irrefl _ (hv.lt_of_lt hu h)) (not_lt.1 fun h => lt_irrefl _ (hu.lt_of_lt hv h))

theorem map_div_two_codes (sym : List Nat) : (codes sym).map (· / 2) = sym := by
  refine List.ext_getElem (by simp) fun i h1 h2 => ?_
  have := code_div_two h2
  rw [code, List.getD_eq_getElem _ _ (by rwa [length_codes]), List.getD_eq_getElem _ _ h2] at this
  rwa [List.getElem_map]

/-- `head[c]` (R147) is where the type-L region of symbol c begins. -/
theorem countP_lt_eq_below (sym : List Nat) (c : Nat) : sym.countP (fun x => decide (x < c)) = below sym (2 * c) := by
  conv_lhs => rw [← map_div_two_codes sym]
  rw [List.countP_map]
  refine List.countP_congr fun x _ => ?_
  simp only [Function.comp_apply, decide_eq_true_eq]
  omega

/-- `tail[c] + 1` (R147) is where the type-S region of symbol c ends. -/
theorem countP_le_eq_below (sym : List Nat) (c : Nat) : sym.countP (fun x => decide (x ≤ c)) = below sym (2 * c + 2) := by
  conv_lhs => rw [← map_div_two_codes sym]
  rw [List.countP_map]
  refine List.countP_congr fun x _ => ?_
  simp only [Function.comp_apply, decide_eq_true_eq]
  omega

/-! ## Placing positions one after another -/

/-- How many of the placed positions have the symbol `c`. -/
def placedWith (sym : List Nat) (c : Nat) (placed : List Nat) : Nat :=
  placed.countP fun z => decide (sym.getD z 0 = c)

/-- How many positions with its symbol were placed before `x`; the last one placed stands first in the list. -/
def rankIn (sym : List Nat) : List Nat → Nat → Nat
  | [], _ => 0
  | y :: placed, x => if x = y then placedWith sym (sym.getD x 0) placed else rankIn sym placed x

/-- The array after the positions `placed`, the last one first, each at the slot of its symbol and rank. -/
def fill (sym : List Nat) (slot : Nat → Nat → Nat) (arr : List (Option Nat)) : List Nat → List (Option Nat)
  | [] => arr
  | y :: placed =>
    (fill sym slot arr placed).set (slot (sym.getD y 0) (placedWith sym (sym.getD y 0) placed)) (some y)

/-- Where a placed position stands. -/
def placeOf (sym : List Nat) (slot : Nat → Nat → Nat) (placed : List Nat) (x : Nat) : Nat :=
  slot (sym.getD x 0) (rankIn sym placed x)

/-- Different positions of one type. -/
structure OfType (sym : List Nat) (bit : Nat) (placed : List Nat) : Prop where
  nodup : placed.Nodup
  lt : ∀ x ∈ placed, x < sym.length
  type : ∀ x ∈ placed, code sym x % 2 = bit

/-- Slots for the positions of one type: those of a symbol are different and lie in the region of its code. -/
structure Slots (sym : List Nat) (slot : Nat → Nat → Nat) (bit : Nat) : Prop where
  region : ∀ c r, r < (codes sym).count (2 * c + bit) → InRegion sym (2 * c + bit) (slot c r)
  inj : ∀ c r r', r < (codes sym).count (2 * c + bit) → r' < (codes sym).count (2 * c + bit) →
    slot c r = slot c r' → r = r'

theorem placedWith_cons (c y : Nat) (placed : List Nat) :
    placedWith sym c (y :: placed) = placedWith sym c placed + if sym.getD y 0 = c then 1 else 0 := by
  simp [placedWith, List.countP_cons]

theorem rankIn_self (y : Nat) (placed : List Nat) :
    rankIn sym (y :: placed) y = placedWith sym (sym.getD y 0) placed := if_pos rfl

theorem rankIn_cons_of_mem {x y : Nat} {placed : List Nat} (hy : y ∉ placed) (hx : x ∈ placed) :
    rankIn sym (y :: placed) x = rankIn sym placed x := by
  rw [rankIn, if_neg]
  rintro rfl
  exact hy hx

theorem placeOf_cons_of_mem (slot : Nat → Nat → Nat) {x y : Nat} {placed : List Nat} (hy : y ∉ placed) (hx : x ∈ placed) :
    placeOf sym slot (y :: placed) x = placeOf sym slot placed x := by
  rw [placeOf, placeOf, rankIn_cons_of_mem hy hx]

theorem rankIn_lt {x : Nat} {placed : List Nat} (hx : x ∈ placed) :
    rankIn sym placed x < placedWith sym (sym.getD x 0) placed := by
  induction placed with
  | nil => cases hx
  | cons y placed ih =>
    rw [rankIn, placedWith_cons]
    split
    case isTrue h => rw [h, if_pos rfl]; omega
    case isFalse h =>
      have := ih ((List.mem_cons.1 hx).resolve_left h)
      omega

/-- A relation between every placed position and those placed after it shows in the ranks of equal symbols. -/
theorem rankIn_cases {R : Nat → Nat → Prop} {placed : List Nat} (hnodup : placed.Nodup) (hR : placed.Pairwise R) {x y : Nat}
    (hx : x ∈ placed) (hy : y ∈ placed) (hxy : x ≠ y) (hsym : sym.getD x 0 = sym.getD y 0) :
    rankIn sym placed x < rankIn sym placed y ∧ R y x ∨ rankIn sym placed y < rankIn sym placed x ∧ R x y := by
  induction placed with
  | nil => cases hx
  | cons z placed ih =>
    obtain ⟨hz, hnodup⟩ := List.nodup_cons.1 hnodup
    obtain ⟨hRz, hR⟩ := List.pairwise_cons.1 hR
    rcases List.mem_cons.1 hx with rfl | hx' <;> rcases List.mem_cons.1 hy with rfl | hy'
    · exact absurd rfl hxy
    · rw [rankIn_self, rankIn_cons_of_mem hz hy', hsym]
      exact .inr ⟨rankIn_lt hy', hRz y hy'⟩
    · rw [rankIn_self, rankIn_cons_of_mem hz hx', ← hsym]
      exact .inl ⟨rankIn_lt hx', hRz x hx'⟩
    · rw [rankIn_cons_of_mem hz hx', rankIn_cons_of_mem hz hy']
      exact ih hnodup hR hx' hy'

/-- The positions of one type with a symbol are at most as many as their region has indexes. -/
theorem OfType.placedWith_le {bit : Nat} {placed : List Nat} (h : OfType sym bit placed) (c : Nat) :
    placedWith sym c placed ≤ (codes sym).count (2 * c + bit) := by
  have hsub : placed.Subperm (List.range sym.length) :=
    List.subperm_of_subset h.nodup fun x hx => List.mem_range.2 (h.lt x hx)
  have hcodes : codes sym = (List.range sym.length).map (code sym) := by
    refine List.ext_getElem (by simp) fun i h1 h2 => ?_
    rw [List.getElem_map, List.getElem_range, code, List.getD_eq_getElem _ _ h1]
  calc placedWith sym c placed
      = placed.countP (fun z => decide (code sym z = 2 * c + bit)) := by
        refine List.countP_congr fun x hx => ?_
        have htype := h.type x hx
        rw [decide_eq_true_eq, decide_eq_true_eq, ← code_div_two (h.lt x hx)]
        omega
    _ ≤ (List.range sym.length).countP (fun z => decide (code sym z = 2 * c + bit)) := hsub.countP_le _
    _ = (codes sym).count (2 * c + bit) := by
        rw [hcodes, List.count, List.countP_map]
        exact List.countP_congr fun x _ => by simp

theorem OfType.tail {bit y : Nat} {placed : List Nat} (h : OfType sym bit (y :: placed)) : OfType sym bit placed :=
  ⟨(List.nodup_cons.1 h.nodup).2, fun x hx => h.lt x (List.mem_cons_of_mem _ hx),
    fun x hx => h.type x (List.mem_cons_of_mem _ hx)⟩

/-- The next slot of a symbol exists, if a position with it is still to be placed. -/
theorem OfType.placedWith_lt {bit y : Nat} {placed : List Nat} (h : OfType sym bit (y :: placed)) :
    placedWith sym (sym.getD y 0) placed < (codes sym).count (2 * sym.getD y 0 + bit) := by
  have := h.placedWith_le (sym.getD y 0)
  rw [placedWith_cons, if_pos rfl] at this
  exact this

theorem OfType.rankIn_lt {bit x : Nat} {placed : List Nat} (h : OfType sym bit placed) (hx : x ∈ placed) :
    rankIn sym placed x < (codes sym).count (2 * sym.getD x 0 + bit) :=
  (Machine.rankIn_lt hx).trans_le (h.placedWith_le _)

theorem code_eq_of_type {bit x : Nat} (hx : x < sym.length) (ht : code sym x % 2 = bit) :
    2 * sym.getD x 0 + bit = code sym x := by
  rw [← code_div_two hx]
  omega

/-- A placed position stands in the region of its code. -/
theorem Slots.placeOf_region {slot : Nat → Nat → Nat} {bit : Nat} (hs : Slots sym slot bit) {placed : List Nat}
    (h : OfType sym bit placed) {x : Nat} (hx : x ∈ placed) : InRegion sym (code sym x) (placeOf sym slot placed x) := by
  rw [← code_eq_of_type (h.lt x hx) (h.type x hx)]
  exact hs.region _ _ (h.rankIn_lt hx)

@[simp] theorem length_fill (slot : Nat → Nat → Nat) (arr : List (Option Nat)) (placed : List Nat) :
    (fill sym slot arr placed).length = arr.length := by
  induction placed with
  | nil => rfl
  | cons y placed ih => rw [fill, List.length_set, ih]

theorem getD_set_self {α : Type} {l : List α} {i : Nat} (hi : i < l.length) (a d : α) : (l.set i a).getD i d = a := by
  rw [List.getD_eq_getElem _ _ (by rwa [List.length_set]), List.getElem_set_self]

theorem getD_set_ne {α : Type} {l : List α} {i j : Nat} (h : i ≠ j) (a d : α) : (l.set i a).getD j d = l.getD j d := by
  rw [List.getD_eq_getElem?_getD, List.getD_eq_getElem?_getD, List.getElem?_set_ne h]

/-- The next slot of a symbol is not yet taken. -/
theorem Slots.next_ne_placeOf {slot : Nat → Nat → Nat} {bit : Nat} (hs : Slots sym slot bit) {placed : List Nat} {y : Nat}
    (h : OfType sym bit (y :: placed)) {x : Nat} (hx : x ∈ placed) :
    slot (sym.getD y 0) (placedWith sym (sym.getD y 0) placed) ≠ placeOf sym slot placed x := by
  intro heq
  have hregion := hs.placeOf_region h.tail hx
  rw [← heq] at hregion
  have hcode := (hs.region _ _ h.placedWith_lt).code_unique hregion
  rw [← code_eq_of_type (h.tail.lt x hx) (h.tail.type x hx)] at hcode
  have hsym : sym.getD y 0 = sym.getD x 0 := by omega
  rw [placeOf, ← hsym] at heq
  have hrank := Machine.rankIn_lt (sym := sym) hx
  rw [← hsym] at hrank
  have := hs.inj _ _ _ h.placedWith_lt (hrank.trans h.placedWith_lt) heq
  omega

/-- A placed position stands at its slot. -/
theorem Slots.fill_placeOf {slot : Nat → Nat → Nat} {bit : Nat} (hs : Slots sym slot bit) {arr : List (Option Nat)}
    (harr : arr.length = sym.length) {placed : List Nat} (h : OfType sym bit placed) {x : Nat} (hx : x ∈ placed) :
    (fill sym slot arr placed).getD (placeOf sym slot placed x) none = some x := by
  induction placed with
  | nil => cases hx
  | cons y placed ih =>
    have hy := (List.nodup_cons.1 h.nodup).1
    rcases List.mem_cons.1 hx with rfl | hx
    · rw [placeOf, rankIn_self, fill, getD_set_self]
      rw [length_fill, harr]
      exact (hs.region _ _ h.placedWith_lt).lt_length
    · rw [placeOf_cons_of_mem slot hy hx, fill, getD_set_ne (hs.next_ne_placeOf h hx)]
      exact ih h.tail hx

/-- Outside the regions of the placed positions the array stays. -/
theorem Slots.fill_of_outside {slot : Nat → Nat → Nat} {bit : Nat} (hs : Slots sym slot bit) {arr : List (Option Nat)}
    {placed : List Nat} (h : OfType sym bit placed) {v p : Nat} (hp : InRegion sym v p) (hv : ∀ x ∈ placed, code sym x ≠ v) :
    (fill sym slot arr placed).getD p none = arr.getD p none := by
  induction placed with
  | nil => rfl
  | cons y placed ih =>
    rw [fill, getD_set_ne, ih h.tail fun x hx => hv x (List.mem_cons_of_mem _ hx)]
    rintro rfl
    refine hv y (by simp) ?_
    rw [← code_eq_of_type (h.lt y (by simp)) (h.type y (by simp))]
    exact (hs.region _ _ h.placedWith_lt).code_unique hp

/-- An entry is a placed position at its slot, or was there before. -/
theorem fill_eq_some {slot : Nat → Nat → Nat} {arr : List (Option Nat)} {placed : List Nat} (hnodup : placed.Nodup)
    {p z : Nat} (h : (fill sym slot arr placed).getD p none = some z) :
    z ∈ placed ∧ p = placeOf sym slot placed z ∨ arr.getD p none = some z := by
  induction placed with
  | nil => exact .inr h
  | cons y placed ih =>
    obtain ⟨hy, hnodup⟩ := List.nodup_cons.1 hnodup
    rw [fill] at h
    by_cases hp : slot (sym.getD y 0) (placedWith sym (sym.getD y 0) placed) = p
    · by_cases hlt : p < (fill sym slot arr placed).length
      · rw [hp, getD_set_self hlt] at h
        cases h
        exact .inl ⟨by simp, by rw [placeOf, rankIn_self, hp]⟩
      · rw [List.getD_eq_default _ _ (by rw [List.length_set]; omega)] at h
        cases h
    · rw [getD_set_ne hp] at h
      refine (ih hnodup h).imp_left fun ⟨hz, hpz⟩ => ⟨List.mem_cons_of_mem _ hz, ?_⟩
      rwa [placeOf_cons_of_mem slot hy hz]

/-! ## Heads and tails -/

/-- The slot of the position placed at the head of its bucket after `r` others. -/
def headSlot (sym : List Nat) (c r : Nat) : Nat := below sym (2 * c) + r

/-- The slot of the position placed at the tail of its bucket after `r` others. -/
def tailSlot (sym : List Nat) (c r : Nat) : Nat := below sym (2 * c + 2) - r - 1

theorem headSlots (sym : List Nat) : Slots sym (headSlot sym) 0 := by
  constructor
  · intro c r hr
    have := below_succ sym (2 * c)
    simp only [InRegion, headSlot, Nat.add_zero] at hr ⊢
    omega
  · intro c r r' _ _ heq
    simpa [headSlot] using heq

theorem tailSlot_add {c r : Nat} (hr : r < (codes sym).count (2 * c + 1)) :
    tailSlot sym c r + r + 1 = below sym (2 * c + 2) := by
  have : below sym (2 * c + 2) = below sym (2 * c + 1) + (codes sym).count (2 * c + 1) := below_succ sym (2 * c + 1)
  simp only [tailSlot]
  omega

theorem tailSlots (sym : List Nat) : Slots sym (tailSlot sym) 1 := by
  constructor
  · intro c r hr
    have hsucc : below sym (2 * c + 2) = below sym (2 * c + 1) + (codes sym).count (2 * c + 1) := below_succ sym (2 * c + 1)
    have hslot := tailSlot_add hr
    change below sym (2 * c + 1) ≤ _ ∧ _ < below sym (2 * c + 2)
    omega
  · intro c r r' hr hr' heq
    have := tailSlot_add hr
    have := tailSlot_add hr'
    omega

/-- The bucket pointers after `placed`, from the pointer of each symbol after a number of placements. -/
def bucketPtrs (sym : List Nat) (k : Nat) (ptr : Nat → Nat → Nat) (placed : List Nat) : List Nat :=
  (List.range k).map fun c => ptr c (placedWith sym c placed)

/-- The head pointer of a bucket after `r` placements. -/
def headPtr (sym : List Nat) (c r : Nat) : Nat := below sym (2 * c) + r

/-- The tail pointer of a bucket, kept one higher, after `r` placements. -/
def tailPtr (sym : List Nat) (c r : Nat) : Nat := below sym (2 * c + 2) - r

theorem bucketHeads_eq (sym : List Nat) (k : Nat) : bucketHeads sym k = bucketPtrs sym k (headPtr sym) [] :=
  List.map_congr_left fun c _ => countP_lt_eq_below sym c

theorem bucketEnds_eq (sym : List Nat) (k : Nat) : bucketEnds sym k = bucketPtrs sym k (tailPtr sym) [] :=
  List.map_congr_left fun c _ => countP_le_eq_below sym c

theorem getD_bucketPtrs (ptr : Nat → Nat → Nat) (placed : List Nat) {k c : Nat} (hc : c < k) :
    (bucketPtrs sym k ptr placed).getD c 0 = ptr c (placedWith sym c placed) := by
  rw [bucketPtrs, List.getD_eq_getElem _ _ (by simpa using hc), List.getElem_map, List.getElem_range]

theorem bucketPtrs_cons (ptr : Nat → Nat → Nat) (placed : List Nat) (k y : Nat) :
    (bucketPtrs sym k ptr placed).set (sym.getD y 0) (ptr (sym.getD y 0) (placedWith sym (sym.getD y 0) placed + 1)) =
      bucketPtrs sym k ptr (y :: placed) := by
  refine List.ext_getElem (by simp [bucketPtrs]) fun c h1 h2 => ?_
  rw [List.getElem_set]
  simp only [bucketPtrs, List.getElem_map, List.getElem_range, placedWith_cons]
  split
  case isTrue h => rw [← h]
  case isFalse h => rfl

section
variable {k : Nat} (hk : ∀ j, sym.getD j 0 < k) (arr : List (Option Nat)) (placed : List Nat) (y : Nat)
include hk

theorem placeAtHead_fill :
    placeAtHead sym ⟨fill sym (headSlot sym) arr placed, bucketPtrs sym k (headPtr sym) placed⟩ y =
      ⟨fill sym (headSlot sym) arr (y :: placed), bucketPtrs sym k (headPtr sym) (y :: placed)⟩ := by
  rw [← bucketPtrs_cons, placeAtHead, getD_bucketPtrs _ _ (hk y)]
  rfl

theorem placeAtTail_fill :
    placeAtTail sym ⟨fill sym (tailSlot sym) arr placed, bucketPtrs sym k (tailPtr sym) placed⟩ y =
      ⟨fill sym (tailSlot sym) arr (y :: placed), bucketPtrs sym k (tailPtr sym) (y :: placed)⟩ := by
  rw [← bucketPtrs_cons, placeAtTail, getD_bucketPtrs _ _ (hk y)]
  rfl

end

end

end Sys2Proof.Machine
end

section
/-! SUPPORT. The two passes of an induction (41_suffix_array.md R148). A pass scans the array and places the predecessors of
one type in their buckets; both passes are queues: of two positions with one symbol, that whose successor is scanned first is
placed first. -/

namespace Sys2Proof.Machine

variable {sym : List Nat}

/-! ## What a pass places -/

/-- The positions a pass places: those of its type that have a successor. -/
abbrev Wanted (sym : List Nat) (bit : Bool) (x : Nat) : Prop := x + 1 < sym.length ∧ code sym x % 2 = bit.toNat

theorem Wanted.lt {bit : Bool} {x : Nat} (hx : Wanted sym bit x) : x < sym.length := Nat.lt_of_succ_lt hx.1

theorem Wanted.even {x : Nat} (hx : Wanted sym false x) : code sym x % 2 = 0 := hx.2

theorem Wanted.odd {x : Nat} (hx : Wanted sym true x) : code sym x % 2 = 1 := hx.2

/-- The positions placed after one more index was scanned, the last one first. -/
def passStep (sym : List Nat) (bit : Bool) (slot : Nat → Nat → Nat) (arr : List (Option Nat)) (placed : List Nat)
    (i : Nat) : List Nat :=
  match predecessor (slTypes sym) bit (fill sym slot arr placed) i with
  | some x => x :: placed
  | none => placed

theorem predecessor_eq_some_iff {t : List Bool} {bit : Bool} {arr : List (Option Nat)} {i x : Nat} :
    predecessor t bit arr i = some x ↔ arr.getD i none = some (x + 1) ∧ t.getD x false = bit := by
  unfold predecessor
  rcases arr.getD i none with _ | _ | j
  · simp
  · simp
  · simp only [Nat.succ_pos, true_and, Nat.add_sub_cancel, Option.ite_none_right_eq_some, Option.some.injEq,
      Nat.add_right_cancel_iff]
    constructor
    · rintro ⟨h, rfl⟩
      exact ⟨rfl, h⟩
    · rintro ⟨rfl, h⟩
      exact ⟨h, rfl⟩

section
variable {k : Nat} (hk : ∀ j, sym.getD j 0 < k) (arr : List (Option Nat))
include hk

theorem foldl_placeAtTail_fill (seeds : List Nat) :
    seeds.foldl (placeAtTail sym) ⟨arr, bucketEnds sym k⟩ =
      ⟨fill sym (tailSlot sym) arr seeds.reverse, bucketPtrs sym k (tailPtr sym) seeds.reverse⟩ := by
  rw [bucketEnds_eq, ← List.append_nil seeds.reverse, ← List.foldl_flip_cons_eq_append']
  exact List.foldl_hom
    (fun placed => Induction.mk (fill sym (tailSlot sym) arr placed) (bucketPtrs sym k (tailPtr sym) placed))
    (init := []) fun placed y => placeAtTail_fill hk arr placed y

theorem foldl_lStep_fill (is : List Nat) :
    is.foldl (lStep sym (slTypes sym)) ⟨arr, bucketHeads sym k⟩ =
      ⟨fill sym (headSlot sym) arr (is.foldl (passStep sym false (headSlot sym) arr) []),
        bucketPtrs sym k (headPtr sym) (is.foldl (passStep sym false (headSlot sym) arr) [])⟩ := by
  rw [bucketHeads_eq]
  refine List.foldl_hom
    (fun placed => Induction.mk (fill sym (headSlot sym) arr placed) (bucketPtrs sym k (headPtr sym) placed))
    (init := []) fun placed i => ?_
  rw [lStep, passStep]
  cases predecessor (slTypes sym) false (fill sym (headSlot sym) arr placed) i with
  | none => rfl
  | some x => exact placeAtHead_fill hk arr placed x

theorem foldl_sStep_fill (is : List Nat) :
    is.foldl (sStep sym (slTypes sym)) ⟨arr, bucketEnds sym k⟩ =
      ⟨fill sym (tailSlot sym) arr (is.foldl (passStep sym true (tailSlot sym) arr) []),
        bucketPtrs sym k (tailPtr sym) (is.foldl (passStep sym true (tailSlot sym) arr) [])⟩ := by
  rw [bucketEnds_eq]
  refine List.foldl_hom
    (fun placed => Induction.mk (fill sym (tailSlot sym) arr placed) (bucketPtrs sym k (tailPtr sym) placed))
    (init := []) fun placed i => ?_
  rw [sStep, passStep]
  cases predecessor (slTypes sym) true (fill sym (tailSlot sym) arr placed) i with
  | none => rfl
  | some x => exact placeAtTail_fill hk arr placed x

end

/-! ## The queue -/

/-- What a pass needs. `base` says where the array already holds the successors that the pass does not place itself; `flip`
turns an index into the time at which it is scanned, and back. -/
structure PassSetup (sym : List Nat) (bit : Bool) (slot : Nat → Nat → Nat) (arr : List (Option Nat))
    (base flip : Nat → Nat) : Prop where
  slots : Slots sym slot bit.toNat
  length_arr : arr.length = sym.length
  arr_lt : ∀ p z, arr.getD p none = some z → z < sym.length
  arr_base : ∀ p x, arr.getD p none = some (x + 1) → Wanted sym bit x → ¬ Wanted sym bit (x + 1) ∧ p = base (x + 1)
  base_arr : ∀ x, Wanted sym bit x → ¬ Wanted sym bit (x + 1) → arr.getD (base (x + 1)) none = some (x + 1)
  base_region : ∀ x, Wanted sym bit x → ¬ Wanted sym bit (x + 1) → InRegion sym (code sym (x + 1)) (base (x + 1))
  base_type : ∀ x, Wanted sym bit x → ¬ Wanted sym bit (x + 1) → code sym (x + 1) % 2 ≠ bit.toNat
  flip_lt : ∀ p < sym.length, flip p < sym.length
  flip_flip : ∀ p < sym.length, flip (flip p) = p
  flip_slot : ∀ c r r', r < r' → r' < (codes sym).count (2 * c + bit.toNat) → flip (slot c r) < flip (slot c r')
  flip_region : ∀ x p q, Wanted sym bit x → code sym (x + 1) ≠ code sym x → InRegion sym (code sym (x + 1)) p →
    InRegion sym (code sym x) q → flip p < flip q

/-- Where a position stands: at its slot if the pass places it, else where the array held it before. -/
def passLoc (sym : List Nat) (bit : Bool) (slot : Nat → Nat → Nat) (base : Nat → Nat) (placed : List Nat) (z : Nat) : Nat :=
  if Wanted sym bit z then placeOf sym slot placed z else base z

/-- What holds after `i` indexes were scanned: a position is placed exactly if its successor stands where it was scanned, and
those of one symbol are placed in the order of their successors. -/
structure PassInv (sym : List Nat) (bit : Bool) (slot : Nat → Nat → Nat) (base flip : Nat → Nat) (i : Nat)
    (placed : List Nat) : Prop where
  nodup : placed.Nodup
  mem_iff : ∀ x, x ∈ placed ↔ Wanted sym bit x ∧ (Wanted sym bit (x + 1) → x + 1 ∈ placed) ∧
    flip (passLoc sym bit slot base placed (x + 1)) < i
  ordered : ∀ x ∈ placed, ∀ y ∈ placed, sym.getD x 0 = sym.getD y 0 →
    flip (passLoc sym bit slot base placed (x + 1)) < flip (passLoc sym bit slot base placed (y + 1)) →
    rankIn sym placed x < rankIn sym placed y

section
variable {bit : Bool} {slot : Nat → Nat → Nat} {arr : List (Option Nat)} {base flip : Nat → Nat} {i : Nat} {placed : List Nat}

theorem PassInv.wanted (h : PassInv sym bit slot base flip i placed) {x : Nat} (hx : x ∈ placed) : Wanted sym bit x :=
  ((h.mem_iff x).1 hx).1

theorem PassInv.ofType (h : PassInv sym bit slot base flip i placed) : OfType sym bit.toNat placed :=
  ⟨h.nodup, fun _ hx => (h.wanted hx).lt, fun _ hx => (h.wanted hx).2⟩

theorem ofType_cons (h : PassInv sym bit slot base flip i placed) {x : Nat} (hx : Wanted sym bit x) (hfresh : x ∉ placed) :
    OfType sym bit.toNat (x :: placed) := by
  refine ⟨List.nodup_cons.2 ⟨hfresh, h.nodup⟩, fun y hy => ?_, fun y hy => ?_⟩ <;>
    rcases List.mem_cons.1 hy with rfl | hy
  · exact hx.lt
  · exact h.ofType.lt y hy
  · exact hx.2
  · exact h.ofType.type y hy

/-- Placing one more position moves no other. -/
theorem passLoc_cons {x z : Nat} (hfresh : x ∉ placed) (hz : Wanted sym bit z → z ∈ placed) :
    passLoc sym bit slot base (x :: placed) z = passLoc sym bit slot base placed z := by
  unfold passLoc
  split
  case isTrue hw => exact placeOf_cons_of_mem slot hfresh (hz hw)
  case isFalse => rfl

section
variable (hs : PassSetup sym bit slot arr base flip) (h : PassInv sym bit slot base flip i placed)
include hs h

/-- A successor that stands in the array lies in the region of its code. -/
theorem passLoc_region {x : Nat} (hx : Wanted sym bit x) (hpresent : Wanted sym bit (x + 1) → x + 1 ∈ placed) :
    InRegion sym (code sym (x + 1)) (passLoc sym bit slot base placed (x + 1)) := by
  unfold passLoc
  split
  case isTrue hw => exact hs.slots.placeOf_region h.ofType (hpresent hw)
  case isFalse hw => exact hs.base_region x hx hw

/-- The array holds a successor where it stands. -/
theorem fill_passLoc {x : Nat} (hx : Wanted sym bit x) (hpresent : Wanted sym bit (x + 1) → x + 1 ∈ placed) :
    (fill sym slot arr placed).getD (passLoc sym bit slot base placed (x + 1)) none = some (x + 1) := by
  unfold passLoc
  split
  case isTrue hw => exact hs.slots.fill_placeOf hs.length_arr h.ofType (hpresent hw)
  case isFalse hw =>
    rw [hs.slots.fill_of_outside h.ofType (hs.base_region x hx hw), hs.base_arr x hx hw]
    intro y hy heq
    exact hs.base_type x hx hw (heq ▸ h.ofType.type y hy)

/-- The entry a pass finds at time `i` and continues from. -/
theorem predecessor_fill_iff (hi : i < sym.length) (x : Nat) :
    predecessor (slTypes sym) bit (fill sym slot arr placed) (flip i) = some x ↔
      Wanted sym bit x ∧ (Wanted sym bit (x + 1) → x + 1 ∈ placed) ∧
        flip (passLoc sym bit slot base placed (x + 1)) = i := by
  have htype (hx : x + 1 < sym.length) : (slTypes sym).getD x false = bit ↔ code sym x % 2 = bit.toNat := by
    cases bit
    · exact slTypes_eq_false_iff (by omega)
    · exact slTypes_eq_true_iff (by omega)
  rw [predecessor_eq_some_iff]
  constructor
  · rintro ⟨hentry, hbit⟩
    rcases fill_eq_some h.nodup hentry with ⟨hmem, hloc⟩ | hold
    · have hw := h.wanted hmem
      have hx : x + 1 < sym.length := hw.lt
      refine ⟨⟨hx, (htype hx).1 hbit⟩, fun _ => hmem, ?_⟩
      rw [passLoc, if_pos hw, ← hloc, hs.flip_flip i hi]
    · have hx := hs.arr_lt _ _ hold
      have hwx : Wanted sym bit x := ⟨hx, (htype hx).1 hbit⟩
      obtain ⟨hw, hloc⟩ := hs.arr_base _ _ hold hwx
      refine ⟨hwx, fun hw' => absurd hw' hw, ?_⟩
      rw [passLoc, if_neg hw, ← hloc, hs.flip_flip i hi]
  · rintro ⟨hx, hpresent, htime⟩
    have hloc := hs.flip_flip _ (passLoc_region hs h hx hpresent).lt_length
    rw [← htime, hloc]
    exact ⟨fill_passLoc hs h hx hpresent, (htype hx.1).2 hx.2⟩

/-- A position is placed after the index its successor was found at. -/
theorem flip_lt_flip_next {x : Nat} (hx : Wanted sym bit x) (hpresent : Wanted sym bit (x + 1) → x + 1 ∈ placed)
    (hfresh : x ∉ placed) :
    flip (passLoc sym bit slot base placed (x + 1)) < flip (placeOf sym slot (x :: placed) x) := by
  have htypes := ofType_cons h hx hfresh
  have hregion := hs.slots.placeOf_region htypes (List.mem_cons_self)
  by_cases hcode : code sym (x + 1) = code sym x
  · have hw : Wanted sym bit (x + 1) := by
      by_contra hw
      exact hs.base_type x hx hw (hcode ▸ hx.2)
    have hmem := hpresent hw
    have hsym : sym.getD (x + 1) 0 = sym.getD x 0 := by
      rw [← code_div_two hx.1, ← code_div_two hx.lt, hcode]
    rw [passLoc, if_pos hw, placeOf, placeOf, rankIn_self, hsym]
    refine hs.flip_slot _ _ _ ?_ htypes.placedWith_lt
    exact hsym ▸ rankIn_lt hmem
  · exact hs.flip_region x _ _ hx hcode (passLoc_region hs h hx hpresent) hregion

section
variable {x : Nat} (hi : i < sym.length) (hx : Wanted sym bit x) (hpresent : Wanted sym bit (x + 1) → x + 1 ∈ placed)
  (htime : flip (passLoc sym bit slot base placed (x + 1)) = i)
include htime

omit hs in
/-- The position whose successor is found at time `i` was not placed before. -/
theorem PassInv.notMem_of_time : x ∉ placed := fun hmem => by
  obtain ⟨-, -, hlt⟩ := (h.mem_iff x).1 hmem
  omega

include hx hpresent

omit hs in
/-- When it is placed, the successors of all placed positions stand where they were scanned before, or now. -/
theorem PassInv.time_push {y : Nat} (hy : y ∈ x :: placed) :
    Wanted sym bit y ∧ (Wanted sym bit (y + 1) → y + 1 ∈ placed) ∧
      (y = x ∧ flip (passLoc sym bit slot base (x :: placed) (y + 1)) = i ∨
        y ∈ placed ∧ flip (passLoc sym bit slot base (x :: placed) (y + 1)) < i) := by
  have hfresh := h.notMem_of_time htime
  rcases List.mem_cons.1 hy with rfl | hy
  · exact ⟨hx, hpresent, .inl ⟨rfl, by rwa [passLoc_cons hfresh hpresent]⟩⟩
  · obtain ⟨hwy, hpy, hlt⟩ := (h.mem_iff y).1 hy
    exact ⟨hwy, hpy, .inr ⟨hy, by rwa [passLoc_cons hfresh hpy]⟩⟩

include hi

/-- What was found up to time `i` is what is placed with it. -/
theorem PassInv.mem_push {y : Nat} (hwy : Wanted sym bit y) (hpy : Wanted sym bit (y + 1) → y + 1 ∈ x :: placed)
    (hlt : flip (passLoc sym bit slot base (x :: placed) (y + 1)) < i + 1) : y ∈ x :: placed := by
  have hfresh := h.notMem_of_time htime
  by_cases hyx : y + 1 = x
  · have hnext := flip_lt_flip_next hs h hx hpresent hfresh
    rw [hyx, passLoc, if_pos hx] at hlt
    omega
  · have hpy' : Wanted sym bit (y + 1) → y + 1 ∈ placed := fun hw => (List.mem_cons.1 (hpy hw)).resolve_left hyx
    rw [passLoc_cons hfresh hpy'] at hlt
    rcases Nat.lt_succ_iff_lt_or_eq.1 hlt with hlt | heq
    · exact List.mem_cons_of_mem _ ((h.mem_iff y).2 ⟨hwy, hpy', hlt⟩)
    · have hfound := (predecessor_fill_iff hs h hi y).2 ⟨hwy, hpy', heq⟩
      rw [(predecessor_fill_iff hs h hi x).2 ⟨hx, hpresent, htime⟩] at hfound
      cases hfound
      exact List.mem_cons_self

/-- Placing it keeps the invariant. -/
theorem PassInv.push : PassInv sym bit slot base flip (i + 1) (x :: placed) := by
  have hfresh := h.notMem_of_time htime
  refine ⟨List.nodup_cons.2 ⟨hfresh, h.nodup⟩, fun y => ⟨fun hy => ?_, ?_⟩, fun y hy z hz hsym hlt => ?_⟩
  · obtain ⟨hwy, hpy, htimes⟩ := h.time_push hx hpresent htime hy
    exact ⟨hwy, fun hw => List.mem_cons_of_mem _ (hpy hw), by omega⟩
  · rintro ⟨hwy, hpy, hlt⟩
    exact h.mem_push hs hi hx hpresent htime hwy hpy hlt
  · obtain ⟨-, hpy, ⟨rfl, hty⟩ | ⟨hmy, hty⟩⟩ := h.time_push hx hpresent htime hy <;>
      obtain ⟨-, hpz, ⟨rfl, htz⟩ | ⟨hmz, htz⟩⟩ := h.time_push hx hpresent htime hz
    · omega
    · omega
    · rw [rankIn_self, rankIn_cons_of_mem hfresh hmy, ← hsym]
      exact rankIn_lt hmy
    · rw [rankIn_cons_of_mem hfresh hmy, rankIn_cons_of_mem hfresh hmz]
      rw [passLoc_cons hfresh hpy, passLoc_cons hfresh hpz] at hlt
      exact h.ordered y hmy z hmz hsym hlt

end

/-- Scanning one more index keeps the invariant. -/
theorem PassInv.passStep (hi : i < sym.length) :
    PassInv sym bit slot base flip (i + 1) (passStep sym bit slot arr placed (flip i)) := by
  unfold Machine.passStep
  split
  case h_1 x hfound =>
    obtain ⟨hx, hpresent, htime⟩ := (predecessor_fill_iff hs h hi x).1 hfound
    exact h.push hs hi hx hpresent htime
  case h_2 hnone =>
    refine ⟨h.nodup, fun x => (h.mem_iff x).trans ?_, h.ordered⟩
    refine and_congr_right fun hx => and_congr_right fun hpresent => ?_
    have : flip (passLoc sym bit slot base placed (x + 1)) ≠ i := fun htime => by
      rw [(predecessor_fill_iff hs h hi x).2 ⟨hx, hpresent, htime⟩] at hnone
      cases hnone
    omega

end

theorem passInv_nil (sym : List Nat) (bit : Bool) (slot : Nat → Nat → Nat) (base flip : Nat → Nat) :
    PassInv sym bit slot base flip 0 [] := ⟨List.nodup_nil, by simp, by simp⟩

theorem passInv_foldl (hs : PassSetup sym bit slot arr base flip) {m : Nat} (hm : m ≤ sym.length) :
    PassInv sym bit slot base flip m (((List.range m).map flip).foldl (passStep sym bit slot arr) []) := by
  induction m with
  | zero => exact passInv_nil sym bit slot base flip
  | succ m ih =>
    rw [List.range_succ, List.map_append, List.foldl_append]
    exact (ih (by omega)).passStep hs (by omega)

/-- A pass over the whole array places every position of its type that has a successor. -/
theorem PassInv.mem_iff_wanted (hs : PassSetup sym bit slot arr base flip)
    (h : PassInv sym bit slot base flip sym.length placed) (x : Nat) : x ∈ placed ↔ Wanted sym bit x := by
  refine ⟨h.wanted, fun hx => ?_⟩
  induction hd : sym.length - x generalizing x with
  | zero => have := hx.1; omega
  | succ d ih =>
    have hpresent (hw : Wanted sym bit (x + 1)) : x + 1 ∈ placed := ih (x + 1) hw (by omega)
    exact (h.mem_iff x).2 ⟨hx, hpresent, hs.flip_lt _ (passLoc_region hs h hx hpresent).lt_length⟩

end

end Sys2Proof.Machine
end

section
/-! SUPPORT. An induction (41_suffix_array.md R148) from its seeds: where every position ends, and the order that gives. -/

namespace Sys2Proof.Machine

/-! ## The arrays of an induction -/

/-- The seeds in their buckets. -/
def seededArr (sym seeds : List Nat) : List (Option Nat) :=
  fill sym (tailSlot sym) (List.replicate sym.length none) seeds.reverse

/-- The positions of type L, the last one placed first. -/
def placedL (sym seeds : List Nat) : List Nat :=
  (List.range sym.length).foldl (passStep sym false (headSlot sym) (seededArr sym seeds)) []

/-- The array after the L pass. -/
def inducedL (sym seeds : List Nat) : List (Option Nat) :=
  fill sym (headSlot sym) (seededArr sym seeds) (placedL sym seeds)

/-- The positions of type S but the last, the last one placed first. -/
def placedS (sym seeds : List Nat) : List Nat :=
  (List.range sym.length).reverse.foldl (passStep sym true (tailSlot sym) (inducedL sym seeds)) []

/-- The array of an induction is three rounds of placing. -/
theorem induce_eq_fill {sym : List Nat} {k : Nat} (hk : ∀ j, sym.getD j 0 < k) (seeds : List Nat) :
    induce sym (slTypes sym) k seeds = fill sym (tailSlot sym) (inducedL sym seeds) (placedS sym seeds) := by
  simp only [induce, foldl_placeAtTail_fill hk, foldl_lStep_fill hk, foldl_sStep_fill hk]
  rfl

/-- Where a seed stands. -/
def seedLoc (sym seeds : List Nat) (z : Nat) : Nat := placeOf sym (tailSlot sym) seeds.reverse z

/-- Where a position of type L or a seed stands after the L pass. -/
def locL (sym seeds : List Nat) (z : Nat) : Nat :=
  passLoc sym false (headSlot sym) (seedLoc sym seeds) (placedL sym seeds) z

/-- Where a position stands in the end. -/
def locS (sym seeds : List Nat) (z : Nat) : Nat :=
  passLoc sym true (tailSlot sym) (locL sym seeds) (placedS sym seeds) z

section
variable {sym seeds : List Nat}

theorem wanted_false_of_even (h : Terminated sym) {z : Nat} (hz : z < sym.length) (heven : code sym z % 2 = 0) :
    Wanted sym false z := by
  refine ⟨?_, heven⟩
  by_contra hge
  have := (code_eq_one_iff h hz).2 (by omega)
  omega

theorem not_wanted_false_of_isLMS (h : Terminated sym) {z : Nat} (hz : isLMS (slTypes sym) z = true) :
    ¬ Wanted sym false z := fun hw => by
  have := code_odd_of_isLMS h hz
  have := hw.even
  omega

/-- The successor of a position of type L is of type L or LMS. -/
theorem isLMS_of_not_wanted (h : Terminated sym) {x : Nat} (hx : Wanted sym false x)
    (hnext : ¬ Wanted sym false (x + 1)) : isLMS (slTypes sym) (x + 1) = true := by
  have := mt (wanted_false_of_even h hx.1) hnext
  exact (isLMS_succ_iff h hx.1).2 ⟨by omega, hx.even⟩

/-- A position that is not of type S with a successor is of type L or the last one, an LMS position. -/
theorem wanted_false_or_isLMS (h : Terminated sym) {z : Nat} (hz : z < sym.length) (hw : ¬ Wanted sym true z) :
    Wanted sym false z ∨ isLMS (slTypes sym) z = true := by
  by_cases hlast : z + 1 = sym.length
  · exact .inr (isLMS_last hlast)
  · refine .inl (wanted_false_of_even h hz ?_)
    by_contra hodd
    exact hw ⟨by omega, by rw [Bool.toNat_true]; omega⟩

/-- The successor of a position of type S is no LMS position. -/
theorem not_isLMS_succ_of_wanted_true (h : Terminated sym) {x : Nat} (hx : Wanted sym true x) :
    isLMS (slTypes sym) (x + 1) ≠ true := fun hlms => by
  obtain ⟨-, heven⟩ := (isLMS_succ_iff h hx.1).1 hlms
  have := hx.odd
  omega

/-- The successor of a position of type S is of type S with a successor, or of type L. -/
theorem wanted_false_of_not_wanted_true (h : Terminated sym) {x : Nat} (hx : Wanted sym true x)
    (hnext : ¬ Wanted sym true (x + 1)) : Wanted sym false (x + 1) :=
  (wanted_false_or_isLMS h hx.1 hnext).resolve_right (not_isLMS_succ_of_wanted_true h hx)

theorem getD_eq_of_code_eq {x y : Nat} (hx : x < sym.length) (hy : y < sym.length) (hcode : code sym x = code sym y) :
    sym.getD x 0 = sym.getD y 0 := by
  rw [← code_div_two hx, hcode, code_div_two hy]

theorem mem_seeds (hseeds : seeds.Perm (lmsPositions (slTypes sym))) {z : Nat} :
    z ∈ seeds.reverse ↔ isLMS (slTypes sym) z = true := by
  rw [List.mem_reverse, hseeds.mem_iff, mem_lmsPositions]

section
variable (h : Terminated sym) (hseeds : seeds.Perm (lmsPositions (slTypes sym)))
include h hseeds

/-! ## The seeds -/

theorem ofType_seeds : OfType sym 1 seeds.reverse where
  nodup := List.nodup_reverse.2 (hseeds.nodup_iff.2 (nodup_lmsPositions sym))
  lt _ hx := lt_length_of_isLMS ((mem_seeds hseeds).1 hx)
  type _ hx := code_odd_of_isLMS h ((mem_seeds hseeds).1 hx)

theorem seedLoc_region {z : Nat} (hz : isLMS (slTypes sym) z = true) :
    InRegion sym (code sym z) (seedLoc sym seeds z) :=
  (tailSlots sym).placeOf_region (ofType_seeds h hseeds) ((mem_seeds hseeds).2 hz)

theorem seededArr_seedLoc {z : Nat} (hz : isLMS (slTypes sym) z = true) :
    (seededArr sym seeds).getD (seedLoc sym seeds z) none = some z :=
  (tailSlots sym).fill_placeOf List.length_replicate (ofType_seeds h hseeds) ((mem_seeds hseeds).2 hz)

theorem seededArr_eq_some {p z : Nat} (hz : (seededArr sym seeds).getD p none = some z) :
    isLMS (slTypes sym) z = true ∧ p = seedLoc sym seeds z := by
  rcases fill_eq_some (ofType_seeds h hseeds).nodup hz with ⟨hmem, hp⟩ | hold
  · exact ⟨(mem_seeds hseeds).1 hmem, hp⟩
  · rw [List.getD_eq_getElem?_getD, List.getElem?_replicate] at hold
    split at hold <;> cases hold

/-! ## The L pass -/

/-- The L pass scans upwards and finds the seeds in the array. -/
theorem setupL : PassSetup sym false (headSlot sym) (seededArr sym seeds) (seedLoc sym seeds) id where
  slots := headSlots sym
  length_arr := by rw [seededArr, length_fill, List.length_replicate]
  arr_lt _ _ hz := lt_length_of_isLMS (seededArr_eq_some h hseeds hz).1
  arr_base p x hz _ := by
    obtain ⟨hlms, hp⟩ := seededArr_eq_some h hseeds hz
    exact ⟨not_wanted_false_of_isLMS h hlms, hp⟩
  base_arr x hx hw := seededArr_seedLoc h hseeds (isLMS_of_not_wanted h hx hw)
  base_region x hx hw := seedLoc_region h hseeds (isLMS_of_not_wanted h hx hw)
  base_type x hx hw := by
    rw [code_odd_of_isLMS h (isLMS_of_not_wanted h hx hw)]
    exact Nat.one_ne_zero
  flip_lt _ hp := hp
  flip_flip _ _ := rfl
  flip_slot c r r' hr _ := Nat.add_lt_add_left hr _
  flip_region x p q hx hne hp hq := by
    have hstep := code_step hx.1
    have heven := hx.even
    exact hp.lt_of_lt hq (by omega)

theorem invL : PassInv sym false (headSlot sym) (seedLoc sym seeds) id sym.length (placedL sym seeds) := by
  have := passInv_foldl (setupL h hseeds) le_rfl
  rwa [List.map_id] at this

theorem mem_placedL (x : Nat) : x ∈ placedL sym seeds ↔ Wanted sym false x :=
  (invL h hseeds).mem_iff_wanted (setupL h hseeds) x

/-- A position of type L or a seed stands in the region of its code. -/
theorem locL_region {z : Nat} (hz : Wanted sym false z ∨ isLMS (slTypes sym) z = true) :
    InRegion sym (code sym z) (locL sym seeds z) := by
  unfold locL passLoc
  split
  case isTrue hw => exact (headSlots sym).placeOf_region (invL h hseeds).ofType ((mem_placedL h hseeds z).2 hw)
  case isFalse hw => exact seedLoc_region h hseeds (hz.resolve_left hw)

theorem inducedL_locL {z : Nat} (hz : Wanted sym false z ∨ isLMS (slTypes sym) z = true) :
    (inducedL sym seeds).getD (locL sym seeds z) none = some z := by
  unfold locL passLoc
  split
  case isTrue hw =>
    exact (headSlots sym).fill_placeOf (setupL h hseeds).length_arr (invL h hseeds).ofType ((mem_placedL h hseeds z).2 hw)
  case isFalse hw =>
    have hlms := hz.resolve_left hw
    rw [inducedL, (headSlots sym).fill_of_outside (invL h hseeds).ofType (seedLoc_region h hseeds hlms),
      seededArr_seedLoc h hseeds hlms]
    intro y hy heq
    have := ((invL h hseeds).wanted hy).even
    have := code_odd_of_isLMS h hlms
    omega

theorem inducedL_eq_some {p z : Nat} (hz : (inducedL sym seeds).getD p none = some z) :
    (Wanted sym false z ∨ isLMS (slTypes sym) z = true) ∧ p = locL sym seeds z := by
  unfold locL passLoc
  rcases fill_eq_some (invL h hseeds).nodup hz with ⟨hmem, hp⟩ | hold
  · have hw := (mem_placedL h hseeds z).1 hmem
    exact ⟨.inl hw, by rw [if_pos hw, hp]⟩
  · obtain ⟨hz, hp⟩ := seededArr_eq_some h hseeds hold
    exact ⟨.inr hz, by rw [if_neg (not_wanted_false_of_isLMS h hz), hp]⟩

/-! ## The S pass -/

/-- The S pass scans downwards and finds the positions of type L in the array. -/
theorem setupS :
    PassSetup sym true (tailSlot sym) (inducedL sym seeds) (locL sym seeds) fun p => sym.length - 1 - p where
  slots := tailSlots sym
  length_arr := by rw [inducedL, length_fill, (setupL h hseeds).length_arr]
  arr_lt p z hz := by
    rcases (inducedL_eq_some h hseeds hz).1 with hw | hlms
    · exact hw.lt
    · exact lt_length_of_isLMS hlms
  arr_base p x hz hx := by
    obtain ⟨hplaced, hp⟩ := inducedL_eq_some h hseeds hz
    have heven := (hplaced.resolve_right (not_isLMS_succ_of_wanted_true h hx)).even
    refine ⟨fun hw => ?_, hp⟩
    have := hw.odd
    omega
  base_arr x hx hw := inducedL_locL h hseeds (.inl (wanted_false_of_not_wanted_true h hx hw))
  base_region x hx hw := locL_region h hseeds (.inl (wanted_false_of_not_wanted_true h hx hw))
  base_type x hx hw := by
    rw [(wanted_false_of_not_wanted_true h hx hw).even]
    exact Nat.zero_ne_one
  flip_lt p hp := by omega
  flip_flip p hp := by omega
  flip_slot c r r' hr hr' := by
    have hlast := ((tailSlots sym).region c r (hr.trans hr')).lt_length
    have := tailSlot_add (hr.trans hr')
    have := tailSlot_add hr'
    omega
  flip_region x p q hx hne hp hq := by
    have hstep := code_step hx.1
    have hodd := hx.odd
    have := hq.lt_of_lt hp (by omega)
    have := hp.lt_length
    omega

theorem invS : PassInv sym true (tailSlot sym) (locL sym seeds) (fun p => sym.length - 1 - p) sym.length
    (placedS sym seeds) := by
  have hreverse : (List.range sym.length).reverse = (List.range sym.length).map fun p => sym.length - 1 - p := by
    refine List.ext_getElem (by simp) fun p h1 h2 => by simp
  rw [placedS, hreverse]
  exact passInv_foldl (setupS h hseeds) le_rfl

theorem mem_placedS (x : Nat) : x ∈ placedS sym seeds ↔ Wanted sym true x :=
  (invS h hseeds).mem_iff_wanted (setupS h hseeds) x

/-! ## Where every position ends -/

/-- Every position ends in the region of its code. -/
theorem locS_region {z : Nat} (hz : z < sym.length) : InRegion sym (code sym z) (locS sym seeds z) := by
  unfold locS passLoc
  split
  case isTrue hw => exact (tailSlots sym).placeOf_region (invS h hseeds).ofType ((mem_placedS h hseeds z).2 hw)
  case isFalse hw => exact locL_region h hseeds (wanted_false_or_isLMS h hz hw)

/-- Every position stands in the array an induction ends with. -/
theorem induced_locS {z : Nat} (hz : z < sym.length) :
    (fill sym (tailSlot sym) (inducedL sym seeds) (placedS sym seeds)).getD (locS sym seeds z) none = some z := by
  unfold locS passLoc
  split
  case isTrue hw =>
    exact (tailSlots sym).fill_placeOf (setupS h hseeds).length_arr (invS h hseeds).ofType ((mem_placedS h hseeds z).2 hw)
  case isFalse hw =>
    have hplaced := wanted_false_or_isLMS h hz hw
    rw [(tailSlots sym).fill_of_outside (invS h hseeds).ofType (locL_region h hseeds hplaced),
      inducedL_locL h hseeds hplaced]
    intro y hy heq
    have hwy := (mem_placedS h hseeds y).1 hy
    refine hw ⟨succ_lt_of_code_eq h hwy.1 hz heq, ?_⟩
    rw [← heq]
    exact hwy.2

/-- Positions of type L with one code end in the order of their successors after the L pass. -/
theorem locL_lt {x y : Nat} (hx : Wanted sym false x) (hy : Wanted sym false y) (hcode : code sym x = code sym y)
    (hlt : locL sym seeds (x + 1) < locL sym seeds (y + 1)) : locL sym seeds x < locL sym seeds y := by
  have hsym := getD_eq_of_code_eq hx.lt hy.lt hcode
  have hrank := (invL h hseeds).ordered x ((mem_placedL h hseeds x).2 hx) y ((mem_placedL h hseeds y).2 hy) hsym hlt
  rw [locL, locL, passLoc, passLoc, if_pos hx, if_pos hy, placeOf, placeOf, hsym]
  exact Nat.add_lt_add_left hrank _

/-- Positions of type S with one code end in the order of their successors. -/
theorem locS_lt {x y : Nat} (hx : Wanted sym true x) (hy : Wanted sym true y) (hcode : code sym x = code sym y)
    (hlt : locS sym seeds (x + 1) < locS sym seeds (y + 1)) : locS sym seeds x < locS sym seeds y := by
  have hsym := getD_eq_of_code_eq hx.lt hy.lt hcode
  have hmemx := (mem_placedS h hseeds x).2 hx
  have hmemy := (mem_placedS h hseeds y).2 hy
  have hend := (locS_region h hseeds hy.1).lt_length
  have htime : sym.length - 1 - locS sym seeds (y + 1) < sym.length - 1 - locS sym seeds (x + 1) := by omega
  have hrank := (invS h hseeds).ordered y hmemy x hmemx hsym.symm htime
  have hslotx := tailSlot_add ((invS h hseeds).ofType.rankIn_lt hmemx)
  have hsloty := tailSlot_add ((invS h hseeds).ofType.rankIn_lt hmemy)
  rw [locS, locS, passLoc, passLoc, if_pos hx, if_pos hy, placeOf, placeOf]
  rw [hsym] at hslotx ⊢
  omega

/-- Seeds with one code stand in the reverse of the order they were given in. -/
theorem locL_lt_of_seeds {R : Nat → Nat → Prop} (hR : seeds.Pairwise R) {x y : Nat} (hx : isLMS (slTypes sym) x = true)
    (hy : isLMS (slTypes sym) y = true) (hxy : x ≠ y) (hcode : code sym x = code sym y) (hno : ¬ R x y) :
    locL sym seeds x < locL sym seeds y := by
  have hsym := getD_eq_of_code_eq (lt_length_of_isLMS hx) (lt_length_of_isLMS hy) hcode
  have hseedsType := ofType_seeds h hseeds
  have hslotx := tailSlot_add (hseedsType.rankIn_lt ((mem_seeds hseeds).2 hx))
  have hsloty := tailSlot_add (hseedsType.rankIn_lt ((mem_seeds hseeds).2 hy))
  rcases rankIn_cases hseedsType.nodup (List.pairwise_reverse.2 hR) ((mem_seeds hseeds).2 hx) ((mem_seeds hseeds).2 hy) hxy hsym
    with ⟨-, hR'⟩ | ⟨hrank, -⟩
  · exact absurd hR' hno
  · rw [locL, locL, passLoc, passLoc, if_neg (not_wanted_false_of_isLMS h hx),
      if_neg (not_wanted_false_of_isLMS h hy), seedLoc, seedLoc, placeOf, placeOf]
    rw [hsym] at hslotx ⊢
    omega

end

/-- A position of type L ends where the L pass put it. -/
theorem locS_of_wanted_false {x : Nat} (hx : Wanted sym false x) : locS sym seeds x = locL sym seeds x := by
  rw [locS, passLoc, if_neg]
  intro hw
  have := hx.even
  have := hw.odd
  omega

end

end Sys2Proof.Machine
end

section
/-! SUPPORT. The order an induction gives (41_suffix_array.md R148 to R151): from seeds in descending suffix order it sorts the
suffixes, from seeds in any order the LMS substrings. Both follow from one law of keys. -/

namespace Sys2Proof.Machine

/-! ## Keys -/

/-- Keys an induction sorts by: `key` of every position is its code and then the seed key of its successor; the seed key of a
position that is not LMS is its key. -/
structure InductionKeys (sym : List Nat) (seedKey key : Nat → List Nat) : Prop where
  cons : ∀ x, x + 1 < sym.length → key x = code sym x :: seedKey (x + 1)
  last : ∀ x, x + 1 = sym.length → key x = [code sym x]
  seed : ∀ x, isLMS (slTypes sym) x = true → ∃ l, seedKey x = code sym x :: l
  other : ∀ x, isLMS (slTypes sym) x ≠ true → seedKey x = key x

section
variable {sym seeds : List Nat} {seedKey key : Nat → List Nat}

theorem InductionKeys.exists_cons (hkeys : InductionKeys sym seedKey key) {x : Nat} (hx : x < sym.length) :
    ∃ l, key x = code sym x :: l := by
  by_cases hlast : x + 1 = sym.length
  · exact ⟨[], hkeys.last x hlast⟩
  · exact ⟨_, hkeys.cons x (by omega)⟩

theorem InductionKeys.exists_seed_cons (hkeys : InductionKeys sym seedKey key) {x : Nat} (hx : x < sym.length) :
    ∃ l, seedKey x = code sym x :: l := by
  by_cases hlms : isLMS (slTypes sym) x = true
  · exact hkeys.seed x hlms
  · rw [hkeys.other x hlms]
    exact hkeys.exists_cons hx

/-- Lists that begin with codes compare by them first. -/
theorem code_le_of_lt {u v : List Nat} {a b : Nat} (hu : ∃ l, u = a :: l) (hv : ∃ l, v = b :: l) (h : u < v) :
    a < b ∨ a = b := by
  obtain ⟨l, rfl⟩ := hu
  obtain ⟨m, rfl⟩ := hv
  exact (List.cons_lt_cons_iff.1 h).imp_right And.left

/-- Keys of one code compare by the seed keys of the successors. -/
theorem InductionKeys.seedKey_lt (hkeys : InductionKeys sym seedKey key) {x y : Nat} (hx : x + 1 < sym.length)
    (hy : y + 1 < sym.length) (hcode : code sym x = code sym y) (hlt : key x < key y) :
    seedKey (x + 1) < seedKey (y + 1) := by
  rw [hkeys.cons x hx, hkeys.cons y hy, hcode] at hlt
  exact ((List.cons_lt_cons_iff.1 hlt).resolve_left (lt_irrefl _)).2

section
variable (h : Terminated sym) (hseeds : seeds.Perm (lmsPositions (slTypes sym))) (hkeys : InductionKeys sym seedKey key)
  (horder : seeds.Pairwise fun x y => code sym x = code sym y → seedKey y ≤ seedKey x)
include h hseeds hkeys horder

/-- The L pass puts positions of type L and seeds in the order of their seed keys. -/
theorem locL_lt_of_seedKey_lt {x y : Nat} (hx : Wanted sym false x ∨ isLMS (slTypes sym) x = true)
    (hy : Wanted sym false y ∨ isLMS (slTypes sym) y = true) (hlt : seedKey x < seedKey y) :
    locL sym seeds x < locL sym seeds y := by
  have hlen {z : Nat} (hz : Wanted sym false z ∨ isLMS (slTypes sym) z = true) : z < sym.length :=
    hz.elim Wanted.lt lt_length_of_isLMS
  induction hd : sym.length - x generalizing x y with
  | zero => have := hlen hx; omega
  | succ d ih =>
    rcases code_le_of_lt (hkeys.exists_seed_cons (hlen hx)) (hkeys.exists_seed_cons (hlen hy)) hlt with hcode | hcode
    · exact (locL_region h hseeds hx).lt_of_lt (locL_region h hseeds hy) hcode
    rcases hx with hx | hx <;> rcases hy with hy | hy
    · have hnext {z : Nat} (hz : Wanted sym false z) : Wanted sym false (z + 1) ∨ isLMS (slTypes sym) (z + 1) = true :=
        or_iff_not_imp_left.2 (isLMS_of_not_wanted h hz)
      rw [hkeys.other x fun hlms => not_wanted_false_of_isLMS h hlms hx,
        hkeys.other y fun hlms => not_wanted_false_of_isLMS h hlms hy] at hlt
      exact locL_lt h hseeds hx hy hcode
        (ih (hnext hx) (hnext hy) (hkeys.seedKey_lt hx.1 hy.1 hcode hlt) (by omega))
    · have := hx.even
      have := code_odd_of_isLMS h hy
      omega
    · have := hy.even
      have := code_odd_of_isLMS h hx
      omega
    · refine locL_lt_of_seeds h hseeds horder hx hy ?_ hcode fun hle => (hle hcode).not_gt hlt
      rintro rfl
      exact lt_irrefl _ hlt

/-- An induction puts all positions in the order of their keys. -/
theorem locS_lt_of_key_lt {x y : Nat} (hx : x < sym.length) (hy : y < sym.length) (hlt : key x < key y) :
    locS sym seeds x < locS sym seeds y := by
  induction hd : sym.length - x generalizing x y with
  | zero => omega
  | succ d ih =>
    rcases code_le_of_lt (hkeys.exists_cons hx) (hkeys.exists_cons hy) hlt with hcode | hcode
    · exact (locS_region h hseeds hx).lt_of_lt (locS_region h hseeds hy) hcode
    by_cases hlast : x + 1 = sym.length
    · have := (code_eq_one_iff h hy).1 (hcode ▸ (code_eq_one_iff h hx).2 hlast)
      obtain rfl : x = y := by omega
      exact absurd hlt (lt_irrefl _)
    have hx' : x + 1 < sym.length := by omega
    have hy' := succ_lt_of_code_eq h hx' hy hcode
    rcases Nat.mod_two_eq_zero_or_one (code sym x) with heven | hodd
    · have hwx : Wanted sym false x := ⟨hx', heven⟩
      have hwy : Wanted sym false y := ⟨hy', hcode ▸ heven⟩
      rw [locS_of_wanted_false hwx, locS_of_wanted_false hwy]
      refine locL_lt_of_seedKey_lt h hseeds hkeys horder (.inl hwx) (.inl hwy) ?_
      rwa [hkeys.other x fun hlms => not_wanted_false_of_isLMS h hlms hwx,
        hkeys.other y fun hlms => not_wanted_false_of_isLMS h hlms hwy]
    · have hwx : Wanted sym true x := ⟨hx', hodd⟩
      have hwy : Wanted sym true y := ⟨hy', hcode ▸ hodd⟩
      have hrest := hkeys.seedKey_lt hx' hy' hcode hlt
      rw [hkeys.other _ (not_isLMS_succ_of_wanted_true h hwx), hkeys.other _ (not_isLMS_succ_of_wanted_true h hwy)] at hrest
      exact locS_lt h hseeds hwx hwy hcode (ih hx' hy' hrest (by omega))

end

/-! ## The array as a list of positions -/

/-- A list that holds each of as many different elements at the index `pos` gives it is an arrangement of them in the order
of `pos`. -/
theorem perm_and_pairwise_of_pos {α : Type} {l arr : List α} {pos : α → Nat} (hl : l.Nodup) (hlen : arr.length = l.length)
    (hpos : ∀ x ∈ l, arr[pos x]? = some x) : arr.Perm l ∧ arr.Pairwise fun x y => pos x < pos y := by
  have hsub : l.Subperm arr := List.subperm_of_subset hl fun x hx => List.mem_of_getElem? (hpos x hx)
  have hperm : arr.Perm l := (hsub.perm_of_length_le hlen.le).symm
  have hindex (i : Nat) (hi : i < arr.length) : pos arr[i] = i := by
    have hat := hpos arr[i] (hperm.mem_iff.1 (List.getElem_mem hi))
    obtain ⟨hlt, heq⟩ := List.getElem?_eq_some_iff.1 hat
    exact (hperm.nodup_iff.2 hl).getElem_inj_iff.1 heq
  refine ⟨hperm, List.pairwise_iff_getElem.2 fun i j hi hj hij => ?_⟩
  rwa [hindex i hi, hindex j hj]

/-- An induction gives an arrangement of all positions in the order of their keys. -/
theorem induce_sorts {k : Nat} (h : Terminated sym) (hk : ∀ j, sym.getD j 0 < k)
    (hseeds : seeds.Perm (lmsPositions (slTypes sym))) (hkeys : InductionKeys sym seedKey key)
    (horder : seeds.Pairwise fun x y => code sym x = code sym y → seedKey y ≤ seedKey x) :
    ∃ sa : List Nat, induce sym (slTypes sym) k seeds = sa.map some ∧ sa.Perm (List.range sym.length) ∧
      sa.Pairwise fun x y => key x ≤ key y := by
  have hentry (x : Nat) (hx : x < sym.length) : (induce sym (slTypes sym) k seeds)[locS sym seeds x]? = some (some x) := by
    have hlt := (locS_region h hseeds hx).lt_length
    rw [← length_induce sym (slTypes sym) k seeds] at hlt
    rw [List.getElem?_eq_getElem hlt, ← List.getD_eq_getElem _ none hlt, induce_eq_fill hk]
    exact congrArg some (induced_locS h hseeds hx)
  have hentries : ∀ e ∈ (List.range sym.length).map some,
      (induce sym (slTypes sym) k seeds)[locS sym seeds (e.getD 0)]? = some e := by
    intro e he
    obtain ⟨x, hx, rfl⟩ := List.mem_map.1 he
    exact hentry x (List.mem_range.1 hx)
  obtain ⟨hperm, hpos⟩ := perm_and_pairwise_of_pos (List.nodup_range.map (Option.some_injective _))
    (by rw [length_induce, List.length_map, List.length_range]) hentries
  obtain ⟨sa, hsa⟩ : ∃ sa : List Nat, sa.map some = induce sym (slTypes sym) k seeds := by
    rw [← Set.mem_range, Set.range_list_map]
    intro e he
    obtain ⟨x, -, hx⟩ := List.mem_map.1 (hperm.mem_iff.1 he)
    exact ⟨x, hx⟩
  rw [← hsa] at hperm hpos
  have hperm' : sa.Perm (List.range sym.length) := (List.map_perm_map_iff (Option.some_injective _)).1 hperm
  have hlt {x : Nat} (hx : x ∈ sa) : x < sym.length := List.mem_range.1 (hperm'.mem_iff.1 hx)
  refine ⟨sa, hsa.symm, hperm', (List.pairwise_map.1 hpos).imp_of_mem fun hx hy hxy => ?_⟩
  exact le_of_not_gt fun hgt => hxy.asymm (locS_lt_of_key_lt h hseeds hkeys horder (hlt hy) (hlt hx) hgt)

/-! ## Suffixes as keys -/

theorem inductionKeys_drop (sym : List Nat) :
    InductionKeys sym (fun x => (codes sym).drop x) (fun x => (codes sym).drop x) where
  cons x hx := drop_codes (by omega)
  last x hx := by rw [drop_codes (by omega), List.drop_eq_nil_of_le (by rw [length_codes]; omega)]
  seed x hx := ⟨_, drop_codes (lt_length_of_isLMS hx)⟩
  other _ _ := rfl

/-! ## LMS substrings as keys -/

/-- The next LMS position (R146). -/
def nextLMS (sym : List Nat) (x : Nat) : Option Nat := (lmsPositions (slTypes sym)).find? fun k => decide (x < k)

/-- The LMS substring of a position (R146), in codes. -/
def lmsCode (sym : List Nat) (x : Nat) : List Nat := (lmsSub sym (slTypes sym) x).map encodeTyped

theorem lmsSub_eq_iff {x y : Nat} :
    lmsSub sym (slTypes sym) x = lmsSub sym (slTypes sym) y ↔ lmsCode sym x = lmsCode sym y :=
  (List.map_injective_iff.2 encodeTyped_injective).eq_iff.symm

theorem nextLMS_eq_some_iff {x k : Nat} :
    nextLMS sym x = some k ↔ isLMS (slTypes sym) k = true ∧ x < k ∧ ∀ j, x < j → j < k → isLMS (slTypes sym) j ≠ true := by
  rw [nextLMS, lmsPositions, List.find?_filter, List.find?_range_eq_some, List.mem_range, length_slTypes]
  simp only [decide_eq_true_eq, Bool.not_eq_true', ← Bool.not_eq_true, not_and]
  constructor
  · rintro ⟨⟨hlms, hlt⟩, -, hmin⟩
    exact ⟨hlms, hlt, fun j hxj hjk hj => hmin j hjk hj hxj⟩
  · rintro ⟨hlms, hlt, hmin⟩
    exact ⟨⟨hlms, hlt⟩, lt_length_of_isLMS hlms, fun j hjk hj hxj => hmin j hxj hjk hj⟩

theorem nextLMS_of_isLMS_succ {x : Nat} (hx : isLMS (slTypes sym) (x + 1) = true) : nextLMS sym x = some (x + 1) :=
  nextLMS_eq_some_iff.2 ⟨hx, by omega, fun j _ _ => by omega⟩

theorem nextLMS_of_not_isLMS_succ {x : Nat} (hx : isLMS (slTypes sym) (x + 1) ≠ true) :
    nextLMS sym x = nextLMS sym (x + 1) := by
  refine Option.ext fun k => ?_
  rw [nextLMS_eq_some_iff, nextLMS_eq_some_iff]
  constructor
  · rintro ⟨hk, hlt, hmin⟩
    have : k ≠ x + 1 := fun heq => hx (heq ▸ hk)
    exact ⟨hk, by omega, fun j hj => hmin j (by omega)⟩
  · rintro ⟨hk, hlt, hmin⟩
    refine ⟨hk, by omega, fun j hj hjk => ?_⟩
    by_cases heq : j = x + 1
    · exact heq ▸ hx
    · exact hmin j (by omega) hjk

theorem exists_nextLMS {x : Nat} (hx : x + 1 < sym.length) : ∃ k, nextLMS sym x = some k := by
  rw [← Option.isSome_iff_exists, nextLMS, List.find?_isSome]
  exact ⟨sym.length - 1, mem_lmsPositions.2 (isLMS_last (by omega)), decide_eq_true (by omega)⟩

theorem lmsCode_of_nextLMS {x k : Nat} (hk : nextLMS sym x = some k) :
    lmsCode sym x = ((codes sym).drop x).take (k - x + 1) := by
  rw [nextLMS] at hk
  rw [lmsCode, lmsSub, hk, codes, List.map_take, List.map_drop]

theorem lmsCode_last {x : Nat} (hx : x + 1 = sym.length) : lmsCode sym x = [code sym x] := by
  have hnone : nextLMS sym x = none := by
    rw [Option.eq_none_iff_forall_ne_some]
    intro k hk
    obtain ⟨hlms, hlt, -⟩ := nextLMS_eq_some_iff.1 hk
    have := lt_length_of_isLMS hlms
    omega
  rw [nextLMS] at hnone
  rw [lmsCode, lmsSub, hnone, List.map_drop, ← codes, drop_codes (by omega),
    List.drop_eq_nil_of_le (by rw [length_codes]; omega)]

/-- The seed key of an LMS substring: of the LMS position that ends it only the code. -/
def lmsSeedCode (sym : List Nat) (x : Nat) : List Nat :=
  if isLMS (slTypes sym) x = true then [code sym x] else lmsCode sym x

theorem lmsCode_cons {x : Nat} (hx : x + 1 < sym.length) : lmsCode sym x = code sym x :: lmsSeedCode sym (x + 1) := by
  obtain ⟨k, hk⟩ := exists_nextLMS hx
  obtain ⟨-, hlt, -⟩ := nextLMS_eq_some_iff.1 hk
  rw [lmsCode_of_nextLMS hk, drop_codes (by omega), List.take_succ_cons, lmsSeedCode]
  congr 1
  split
  case isTrue hlms =>
    rw [nextLMS_of_isLMS_succ hlms, Option.some.injEq] at hk
    rw [← hk, drop_codes hx, show x + 1 - x = 0 + 1 by omega, List.take_succ_cons, List.take_zero]
  case isFalse hlms =>
    rw [nextLMS_of_not_isLMS_succ hlms] at hk
    obtain ⟨-, hlt', -⟩ := nextLMS_eq_some_iff.1 hk
    rw [lmsCode_of_nextLMS hk, show k - (x + 1) + 1 = k - x by omega]

theorem inductionKeys_lmsCode (sym : List Nat) : InductionKeys sym (lmsSeedCode sym) (lmsCode sym) where
  cons _ hx := lmsCode_cons hx
  last _ hx := lmsCode_last hx
  seed _ hx := ⟨[], if_pos hx⟩
  other _ hx := if_neg hx

end

end Sys2Proof.Machine
end

section
/-! SUPPORT. Naming, reduction and recursion of the induced-sorting procedure (41_suffix_array.md R149 to R151). -/

namespace Sys2Proof.Machine

section
variable {sym : List Nat}

/-! ## LMS substrings and suffixes -/

/-- Of two suffixes the less has an LMS substring that is not greater. -/
theorem lmsCode_le_of_drop_lt (h : Terminated sym) {x y : Nat} (hx : x < sym.length) (hy : y < sym.length)
    (hlt : (codes sym).drop x < (codes sym).drop y) : lmsCode sym x ≤ lmsCode sym y := by
  have hless {u v : List Nat} {a b : Nat} (hu : ∃ l, u = a :: l) (hv : ∃ l, v = b :: l) (hab : a < b) : u ≤ v := by
    obtain ⟨l, rfl⟩ := hu
    obtain ⟨m, rfl⟩ := hv
    exact (List.cons_lt_cons_iff.2 (.inl hab)).le
  have hkeys := inductionKeys_lmsCode sym
  induction hd : sym.length - x generalizing x y with
  | zero => omega
  | succ d ih =>
    rcases (drop_codes_lt_iff hx hy).1 hlt with hcode | ⟨hcode, hrest⟩
    · exact hless (hkeys.exists_cons hx) (hkeys.exists_cons hy) hcode
    by_cases hlast : x + 1 = sym.length
    · have := (code_eq_one_iff h hy).1 (hcode ▸ (code_eq_one_iff h hx).2 hlast)
      obtain rfl : x = y := by omega
      exact le_rfl
    have hx' : x + 1 < sym.length := by omega
    have hy' := succ_lt_of_code_eq h hx' hy hcode
    rw [lmsCode_cons hx', lmsCode_cons hy', hcode]
    refine List.cons_le_cons _ ?_
    rcases (drop_codes_lt_iff hx' hy').1 hrest with hnext | ⟨hnext, -⟩
    · exact hless (hkeys.exists_seed_cons hx') (hkeys.exists_seed_cons hy') hnext
    · have hlms : isLMS (slTypes sym) (x + 1) = true ↔ isLMS (slTypes sym) (y + 1) = true := by
        rw [isLMS_succ_iff h hx', isLMS_succ_iff h hy', hcode, hnext]
      by_cases hxlms : isLMS (slTypes sym) (x + 1) = true
      · rw [lmsSeedCode, lmsSeedCode, if_pos hxlms, if_pos (hlms.1 hxlms), hnext]
      · rw [lmsSeedCode, lmsSeedCode, if_neg hxlms, if_neg (mt hlms.2 hxlms)]
        exact ih hx' hy' hrest (by omega)

/-- A position of the less LMS substring has the less suffix. -/
theorem drop_lt_of_lmsCode_lt (h : Terminated sym) {x y : Nat} (hx : x < sym.length) (hy : y < sym.length)
    (hlt : lmsCode sym x < lmsCode sym y) : (codes sym).drop x < (codes sym).drop y := by
  rcases lt_trichotomy ((codes sym).drop x) ((codes sym).drop y) with hd | hd | hd
  · exact hd
  · obtain rfl := drop_inj (by rwa [length_codes]) (by rwa [length_codes]) hd
    exact absurd hlt (lt_irrefl _)
  · exact absurd hlt (lmsCode_le_of_drop_lt h hy hx hd).not_gt

/-- Positions of equal LMS substrings have suffixes in the order of those of their next LMS positions. -/
theorem drop_lt_of_lmsCode_eq {x y x' y' : Nat} (hx : nextLMS sym x = some x') (hy : nextLMS sym y = some y')
    (heq : lmsCode sym x = lmsCode sym y) (hlt : (codes sym).drop x' < (codes sym).drop y') :
    (codes sym).drop x < (codes sym).drop y := by
  obtain ⟨hxlms, hxlt, -⟩ := nextLMS_eq_some_iff.1 hx
  obtain ⟨hylms, hylt, -⟩ := nextLMS_eq_some_iff.1 hy
  have hx' := lt_length_of_isLMS hxlms
  have hy' := lt_length_of_isLMS hylms
  rw [lmsCode_of_nextLMS hx, lmsCode_of_nextLMS hy] at heq
  have hlen : x' - x = y' - y := by
    have := congrArg List.length heq
    simp only [List.length_take, List.length_drop, length_codes] at this
    omega
  have hsplit {z z' : Nat} (hz : z < z') :
      (codes sym).drop z = ((codes sym).drop z).take (z' - z) ++ (codes sym).drop z' := by
    conv_lhs => rw [← List.take_append_drop (z' - z) ((codes sym).drop z), List.drop_drop, Nat.add_sub_cancel' hz.le]
  have hprefix : ((codes sym).drop x).take (x' - x) = ((codes sym).drop y).take (x' - x) := by
    have := congrArg (List.take (x' - x)) heq
    rwa [List.take_take, List.take_take, Nat.min_eq_left (by omega), Nat.min_eq_left (by omega)] at this
  rw [hsplit hxlt, hsplit hylt, ← hlen, hprefix]
  exact List.append_left_lt hlt

/-! ## Naming (R149) -/

theorem nameStep_next (names : List Nat) (r prev j : Nat) :
    nameStep sym (slTypes sym) ⟨names, r + 1, some prev⟩ j =
      ⟨names.set j (if lmsCode sym j = lmsCode sym prev then r else r + 1),
        (if lmsCode sym j = lmsCode sym prev then r else r + 1) + 1, some j⟩ := by
  simp only [nameStep, ne_eq, lmsSub_eq_iff, decide_not]
  by_cases hcode : lmsCode sym j = lmsCode sym prev <;> simp [hcode]

/-- Naming is ranking along the order met, by LMS substring. -/
theorem foldl_nameStep (names : List Nat) (r prev : Nat) (rest : List Nat) :
    (rest.foldl (nameStep sym (slTypes sym)) ⟨names, r + 1, some prev⟩).names =
        (rankAlong (lmsCode sym) names r prev rest).1 ∧
      (rest.foldl (nameStep sym (slTypes sym)) ⟨names, r + 1, some prev⟩).count =
        (rankAlong (lmsCode sym) names r prev rest).2 + 1 := by
  induction rest generalizing names r prev with
  | nil => exact ⟨rfl, rfl⟩
  | cons j rest ih =>
    rw [List.foldl_cons, nameStep_next, rankAlong]
    by_cases hcode : lmsCode sym j = lmsCode sym prev
    · simp only [if_pos hcode]
      exact ih _ _ _
    · simp only [if_neg hcode]
      exact ih _ _ _

/-- The names order the LMS positions as their LMS substrings. -/
theorem exists_ranksBy_nameLMS {k : Nat} (h : Terminated sym) (hk : ∀ j, sym.getD j 0 < k) :
    ∃ l top, l.Perm (lmsPositions (slTypes sym)) ∧
      RanksBy (lmsCode sym) l
        (nameLMS sym (slTypes sym) (induce sym (slTypes sym) k (lmsPositions (slTypes sym)).reverse)).names 0 top ∧
      (nameLMS sym (slTypes sym) (induce sym (slTypes sym) k (lmsPositions (slTypes sym)).reverse)).count = top + 1 := by
  have hpos := h.length_pos
  have horder : (lmsPositions (slTypes sym)).reverse.Pairwise fun x y =>
      code sym x = code sym y → lmsSeedCode sym y ≤ lmsSeedCode sym x := by
    refine List.pairwise_of_forall_mem_list fun x hx y hy hcode => ?_
    rw [List.mem_reverse, mem_lmsPositions] at hx hy
    rw [lmsSeedCode, lmsSeedCode, if_pos hx, if_pos hy, hcode]
  obtain ⟨sa, hsa, hperm, hsorted⟩ :=
    induce_sorts h hk (List.reverse_perm _) (inductionKeys_lmsCode sym) horder
  have hlms : (sa.filter (isLMS (slTypes sym))).Perm (lmsPositions (slTypes sym)) := by
    rw [lmsPositions, length_slTypes]
    exact hperm.filter _
  have hsorted := hsorted.filter (isLMS (slTypes sym))
  have hmem {x : Nat} (hx : x ∈ sa.filter (isLMS (slTypes sym))) : x < sym.length :=
    lt_length_of_isLMS (mem_lmsPositions.1 (hlms.mem_iff.1 hx))
  refine ⟨sa.filter (isLMS (slTypes sym)), ?_⟩
  rw [hsa, nameLMS, List.filterMap_map, show ((fun e : Option Nat => e) ∘ some) = some from rfl, List.filterMap_some]
  cases hl : sa.filter (isLMS (slTypes sym)) with
  | nil =>
    rw [hl] at hlms
    have := hlms.symm.mem_iff.1 (mem_lmsPositions.2 (isLMS_last (by omega : sym.length - 1 + 1 = sym.length)))
    cases this
  | cons first rest =>
    rw [hl] at hlms hsorted hmem
    obtain ⟨hnames, hcount⟩ := foldl_nameStep (sym := sym) ((List.replicate sym.length 0).set first 0) 0 first rest
    rw [List.foldl_cons]
    have hnodup := hlms.nodup_iff.2 (nodup_lmsPositions sym)
    refine ⟨_, hlms, hnames ▸ rankAlong_ranksBy _ hnodup hsorted (fun i hi => ?_) ?_, hcount⟩
    · rw [List.length_set, List.length_replicate]
      exact hmem (List.mem_cons_of_mem _ hi)
    · exact getD_set_self (by rw [List.length_replicate]; exact hmem List.mem_cons_self) _ _

/-! ## Reduction (R150) -/

/-- The reduced sequence: the names of the LMS positions in text order. -/
def reduced (sym names : List Nat) : List Nat := (lmsPositions (slTypes sym)).map fun j => names.getD j 0

/-- `order` lists the LMS positions in ascending suffix order. -/
def OrdersLMS (sym order : List Nat) : Prop :=
  order.Perm (lmsPositions (slTypes sym)) ∧ order.Pairwise fun x y => (codes sym).drop x < (codes sym).drop y

theorem isLMS_getD_lmsPositions {a : Nat} (ha : a < (lmsPositions (slTypes sym)).length) :
    isLMS (slTypes sym) ((lmsPositions (slTypes sym)).getD a 0) = true := by
  rw [List.getD_eq_getElem _ _ ha]
  exact mem_lmsPositions.1 (List.getElem_mem ha)

theorem nextLMS_getD_lmsPositions {a : Nat} (ha : a + 1 < (lmsPositions (slTypes sym)).length) :
    nextLMS sym ((lmsPositions (slTypes sym)).getD a 0) = some ((lmsPositions (slTypes sym)).getD (a + 1) 0) := by
  have hsorted := (pairwise_lmsPositions sym).sortedLT
  refine nextLMS_eq_some_iff.2 ⟨isLMS_getD_lmsPositions ha, ?_, fun j hj hj' hlms => ?_⟩
  · rw [List.getD_eq_getElem _ _ (by omega), List.getD_eq_getElem _ _ ha]
    exact hsorted.getElem_lt_getElem_iff.2 (by omega)
  · obtain ⟨i, hi, rfl⟩ := List.getElem_of_mem (mem_lmsPositions.2 hlms)
    rw [List.getD_eq_getElem _ _ (by omega)] at hj
    rw [List.getD_eq_getElem _ _ ha] at hj'
    have := hsorted.getElem_lt_getElem_iff.1 hj
    have := hsorted.getElem_lt_getElem_iff.1 hj'
    omega

/-- The last LMS position is the last position. -/
theorem lmsPositions_eq_append (h : Terminated sym) :
    lmsPositions (slTypes sym) = ((List.range (sym.length - 1)).filter (isLMS (slTypes sym))) ++ [sym.length - 1] := by
  have hpos := h.length_pos
  have hlast : isLMS (slTypes sym) (sym.length - 1) = true := isLMS_last (by omega)
  rw [lmsPositions, length_slTypes, show sym.length = sym.length - 1 + 1 by omega, List.range_succ, List.filter_append,
    Nat.add_sub_cancel, List.filter_singleton, hlast]
  rfl

section
variable {l names : List Nat} {top : Nat} (h : Terminated sym) (hl : l.Perm (lmsPositions (slTypes sym)))
  (hnames : RanksBy (lmsCode sym) l names 0 top)
include h hl hnames

omit h in
theorem name_lt_iff {x y : Nat} (hx : isLMS (slTypes sym) x = true) (hy : isLMS (slTypes sym) y = true) :
    names.getD x 0 < names.getD y 0 ↔ lmsCode sym x < lmsCode sym y :=
  hnames.lt_iff x (hl.mem_iff.2 (mem_lmsPositions.2 hx)) y (hl.mem_iff.2 (mem_lmsPositions.2 hy))

omit h in
theorem name_eq_iff {x y : Nat} (hx : isLMS (slTypes sym) x = true) (hy : isLMS (slTypes sym) y = true) :
    names.getD x 0 = names.getD y 0 ↔ lmsCode sym x = lmsCode sym y := by
  rw [le_antisymm_iff, le_antisymm_iff, ← not_lt, ← not_lt, ← not_lt, ← not_lt, name_lt_iff hl hnames hx hy,
    name_lt_iff hl hnames hy hx]

/-- The last position has the least LMS substring, so name 0, which no other has (R149). -/
theorem name_pos_iff {x : Nat} (hx : isLMS (slTypes sym) x = true) : 0 < names.getD x 0 ↔ x + 1 < sym.length := by
  have hpos := h.length_pos
  have hlast : sym.length - 1 + 1 = sym.length := by omega
  have hless {y : Nat} (hy : y + 1 < sym.length) : lmsCode sym (sym.length - 1) < lmsCode sym y := by
    rw [lmsCode_last hlast, lmsCode_cons hy, (code_eq_one_iff h (by omega)).2 hlast]
    exact List.cons_lt_cons_iff.2 (.inl (one_lt_code h hy))
  have hlt := lt_length_of_isLMS hx
  constructor
  · intro hname
    obtain ⟨z, hz, hzero⟩ := hnames.exists_low
    have hzlms := mem_lmsPositions.1 (hl.mem_iff.1 hz)
    have hzlt := lt_length_of_isLMS hzlms
    by_contra hge
    obtain rfl : x = sym.length - 1 := by omega
    by_cases hz' : z + 1 < sym.length
    · have := (name_lt_iff hl hnames hx hzlms).2 (hless hz')
      omega
    · obtain rfl : z = sym.length - 1 := by omega
      omega
  · intro hx'
    have := (name_lt_iff hl hnames (isLMS_last hlast) hx).2 (hless hx')
    omega

theorem reduced_terminated : Terminated (reduced sym names) := by
  have hpos := h.length_pos
  have hlast : ¬ 0 < names.getD (sym.length - 1) 0 := by
    rw [name_pos_iff h hl hnames (isLMS_last (by omega))]
    omega
  refine ⟨((List.range (sym.length - 1)).filter (isLMS (slTypes sym))).map fun j => names.getD j 0, ?_, ?_⟩
  · rw [reduced, lmsPositions_eq_append h, List.map_append, List.map_singleton, Nat.eq_zero_of_not_pos hlast]
  · intro y hy
    obtain ⟨x, hx, rfl⟩ := List.mem_map.1 hy
    obtain ⟨hlt, hlms⟩ := List.mem_filter.1 hx
    exact ((name_pos_iff h hl hnames hlms).2 (by have := List.mem_range.1 hlt; omega)).ne'

omit h in
theorem reduced_lt {x : Nat} (hx : x ∈ reduced sym names) : x < top + 1 := by
  obtain ⟨j, hj, rfl⟩ := List.mem_map.1 hx
  exact Nat.lt_succ_of_le (hnames.le_top j (hl.mem_iff.2 hj))

/-- Suffixes of the reduced sequence compare as the suffixes of the LMS positions. -/
theorem drop_lt_of_drop_reduced_lt {a b : Nat} (ha : a < (lmsPositions (slTypes sym)).length)
    (hb : b < (lmsPositions (slTypes sym)).length) (hlt : (reduced sym names).drop a < (reduced sym names).drop b) :
    (codes sym).drop ((lmsPositions (slTypes sym)).getD a 0) < (codes sym).drop ((lmsPositions (slTypes sym)).getD b 0) := by
  have hlen : (reduced sym names).length = (lmsPositions (slTypes sym)).length := List.length_map _
  have hname {a : Nat} (ha : a < (lmsPositions (slTypes sym)).length) :
      (reduced sym names).getD a 0 = names.getD ((lmsPositions (slTypes sym)).getD a 0) 0 := by
    rw [List.getD_eq_getElem _ _ (by rwa [hlen]), List.getD_eq_getElem _ _ ha]
    exact List.getElem_map _
  induction hd : (lmsPositions (slTypes sym)).length - a generalizing a b with
  | zero => omega
  | succ d ih =>
    have halms := isLMS_getD_lmsPositions ha
    have hblms := isLMS_getD_lmsPositions hb
    rw [drop_lt_drop_iff (by rwa [hlen]) (by rwa [hlen]), hname ha, hname hb, name_lt_iff hl hnames halms hblms,
      name_eq_iff hl hnames halms hblms] at hlt
    rcases hlt with hcode | ⟨hcode, hrest⟩
    · exact drop_lt_of_lmsCode_lt h (lt_length_of_isLMS halms) (lt_length_of_isLMS hblms) hcode
    by_cases hb' : b + 1 < (lmsPositions (slTypes sym)).length
    · by_cases ha' : a + 1 < (lmsPositions (slTypes sym)).length
      · exact drop_lt_of_lmsCode_eq (nextLMS_getD_lmsPositions ha') (nextLMS_getD_lmsPositions hb') hcode
          (ih ha' hb' hrest (by omega))
      · have hzero := (reduced_terminated h hl hnames).getD_eq_zero_iff (i := a) (by rwa [hlen])
        have hzero' := (reduced_terminated h hl hnames).getD_eq_zero_iff (i := b) (by rwa [hlen])
        rw [hname ha, (name_eq_iff hl hnames halms hblms).2 hcode, ← hname hb, hzero', hlen] at hzero
        omega
    · rw [List.drop_eq_nil_of_le (by omega : (reduced sym names).length ≤ b + 1)] at hrest
      exact absurd hrest (List.not_lt_nil _)

/-- The suffix array of the reduced sequence gives the order of the LMS positions. -/
theorem ordersLMS_of_sorts {b : List Nat} (hb : Sorts (reduced sym names) b) :
    OrdersLMS sym (b.map fun i => (lmsPositions (slTypes sym)).getD i 0) := by
  obtain ⟨hperm, hsorted⟩ := hb
  rw [reduced, List.length_map] at hperm
  constructor
  · refine (hperm.map _).trans (List.Perm.of_eq (List.ext_getElem (by simp) fun i h1 h2 => ?_))
    rw [List.getElem_map, List.getElem_range, List.getD_eq_getElem _ _ h2]
  · refine List.pairwise_map.2 (hsorted.imp_of_mem fun hi hj hij => ?_)
    exact drop_lt_of_drop_reduced_lt h hl hnames (List.mem_range.1 (hperm.mem_iff.1 hi))
      (List.mem_range.1 (hperm.mem_iff.1 hj)) hij

end

/-! ## The order when all names are distinct (R150) -/

theorem length_foldl_set (f : Nat → Nat) (l o : List Nat) : (l.foldl (fun o x => o.set (f x) x) o).length = o.length := by
  induction l generalizing o with
  | nil => rfl
  | cons y l ih => rw [List.foldl_cons, ih, List.length_set]

theorem foldl_set_of_ne {f : Nat → Nat} {l o : List Nat} {p : Nat} (hp : ∀ x ∈ l, f x ≠ p) :
    (l.foldl (fun o x => o.set (f x) x) o)[p]? = o[p]? := by
  induction l generalizing o with
  | nil => rfl
  | cons y l ih =>
    rw [List.foldl_cons, ih fun x hx => hp x (List.mem_cons_of_mem _ hx), List.getElem?_set_ne (hp y List.mem_cons_self)]

/-- Elements stored each at an index of its own stand there. -/
theorem foldl_set_getElem? {f : Nat → Nat} {l o : List Nat} (hinj : ∀ x ∈ l, ∀ y ∈ l, f x = f y → x = y)
    (hlt : ∀ x ∈ l, f x < o.length) {x : Nat} (hx : x ∈ l) : (l.foldl (fun o x => o.set (f x) x) o)[f x]? = some x := by
  induction l generalizing o with
  | nil => cases hx
  | cons y l ih =>
    rw [List.foldl_cons]
    by_cases hxl : x ∈ l
    · exact ih (fun a ha b hb => hinj a (List.mem_cons_of_mem _ ha) b (List.mem_cons_of_mem _ hb))
        (fun a ha => by rw [List.length_set]; exact hlt a (List.mem_cons_of_mem _ ha)) hxl
    · obtain rfl := (List.mem_cons.1 hx).resolve_right hxl
      rw [foldl_set_of_ne, List.getElem?_set_self (hlt x hx)]
      intro z hz heq
      exact hxl (hinj z (List.mem_cons_of_mem _ hz) x hx heq ▸ hz)

theorem orderByName_map (f : Nat → Nat) (l : List Nat) :
    orderByName l (l.map f) = l.foldl (fun o x => o.set (f x) x) (List.replicate l.length 0) := by
  have hzip (l o : List Nat) :
      ((l.map f).zip l).foldl (fun o p => o.set p.1 p.2) o = l.foldl (fun o x => o.set (f x) x) o := by
    induction l generalizing o with
    | nil => rfl
    | cons x l ih => exact ih _
  exact hzip l _

/-- When all names are distinct, placing each LMS position at its name orders them. -/
theorem ordersLMS_orderByName {l names : List Nat} {top : Nat} (h : Terminated sym)
    (hl : l.Perm (lmsPositions (slTypes sym))) (hnames : RanksBy (lmsCode sym) l names 0 top)
    (hdistinct : top + 1 = (lmsPositions (slTypes sym)).length) :
    OrdersLMS sym (orderByName (lmsPositions (slTypes sym)) (reduced sym names)) := by
  have hstrict := hnames.strict_iff.1 (by rw [Nat.zero_add, hl.length_eq, hdistinct])
  have hinj (x : Nat) (hx : x ∈ lmsPositions (slTypes sym)) (y : Nat) (hy : y ∈ lmsPositions (slTypes sym))
      (hname : names.getD x 0 = names.getD y 0) : x = y := by
    have hcode := (name_eq_iff hl hnames (mem_lmsPositions.1 hx) (mem_lmsPositions.1 hy)).1 hname
    by_contra hne
    have : Std.Symm fun x y => lmsCode sym x ≠ lmsCode sym y := ⟨fun _ _ => Ne.symm⟩
    have hdiffer : l.Pairwise fun x y => lmsCode sym x ≠ lmsCode sym y := hstrict.imp fun hlt => hlt.ne
    exact hdiffer.forall (hl.mem_iff.2 hx) (hl.mem_iff.2 hy) hne hcode
  have hlt (x : Nat) (hx : x ∈ lmsPositions (slTypes sym)) : names.getD x 0 < (lmsPositions (slTypes sym)).length := by
    have := hnames.le_top x (hl.mem_iff.2 hx)
    omega
  rw [reduced, orderByName_map]
  obtain ⟨hperm, hsorted⟩ := perm_and_pairwise_of_pos (nodup_lmsPositions sym)
    (arr := (lmsPositions (slTypes sym)).foldl (fun o x => o.set (names.getD x 0) x)
      (List.replicate (lmsPositions (slTypes sym)).length 0))
    (pos := fun x => names.getD x 0) (by rw [length_foldl_set, List.length_replicate])
    fun x hx => foldl_set_getElem? hinj (by rwa [List.length_replicate]) hx
  refine ⟨hperm, hsorted.imp_of_mem fun hx hy hxy => ?_⟩
  have hxlms := mem_lmsPositions.1 (hperm.mem_iff.1 hx)
  have hylms := mem_lmsPositions.1 (hperm.mem_iff.1 hy)
  exact drop_lt_of_lmsCode_lt h (lt_length_of_isLMS hxlms) (lt_length_of_isLMS hylms)
    ((name_lt_iff hl hnames hxlms hylms).1 hxy)

/-! ## The procedure (R151) -/

/-- The final induction sorts the suffixes. -/
theorem induce_sorts_of_ordersLMS {order : List Nat} {k : Nat} (h : Terminated sym) (hk : ∀ j, sym.getD j 0 < k)
    (horder : OrdersLMS sym order) :
    Sorts sym ((induce sym (slTypes sym) k order.reverse).map fun e => e.getD 0) := by
  obtain ⟨hperm, hsorted⟩ := horder
  obtain ⟨sa, hsa, hsaperm, hle⟩ := induce_sorts h hk ((List.reverse_perm _).trans hperm) (inductionKeys_drop sym)
    (List.pairwise_reverse.2 (hsorted.imp fun hlt _ => hlt.le))
  have hmap : (sa.map some).map (fun e : Option Nat => e.getD 0) = sa := by
    rw [List.map_map]
    exact List.map_id _
  rw [hsa, hmap]
  have hlt {x : Nat} (hx : x ∈ sa) : x < sym.length := List.mem_range.1 (hsaperm.mem_iff.1 hx)
  refine ⟨hsaperm, (hle.and (hsaperm.nodup_iff.2 List.nodup_range)).imp_of_mem fun hx hy ⟨hxy, hne⟩ => ?_⟩
  refine drop_lt_of_drop_codes_lt h (hlt hx) (hlt hy) (hxy.lt_of_ne fun heq => hne ?_)
  exact drop_inj (by rw [length_codes]; exact hlt hx) (by rw [length_codes]; exact hlt hy) heq

end

/-- The procedure builds the suffix array, by induction on the fuel: the reduced sequence is one the procedure takes, and
shorter (R152). -/
theorem sais_sorts (fuel : Nat) {sym : List Nat} {k : Nat} (h : Terminated sym) (hk : ∀ x ∈ sym, x < k)
    (hfuel : sym.length ≤ fuel) : Sorts sym (sais fuel sym k) := by
  induction fuel generalizing sym k with
  | zero => have := h.length_pos; omega
  | succ fuel ih =>
    rw [sais]
    split
    case isTrue hone => exact ⟨by rw [hone]; exact List.Perm.refl _, List.pairwise_singleton _ _⟩
    case isFalse hone =>
      have hpos := h.length_pos
      have hk' (j : Nat) : sym.getD j 0 < k := by
        have hzero : 0 < k := by
          obtain ⟨body, rfl, -⟩ := h
          exact hk 0 (by simp)
        by_cases hj : j < sym.length
        · rw [List.getD_eq_getElem _ _ hj]
          exact hk _ (List.getElem_mem hj)
        · rwa [List.getD_eq_default _ _ (by omega)]
      obtain ⟨l, top, hl, hnames, hcount⟩ := exists_ranksBy_nameLMS h hk'
      refine induce_sorts_of_ordersLMS h hk' ?_
      rw [hcount]
      split
      case isTrue hdistinct => exact ordersLMS_orderByName h hl hnames hdistinct
      case isFalse =>
        refine ordersLMS_of_sorts h hl hnames
          (ih (reduced_terminated h hl hnames) (fun x hx => reduced_lt hl hnames hx) ?_)
        have := length_lmsPositions_lt (by omega : 1 < sym.length)
        rw [reduced, List.length_map]
        omega

end Sys2Proof.Machine

open Sys2Proof Sys2Proof.Machine

/-- Settles O55: a Text ends in its only 0 and its bytes are below 256, which is what the procedure needs. -/
theorem inducedSortingBuildsTheSuffixArray : Obligations.InducedSortingBuildsTheSuffixArray := by
  rintro t ⟨body, rfl, hbody⟩
  refine isSuffixArray_of_sorts (sais_sorts _ ⟨body.map BitVec.toNat, by simp, fun x hx => ?_⟩ (fun x hx => ?_) le_rfl)
  · obtain ⟨b, hb, rfl⟩ := List.mem_map.1 hx
    exact fun hzero => hbody b hb (BitVec.eq_of_toNat_eq hzero)
  · obtain ⟨b, -, rfl⟩ := List.mem_map.1 hx
    exact b.isLt
end

section
/-! SUPPORT. BWT_FWD on arrays it takes and on arrays it refuses (42_bwt_forward.md). -/

namespace Sys2Proof.Machine

/-- The last column for entries below n: `(e + n - 1) mod n` of R170 is `e - 1`, and `n - 1` for the entry 0. -/
theorem bwtForward_eq_map_of_lt {t : List Byte} {sa : List Nat} (hlt : ∀ e ∈ sa, e < t.length) :
    bwtForward t sa = sa.map fun e => if e = 0 then t.getD (t.length - 1) 0 else t.getD (e - 1) 0 := by
  refine List.map_congr_left fun e he => ?_
  have he := hlt e he
  split
  case isTrue hzero => rw [hzero, Nat.zero_add, Nat.mod_eq_of_lt (by omega)]
  case isFalse hpos => rw [show e + t.length - 1 = e - 1 + t.length by omega, Nat.add_mod_right, Nat.mod_eq_of_lt (by omega)]

/-- The length check comes first. -/
theorem forwardTransform_of_length_ne {t : List Byte} {sa : List Nat} (hlen : sa.length ≠ t.length) :
    forwardTransform t sa = .error ⟨.invalidArgument, 1⟩ := if_pos hlen

/-- The range check raises for the least index whose entry is not below n. -/
theorem forwardTransform_of_least_outOfRange {t : List Byte} {sa : List Nat} {k : Nat} (hlen : sa.length = t.length)
    (hk : k < sa.length) (hbad : t.length ≤ sa.getD k 0) (hfirst : ∀ j, j < k → sa.getD j 0 < t.length) :
    forwardTransform t sa = .error ⟨.entryOutOfRange, infoOf k⟩ := by
  have hfind : sa.findIdx? (fun e => decide (t.length ≤ e)) = some k := by
    refine List.findIdx?_eq_some_iff_getElem.2 ⟨hk, ?_, fun j hj => ?_⟩
    · simpa [hk] using hbad
    · simpa [hj.trans hk] using hfirst j hj
  rw [forwardTransform, if_neg (not_not.2 hlen), hfind]

/-- An array of the Text's length with every entry below n passes both checks. -/
theorem forwardTransform_of_forall_lt {t : List Byte} {sa : List Nat} (hlen : sa.length = t.length)
    (hlt : ∀ e ∈ sa, e < t.length) :
    forwardTransform t sa = .ok ⟨.bytes (bwtForward t sa), .bytes [], ⟨infoOf t.length, 0, 0⟩, false⟩ := by
  have hfind : sa.findIdx? (fun e => decide (t.length ≤ e)) = none :=
    List.findIdx?_eq_none_iff.2 fun e he => decide_eq_false (Nat.not_le.2 (hlt e he))
  rw [forwardTransform, if_neg (not_not.2 hlen), hfind]

end Sys2Proof.Machine

open Sys2Proof Sys2Proof.Machine

/-- Settles O18: the array passes both checks, and the body's output is the last column, stored at DST0. -/
theorem bwtFwdWritesTheLastColumn : Obligations.BwtFwdWritesTheLastColumn := by
  intro s text sa hr hwf hl htext hsa hlen hlt hcap
  have hbody : bodyOf .bwtFwd s = _ :=
    (congrArg₂ forwardTransform htext hsa).trans (forwardTransform_of_forall_lt hlen hlt)
  have hres : infoOf text.length = s.args.src0Len := by
    rw [← htext, length_bytesOf]; exact infoOf_toNat _
  rw [hres, bwtForward_eq_map_of_lt hlt] at hbody
  refine exec_stores_dst0 .bwtFwd s _ hr hwf hl hbody rfl rfl ?_
  simpa [Payload.count, hlen] using hcap

/-- Settles O34: the body checks the length, then finds the least entry that is not below n; its error is of stage 5. -/
theorem bwtFwdRefusesABadArray : Obligations.BwtFwdRefusesABadArray := by
  intro s text sa hr hl htext hsa
  have hbody : bodyOf .bwtFwd s = forwardTransform text sa := congrArg₂ forwardTransform htext hsa
  refine ⟨fun hlen => ?_, fun k hlen hk hbad hfirst => ?_⟩
  · exact exec_faultsLate .bwtFwd s _ hr hl (hbody.trans (forwardTransform_of_length_ne hlen))
  · exact exec_faultsLate .bwtFwd s _ hr hl (hbody.trans (forwardTransform_of_least_outOfRange hlen hk hbad hfirst))

end

section
/-! SUPPORT. BWT_INV (43_bwt_inverse.md): the search for the sentinel and the walk (R180, R183), and the walk over the output of
BWT_FWD (R184 (b)). There the LF-mapping takes the index of a suffix to the index of the suffix that begins one byte before
it, so the walk meets the Text from its end. -/

namespace Sys2Proof.Machine

/-! ## The 0 bytes of the source (R180) -/

theorem zeroIndexes_eq_nil {l : List Byte} (h : ∀ b ∈ l, b ≠ 0) : zeroIndexes l = [] := by
  refine List.filter_eq_nil_iff.2 fun i hi => ?_
  have hi : i < l.length := List.mem_range.1 hi
  rw [List.getD_eq_getElem _ _ hi, beq_iff_eq]
  exact h _ (List.getElem_mem hi)

/-- Among the first `q` indexes there are as many 0 bytes as the first `q` bytes hold. -/
theorem length_filter_range_sentinel {l : List Byte} {q : Nat} (hq : q ≤ l.length) :
    ((List.range q).filter fun i => l.getD i 1 == sentinel).length = (l.take q).count 0 := by
  have htake : l.take q = (List.range q).map fun i => l.getD i 1 :=
    List.ext_getElem (by simpa using hq) fun i hi _ => by
      have hi : i < l.length := by rw [List.length_take] at hi; omega
      simp [hi]
  rw [htake, List.count, List.countP_map, List.countP_eq_length_filter]
  rfl

/-- A 0 byte with one 0 byte in front is the second index found. -/
theorem exists_zeroIndexes_eq_cons_cons {l : List Byte} {q : Nat} (hq : q < l.length) (hzero : l.getD q 1 = 0)
    (hone : (l.take q).count 0 = 1) : ∃ p rest, zeroIndexes l = p :: q :: rest := by
  obtain ⟨p, hp⟩ := List.length_eq_one_iff.1 ((length_filter_range_sentinel hq.le).trans hone)
  obtain ⟨m, hm⟩ := Nat.exists_eq_add_of_lt hq
  refine ⟨p, ((List.range m).map (q + 1 + ·)).filter fun i => l.getD i 1 == sentinel, ?_⟩
  rw [zeroIndexes, hm, show q + m + 1 = q + 1 + m by omega, List.range_add, List.filter_append, List.range_succ,
    List.filter_append, hp, List.filter_singleton, hzero]
  rfl

theorem inverseTransform_of_forall_ne {l : List Byte} (h : ∀ b ∈ l, b ≠ 0) :
    inverseTransform l = .error ⟨.missingSentinel, 0⟩ := by
  rw [inverseTransform, zeroIndexes_eq_nil h]

theorem inverseTransform_of_zeroIndexes_singleton {l : List Byte} {p0 : Nat} (h : zeroIndexes l = [p0]) :
    inverseTransform l = .ok ⟨.bytes (lfWalk l l.length p0 []), .bytes [], ⟨infoOf l.length, 0, 0⟩, false⟩ := by
  rw [inverseTransform, h]

theorem inverseTransform_of_second_zero {l : List Byte} {q : Nat} (hq : q < l.length) (hzero : l.getD q 1 = 0)
    (hone : (l.take q).count 0 = 1) : inverseTransform l = .error ⟨.multipleSentinel, infoOf q⟩ := by
  obtain ⟨p, rest, hindexes⟩ := exists_zeroIndexes_eq_cons_cons hq hzero hone
  rw [inverseTransform, hindexes]

/-! ## The position in front, cyclically (R170) -/

/-- The position whose byte BWT_FWD outputs for the entry `e` (R170). -/
def precedingPos (n e : Nat) : Nat := (e + n - 1) % n

theorem bwtForward_eq_map_precedingPos (t : List Byte) (sa : List Nat) :
    bwtForward t sa = sa.map fun e => t.getD (precedingPos t.length e) 0 := rfl

theorem precedingPos_zero {n : Nat} (hn : 0 < n) : precedingPos n 0 = n - 1 := by
  rw [precedingPos, Nat.zero_add, Nat.mod_eq_of_lt (by omega)]

theorem precedingPos_succ {n k : Nat} (hk : k < n) : precedingPos n (k + 1) = k := by
  rw [precedingPos, Nat.add_right_comm, Nat.add_sub_cancel, Nat.add_mod_right, Nat.mod_eq_of_lt hk]

theorem precedingPos_lt {n e : Nat} (he : e < n) : precedingPos n e < n := Nat.mod_lt _ (by omega)

theorem precedingPos_add_one {n e : Nat} (he : e < n) : precedingPos n e + 1 = if e = 0 then n else e := by
  cases e with
  | zero => rw [precedingPos_zero he, if_pos rfl]; omega
  | succ k => rw [precedingPos_succ (by omega), if_neg k.succ_ne_zero]

theorem precedingPos_succ_mod {n k : Nat} (hk : k < n) : precedingPos n ((k + 1) % n) = k := by
  obtain hlt | rfl := Nat.lt_or_eq_of_le hk
  · rw [Nat.mod_eq_of_lt hlt, precedingPos_succ hk]
  · rw [Nat.mod_self, precedingPos_zero (by omega)]; rfl

/-- The entries 0 to n - 1 have each position in front exactly once. -/
theorem map_precedingPos_range_perm (n : Nat) : ((List.range n).map (precedingPos n)).Perm (List.range n) := by
  cases n with
  | zero => rfl
  | succ m =>
    have hrest : (List.range m).map (precedingPos (m + 1) ∘ Nat.succ) = List.range m :=
      (List.map_congr_left fun k hk => precedingPos_succ ((List.mem_range.1 hk).trans m.lt_succ_self)).trans (List.map_id _)
    rw [List.range_succ_eq_map, List.map_cons, List.map_map, precedingPos_zero m.succ_pos, hrest, ← List.range_succ_eq_map,
      List.range_succ]
    exact (List.perm_append_singleton m _).symm

/-! ## Counting along a sorted list -/

theorem countP_add_countP_of_disjoint {α : Type} {p q : α → Bool} (l : List α) (h : ∀ x ∈ l, p x = true → q x = false) :
    l.countP p + l.countP q = l.countP fun x => p x || q x := by
  induction l with
  | nil => rfl
  | cons x l ih =>
    have hx := h x List.mem_cons_self
    have ih := ih fun y hy => h y (List.mem_cons_of_mem _ hy)
    rw [List.countP_cons, List.countP_cons, List.countP_cons]
    cases hp : p x
    · simp only [Bool.false_or, Bool.false_eq_true, if_false]
      omega
    · simp only [hx hp, Bool.or_false, Bool.false_eq_true, if_true, if_false]
      omega

section
variable {α : Type} {r : α → α → Prop} [DecidableRel r] (hasymm : ∀ a b, r a b → ¬ r b a) {l : List α} (h : l.Pairwise r)
  {i : Nat} (hi : i < l.length)
include hasymm h

/-- In a list that rises strictly, the elements in front of index `i` are those less than the one there. -/
theorem countP_take_of_pairwise (q : α → Bool) : (l.take i).countP q = l.countP fun a => q a && decide (r a l[i]) := by
  have hsplit : l = l.take i ++ l[i] :: l.drop (i + 1) := by
    rw [← List.drop_eq_getElem_cons hi, List.take_append_drop]
  rw [hsplit, List.pairwise_append, List.pairwise_cons] at h
  obtain ⟨-, ⟨hafter, -⟩, hbefore⟩ := h
  have hzero : (l[i] :: l.drop (i + 1)).countP (fun a => q a && decide (r a l[i])) = 0 := by
    refine List.countP_eq_zero.2 fun a ha => ?_
    rcases List.mem_cons.1 ha with rfl | ha
    · simp [show ¬ r l[i] l[i] from fun hlt => hasymm _ _ hlt hlt]
    · simp [hasymm _ _ (hafter a ha)]
  rw [congrArg (List.countP fun a => q a && decide (r a l[i])) hsplit, List.countP_append, hzero, Nat.add_zero]
  refine List.countP_congr fun a ha => ?_
  simp [hbefore a ha l[i] List.mem_cons_self]

theorem countP_rel_getElem_of_pairwise : l.countP (fun a => decide (r a l[i])) = i := by
  have := countP_take_of_pairwise hasymm h hi fun _ => true
  simp only [Bool.true_and, List.countP_true, List.length_take] at this
  omega

end

/-! ## The inverse of the forward transform (R184 (b)) -/

theorem IsText.terminated {t : List Byte} (h : IsText t) : Terminated (t.map BitVec.toNat) := by
  obtain ⟨body, rfl, hbody⟩ := h
  refine ⟨body.map BitVec.toNat, by simp, fun x hx => ?_⟩
  obtain ⟨b, hb, rfl⟩ := List.mem_map.1 hx
  exact fun hzero => hbody b hb (BitVec.eq_of_toNat_eq hzero)

theorem getD_map_toNat (t : List Byte) (k : Nat) : (t.map BitVec.toNat).getD k 0 = (t.getD k 0).toNat :=
  List.getD_map t 0 BitVec.toNat

/-- The suffix one byte before another compares by that byte and then by the other. -/
theorem drop_precedingPos_lt_iff {sym : List Nat} (h : Terminated sym) {e f : Nat} (he : e < sym.length)
    (hf : f < sym.length) :
    sym.drop (precedingPos sym.length e) < sym.drop (precedingPos sym.length f) ↔
      sym.getD (precedingPos sym.length e) 0 < sym.getD (precedingPos sym.length f) 0 ∨
        sym.getD (precedingPos sym.length e) 0 = sym.getD (precedingPos sym.length f) 0 ∧ sym.drop e < sym.drop f := by
  rw [drop_lt_drop_iff (precedingPos_lt he) (precedingPos_lt hf)]
  refine or_congr_right (and_congr_right fun heq => ?_)
  have hlast : precedingPos sym.length e + 1 = sym.length ↔ precedingPos sym.length f + 1 = sym.length := by
    rw [← h.getD_eq_zero_iff (precedingPos_lt he), ← h.getD_eq_zero_iff (precedingPos_lt hf), heq]
  rw [precedingPos_add_one he, precedingPos_add_one hf] at hlast ⊢
  by_cases hzero : e = 0 <;> by_cases hzero' : f = 0
  · subst hzero hzero'
    simp only [lt_irrefl]
  · simp only [hzero, hzero', if_true, if_false, true_iff] at hlast
    omega
  · simp only [hzero, hzero', if_true, if_false, iff_true] at hlast
    omega
  · rw [if_neg hzero, if_neg hzero']

section
variable {t : List Byte} {sa : List Nat}

theorem IsSuffixArray.length_eq (h : IsSuffixArray t sa) : sa.length = t.length := by
  simpa using h.1.length_eq

theorem IsSuffixArray.mem_iff (h : IsSuffixArray t sa) (e : Nat) : e ∈ sa ↔ e < t.length := by
  rw [h.1.mem_iff, List.mem_range]

theorem IsSuffixArray.getElem_lt (h : IsSuffixArray t sa) {i : Nat} (hi : i < sa.length) : sa[i] < t.length :=
  (h.mem_iff _).1 (List.getElem_mem hi)

theorem IsSuffixArray.pairwise (h : IsSuffixArray t sa) :
    sa.Pairwise fun i j => (t.map BitVec.toNat).drop i < (t.map BitVec.toNat).drop j := List.pairwise_map.1 h.2

theorem length_bwtForward (t : List Byte) (sa : List Nat) : (bwtForward t sa).length = sa.length := List.length_map _

theorem getD_bwtForward (d : Byte) {i : Nat} (hi : i < sa.length) :
    (bwtForward t sa).getD i d = t.getD (precedingPos t.length sa[i]) 0 := by
  simp [bwtForward_eq_map_precedingPos, hi]

/-- The LF-mapping counts the suffixes below the one that begins a byte before the suffix at index `i`: those with a smaller
first byte by `C`, those with the same first byte by the rank. -/
theorem lfMap_bwtForward_eq_countP (ht : IsText t) (h : IsSuffixArray t sa) {i : Nat} (hi : i < sa.length) :
    lfMap (bwtForward t sa) i = sa.countP fun e => decide ((t.map BitVec.toNat).drop (precedingPos t.length e) <
      (t.map BitVec.toNat).drop (precedingPos t.length sa[i])) := by
  rw [lfMap, cumulative, rankAt, getD_bwtForward 0 hi, bwtForward_eq_map_precedingPos, ← List.map_take, List.count,
    List.countP_map, List.countP_map, countP_take_of_pairwise (fun _ _ => lt_asymm) h.pairwise hi,
    countP_add_countP_of_disjoint]
  case h =>
    intro e _ hlt
    have hlt : (t.getD (precedingPos t.length e) 0).toNat < _ := of_decide_eq_true hlt
    have hne : t.getD (precedingPos t.length e) 0 ≠ t.getD (precedingPos t.length sa[i]) 0 :=
      fun heq => hlt.ne (congrArg BitVec.toNat heq)
    rw [Function.comp_apply, beq_eq_false_iff_ne.2 hne, Bool.false_and]
  refine List.countP_congr fun e he => ?_
  have hiff := drop_precedingPos_lt_iff ht.terminated (e := e) (f := sa[i]) (by simpa using (h.mem_iff e).1 he)
    (by simpa using h.getElem_lt hi)
  rw [List.length_map, getD_map_toNat, getD_map_toNat, BitVec.toNat_inj] at hiff
  simp only [Function.comp_apply, Bool.or_eq_true, Bool.and_eq_true, decide_eq_true_eq, beq_iff_eq, hiff]

/-- On the output of BWT_FWD the LF-mapping goes from the index of a suffix to that of the suffix a byte before it. -/
theorem getElem?_lfMap_bwtForward (ht : IsText t) (h : IsSuffixArray t sa) {i : Nat} (hi : i < sa.length) :
    sa[lfMap (bwtForward t sa) i]? = some (precedingPos t.length sa[i]) := by
  have hperm : (sa.map (precedingPos t.length)).Perm sa :=
    ((h.1.map _).trans (map_precedingPos_range_perm _)).trans h.1.symm
  obtain ⟨j, hj, hsa⟩ := List.getElem_of_mem ((h.mem_iff _).2 (precedingPos_lt (h.getElem_lt hi)))
  have hindex : lfMap (bwtForward t sa) i = j := by
    calc lfMap (bwtForward t sa) i
        = (sa.map (precedingPos t.length)).countP fun e => decide ((t.map BitVec.toNat).drop e <
            (t.map BitVec.toNat).drop sa[j]) := by
          rw [lfMap_bwtForward_eq_countP ht h hi, List.countP_map, hsa]; rfl
      _ = sa.countP fun e => decide ((t.map BitVec.toNat).drop e < (t.map BitVec.toNat).drop sa[j]) := hperm.countP_eq _
      _ = j := countP_rel_getElem_of_pairwise (fun _ _ => lt_asymm) h.pairwise hj
  rw [hindex, List.getElem?_eq_getElem hj, hsa]

/-- From the index of the suffix at `k`, with the empty suffix at `n` taken for the whole Text, the walk meets the bytes in
front of `k`. -/
theorem lfWalk_bwtForward (ht : IsText t) (h : IsSuffixArray t sa) {k p : Nat} (hk : k ≤ t.length)
    (hp : sa[p]? = some (k % t.length)) (acc : List Byte) : lfWalk (bwtForward t sa) k p acc = t.take k ++ acc := by
  induction k generalizing p acc with
  | zero => rfl
  | succ k ih =>
    obtain ⟨hlt, hsa⟩ := List.getElem?_eq_some_iff.1 hp
    have hprec : precedingPos t.length sa[p] = k := by rw [hsa, precedingPos_succ_mod hk]
    have hnext : sa[lfMap (bwtForward t sa) p]? = some (k % t.length) := by
      rw [getElem?_lfMap_bwtForward ht h hlt, hprec, Nat.mod_eq_of_lt hk]
    rw [lfWalk, ih (by omega) hnext, getD_bwtForward 0 hlt, hprec, List.getD_eq_getElem _ _ hk,
      List.take_succ_eq_append_getElem hk, List.append_assoc, List.singleton_append]

/-- The only 0 byte of the output of BWT_FWD stands at the index of the whole Text. -/
theorem getD_bwtForward_eq_zero_iff (ht : IsText t) (h : IsSuffixArray t sa) {i : Nat} (hi : i < sa.length) :
    (bwtForward t sa).getD i 1 = 0 ↔ sa[i] = 0 := by
  have hlt := h.getElem_lt hi
  have hzero := ht.terminated.getD_eq_zero_iff (i := precedingPos t.length sa[i]) (by simpa using precedingPos_lt hlt)
  rw [getD_map_toNat, List.length_map, precedingPos_add_one hlt] at hzero
  rw [getD_bwtForward 1 hi, ← BitVec.toNat_inj]
  refine hzero.trans ?_
  split <;> omega

end

end Sys2Proof.Machine

open Sys2Proof Sys2Proof.Machine

/-- Settles O57: the walk starts at the index of the whole Text and meets the Text from its end. -/
theorem inverseTransformUndoesForward : Obligations.InverseTransformUndoesForward := by
  intro t sa ht hsa
  have hlen : (bwtForward t sa).length = t.length := (length_bwtForward t sa).trans hsa.length_eq
  have hpos : 0 < t.length := by simpa using ht.terminated.length_pos
  obtain ⟨p0, hp0, hzero⟩ := List.getElem_of_mem ((hsa.mem_iff 0).2 hpos)
  have hindex : zeroIndexes (bwtForward t sa) = [p0] := by
    refine zeroIndexes_eq_singleton _ p0 (by rwa [length_bwtForward]) fun k hk => ?_
    rw [length_bwtForward] at hk
    rw [getD_bwtForward_eq_zero_iff ht hsa hk, ← hzero]
    exact (hsa.1.nodup_iff.2 List.nodup_range).getElem_inj_iff
  have hwalk : lfWalk (bwtForward t sa) t.length p0 [] = t := by
    rw [lfWalk_bwtForward ht hsa le_rfl (by rw [List.getElem?_eq_getElem hp0, hzero, Nat.mod_self]), List.take_length,
      List.append_nil]
  rw [inverseTransform_of_zeroIndexes_singleton hindex, hlen, hwalk]
  rfl

/-- Settles O19: the one 0 byte is found at `p0`, and the positions of the walk are those of `lfWalk_spec`. -/
theorem bwtInvWalksTheLfMapping : Obligations.BwtInvWalksTheLfMapping := by
  intro s l p0 hr hwf hl hsrc hp0 hzero hcap
  have hbody : bodyOf .bwtInv s = _ := (congrArg inverseTransform hsrc).trans
    (inverseTransform_of_zeroIndexes_singleton (zeroIndexes_eq_singleton l p0 hp0 hzero))
  obtain ⟨p, hwalk, hstart, hstep⟩ := lfWalk_spec l l.length p0 [] hp0
  have hres : infoOf l.length = s.args.src0Len := by
    rw [← hsrc, length_bytesOf]; exact infoOf_toNat _
  rw [hres, hwalk, List.append_nil] at hbody
  obtain ⟨t, hexec, hends, hstores⟩ :=
    exec_stores_dst0 .bwtInv s _ hr hwf hl hbody rfl rfl (by simpa [Payload.count] using hcap)
  refine ⟨t, (List.range l.length).map fun k => l.getD (p k) 0, p, hexec, hends, hstores, by simp, hstart (by omega),
    fun k hk => ?_⟩
  obtain ⟨hlt, hnext⟩ := hstep k hk
  refine ⟨hlt, by simp [hk], fun hpos => ?_⟩
  rw [hnext hpos, lfMap, cumulative, rankAt, List.countP_eq_length_filter]

/-- Settles O35: the search finds no index, or the second 0 byte as its second. -/
theorem bwtInvRefusesABadSentinelCount : Obligations.BwtInvRefusesABadSentinelCount := by
  intro s l hr hl hsrc
  have hbody : bodyOf .bwtInv s = inverseTransform l := congrArg inverseTransform hsrc
  refine ⟨fun hnone => ?_, fun q hq hzero hone => ?_⟩
  · exact exec_faultsLate .bwtInv s _ hr hl (hbody.trans (inverseTransform_of_forall_ne hnone))
  · exact exec_faultsLate .bwtInv s _ hr hl (hbody.trans (inverseTransform_of_second_zero hq hzero hone))

end

section
/-! SUPPORT. Engine 4 (44_mtf.md): one step of each coder's loop, the loops on operands they refuse (R192, R193), and the
body both coders share on each kind of operands. -/

namespace Sys2Proof.Machine

/-! ## MoveToFront (R194) -/

/-- With the byte at the index named, MoveToFront puts that byte first. -/
theorem moveToFront_eq_of_getElem? {r : List Byte} {j : Nat} {b : Byte} (h : r[j]? = some b) :
    moveToFront r j = if j = 0 then r else b :: (r.take j ++ r.drop (j + 1)) := by
  rw [moveToFront, List.getD_eq_getElem?_getD, h]
  rfl

/-! ## The loop of MTF_ENC (R192) -/

theorem exists_findIdx?_of_mem {r : List Byte} {b : Byte} (h : b ∈ r) : ∃ j, r.findIdx? (· == b) = some j :=
  ⟨_, List.findIdx?_eq_some_of_exists ⟨b, h, beq_self_eq_true b⟩⟩

theorem mtfEncode_cons_of_notMem {r : List Byte} {b : Byte} (h : b ∉ r) (i : Nat) (bs : List Byte) :
    mtfEncode i r (b :: bs) = .error ⟨.symbolNotInAlphabet, infoOf i⟩ := by
  have hfind : r.findIdx? (· == b) = none :=
    List.findIdx?_eq_none_iff.2 fun c hc => beq_eq_false_iff_ne.2 (ne_of_mem_of_not_mem hc h)
  rw [mtfEncode, hfind]

theorem mtfEncode_cons_of_findIdx? {r : List Byte} {b : Byte} {j : Nat} (h : r.findIdx? (· == b) = some j) (i : Nat)
    (bs : List Byte) :
    mtfEncode i r (b :: bs) = (mtfEncode (i + 1) (moveToFront r j) bs).map (BitVec.ofNat 8 j :: ·) := by
  simp only [mtfEncode, h]
  cases mtfEncode (i + 1) (moveToFront r j) bs <;> rfl

/-- The loop raises at the least byte absent from the recency list, whose bytes are the Alphabet's all along. -/
theorem mtfEncode_of_least_absent {l a : List Byte} {k : Nat} (hk : k < l.length) (habsent : l.getD k 0 ∉ a)
    (hfirst : ∀ j, j < k → l.getD j 0 ∈ a) (i : Nat) :
    mtfEncode i a l = .error ⟨.symbolNotInAlphabet, infoOf (i + k)⟩ := by
  induction k generalizing l a i with
  | zero =>
    obtain ⟨b, bs, rfl⟩ := List.exists_cons_of_length_pos hk
    exact mtfEncode_cons_of_notMem habsent i bs
  | succ k ih =>
    obtain ⟨b, bs, rfl⟩ := List.exists_cons_of_length_pos (Nat.zero_lt_of_lt hk)
    have hb : b ∈ a := hfirst 0 (Nat.succ_pos k)
    obtain ⟨j, hj⟩ := exists_findIdx?_of_mem hb
    have hmem := mem_moveToFront a j (List.findIdx?_eq_some_iff_getElem.1 hj).1
    have hrest := ih (Nat.lt_of_succ_lt_succ hk) (mt (hmem _).1 habsent)
      (fun m hm => (hmem _).2 (hfirst (m + 1) (Nat.succ_lt_succ hm))) (i + 1)
    rw [mtfEncode_cons_of_findIdx? hj, hrest, Nat.add_right_comm]
    rfl

/-! ## The loop of MTF_DEC (R193) -/

theorem mtfDecode_cons_of_length_le {r : List Byte} {b : Byte} (h : r.length ≤ b.toNat) (i : Nat) (bs : List Byte) :
    mtfDecode i r (b :: bs) = .error ⟨.indexOutOfRange, infoOf i⟩ := by
  rw [mtfDecode, if_pos h]

theorem mtfDecode_cons_of_lt {r : List Byte} {b : Byte} (h : b.toNat < r.length) (i : Nat) (bs : List Byte) :
    mtfDecode i r (b :: bs) = (mtfDecode (i + 1) (moveToFront r b.toNat) bs).map (r.getD b.toNat 0 :: ·) := by
  rw [mtfDecode, if_neg (Nat.not_le.2 h)]
  cases mtfDecode (i + 1) (moveToFront r b.toNat) bs <;> rfl

/-- The loop raises at the least index not below the length of the recency list, which is the Alphabet's all along. -/
theorem mtfDecode_of_least_outOfRange {l a : List Byte} {k : Nat} (hk : k < l.length)
    (hbad : a.length ≤ (l.getD k 0).toNat) (hfirst : ∀ j, j < k → (l.getD j 0).toNat < a.length) (i : Nat) :
    mtfDecode i a l = .error ⟨.indexOutOfRange, infoOf (i + k)⟩ := by
  induction k generalizing l a i with
  | zero =>
    obtain ⟨b, bs, rfl⟩ := List.exists_cons_of_length_pos hk
    exact mtfDecode_cons_of_length_le hbad i bs
  | succ k ih =>
    obtain ⟨b, bs, rfl⟩ := List.exists_cons_of_length_pos (Nat.zero_lt_of_lt hk)
    have hb : b.toNat < a.length := hfirst 0 (Nat.succ_pos k)
    have hlen := length_moveToFront a b.toNat hb
    have hrest := ih (a := moveToFront a b.toNat) (Nat.lt_of_succ_lt_succ hk) (hlen ▸ hbad)
      (fun m hm => hlen ▸ hfirst (m + 1) (Nat.succ_lt_succ hm)) (i + 1)
    rw [mtfDecode_cons_of_lt hb, hrest, Nat.add_right_comm]
    rfl

/-! ## The body both coders share -/

section
variable {loop : Nat → List Byte → List Byte → Except Raise (List Byte)} {l a : List Byte}

theorem recencyCoder_of_long (ha : 256 < a.length) : recencyCoder loop l a = .error ⟨.invalidArgument, 1⟩ := if_pos ha

theorem recencyCoder_of_length_le (ha : a.length ≤ 256) :
    recencyCoder loop l a =
      (loop 0 a l).map fun out => ⟨.bytes out, .bytes [], ⟨infoOf l.length, 0, 0⟩, false⟩ := by
  have hshort : ¬ alphaMax < a.length := Nat.not_lt.2 ha
  rw [recencyCoder, if_neg hshort]
  cases loop 0 a l <;> rfl

/-- A loop that raises ends the body with its error. -/
theorem recencyCoder_of_loop_error (ha : a.length ≤ 256) {r : Raise} (h : loop 0 a l = .error r) :
    recencyCoder loop l a = .error r := by
  rw [recencyCoder_of_length_le ha, h]
  rfl

/-- A coder's command stores the output of its loop at DST0. -/
theorem exec_coder_stores {i : Instr} {s : State} {out : List Byte} (hr : s.raced = false) (hwf : s.mem.wf)
    (hl : OperandsLegal i s) (hbody : bodyOf i s = recencyCoder loop (s.bytesOf .src0) (s.bytesOf .src1))
    (h0 : (operandSize i .dst0).isSome = true) (h1 : operandSize i .dst1 = none) (ha : (s.bytesOf .src1).length ≤ 256)
    (hloop : loop 0 (s.bytesOf .src1) (s.bytesOf .src0) = .ok out) (hcap : out.length ≤ operandCount s.args .dst0) :
    ∃ t, exec i s = .next t ∧ EndsWith s t (doneStatus false) 0 ⟨s.args.src0Len, 0, 0⟩ ∧
      Stores s t (operandAddr s.args .dst0) out := by
  have hres : infoOf (s.bytesOf .src0).length = s.args.src0Len := by
    rw [length_bytesOf]; exact infoOf_toNat _
  rw [recencyCoder_of_length_le ha, hloop, hres] at hbody
  exact exec_stores_dst0 i s _ hr hwf hl hbody h0 h1 hcap

end

end Sys2Proof.Machine

open Sys2Proof Sys2Proof.Machine

/-- Settles O58: `mtfEncode_spec` gives the indexes and that MTF_DEC undoes them; the first step of the loop gives the
first index. -/
theorem mtfRoundTrip : Obligations.MtfRoundTrip := by
  intro l a ha hmem
  obtain ⟨m, _, henc, _, _, hlt, hdec, _⟩ := mtfEncode_spec l 0 a ha hmem
  refine ⟨m, henc, hdec 0, hlt, ?_⟩
  rintro b rest rfl
  obtain ⟨j, hj⟩ := exists_findIdx?_of_mem (hmem b List.mem_cons_self)
  refine ⟨j, hj, ?_⟩
  rw [mtfEncode_cons_of_findIdx? hj] at henc
  cases hrest : mtfEncode 1 (moveToFront a j) rest with
  | error e => rw [hrest] at henc; cases henc
  | ok out => rw [hrest] at henc; cases henc; rfl

/-- Settles O20: the body's output is the Alphabet, which is as long as the list of distinct bytes. -/
theorem alphaScanWritesTheAlphabet : Obligations.AlphaScanWritesTheAlphabet := by
  rintro s l hr hwf hl rfl hcap
  obtain ⟨t, hexec, hends, hstores⟩ := exec_stores_dst0 .alphaScan s _ hr hwf hl rfl rfl rfl
    ((length_alphabetOf _).le.trans hcap)
  exact ⟨t, _, hexec, hends, hstores, pairwise_alphabetOf _, mem_alphabetOf _⟩

/-- Settles O21: the loop succeeds, and its recency lists move by MoveToFront. -/
theorem mtfEncWritesTheIndexes : Obligations.MtfEncWritesTheIndexes := by
  rintro s l a hr hwf hl rfl rfl ha hmem hcap
  obtain ⟨m, r, henc, hlen, hr0, -, -, hstep⟩ := mtfEncode_spec _ 0 _ ha hmem
  obtain ⟨t, hexec, hends, hstores⟩ := exec_coder_stores hr hwf hl rfl rfl rfl ha henc (hlen.le.trans hcap)
  refine ⟨t, m, r, hexec, hends, hstores, hlen, hr0, fun i hi => ?_⟩
  obtain ⟨hat, hleast, hnext⟩ := hstep i hi
  exact ⟨hat, hleast, hnext.trans (moveToFront_eq_of_getElem? hat)⟩

/-- Settles O22: the loop succeeds, and its recency lists move by MoveToFront. -/
theorem mtfDecWritesTheBytes : Obligations.MtfDecWritesTheBytes := by
  rintro s m a hr hwf hl rfl rfl ha hlt hcap
  obtain ⟨l, r, hdec, hlen, hr0, hstep⟩ := mtfDecode_spec _ 0 _ hlt
  obtain ⟨t, hexec, hends, hstores⟩ := exec_coder_stores hr hwf hl rfl rfl rfl ha hdec (hlen.le.trans hcap)
  refine ⟨t, l, r, hexec, hends, hstores, hlen, hr0, fun i hi => ?_⟩
  obtain ⟨hat, hnext⟩ := hstep i hi
  exact ⟨hat, hnext.trans (moveToFront_eq_of_getElem? hat)⟩

/-- Settles O36: both bodies check the Alphabet's length first, then the loop raises at the least bad element. -/
theorem mtfCodersRefuseBadOperands : Obligations.MtfCodersRefuseBadOperands := by
  rintro s l a hr rfl rfl
  refine ⟨?_, fun k hl ha hk habsent hfirst => ?_, fun k hl ha hk hbad hfirst => ?_⟩
  · rintro i (rfl | rfl) hl ha
    · exact exec_faultsLate .mtfEnc s _ hr hl (recencyCoder_of_long ha)
    · exact exec_faultsLate .mtfDec s _ hr hl (recencyCoder_of_long ha)
  · have hloop := mtfEncode_of_least_absent hk habsent hfirst 0
    rw [Nat.zero_add] at hloop
    exact exec_faultsLate .mtfEnc s _ hr hl (recencyCoder_of_loop_error ha hloop)
  · have hloop := mtfDecode_of_least_outOfRange hk hbad hfirst 0
    rw [Nat.zero_add] at hloop
    exact exec_faultsLate .mtfDec s _ hr hl (recencyCoder_of_loop_error ha hloop)

end

section
/-! SUPPORT. Engine 5 (45_rle0.md): what the encoder emits when a run ends (R211), a block of RLE_DEC's source and what it
decodes to (R212, R213), and that the decoder undoes an emitted run (R214 (a)). -/

namespace Sys2Proof.Machine

/-! ## Runs (R210, R211) -/

theorem flushRun_of_pos {k : Nat} (hk : 0 < k) : flushRun k = encodeRun k := if_neg hk.ne'

theorem encodeRun_of_lt {r : Nat} (h : r < 255) : encodeRun r = [0, BitVec.ofNat 8 r] := by
  rw [encodeRun, runCap, Nat.div_eq_of_lt h, Nat.mod_eq_of_lt h]
  rfl

theorem rleEncode_cons_zero (l : List Byte) (k : Nat) : rleEncode (0 :: l) k = rleEncode l (k + 1) := if_pos rfl

theorem rleEncode_cons_nonzero {b : Byte} (hb : b ≠ 0) (l : List Byte) (k : Nat) :
    rleEncode (b :: l) k = flushRun k ++ b :: rleEncode l 0 := if_neg hb

/-! ## Blocks (R212, R213) -/

/-- A block of RLE_DEC's source: a 0 with its length byte, or a non-zero byte alone (R213). -/
def rleBlock (p : Byte × Byte) : List Byte := if p.1 = 0 then [0, p.2] else [p.1]

/-- The bytes a block decodes to (R212). -/
def rleBlockOutput (p : Byte × Byte) : List Byte := if p.1 = 0 then List.replicate p.2.toNat 0 else [p.1]

theorem rleDecode_block_append (p : Byte × Byte) (l : List Byte) :
    rleDecode (rleBlock p ++ l) = (rleBlockOutput p ++ (rleDecode l).1, (rleDecode l).2) := by
  by_cases hzero : p.1 = 0
  · rw [rleBlock, rleBlockOutput, if_pos hzero, if_pos hzero]
    exact rleDecode_pair p.2 l
  · rw [rleBlock, rleBlockOutput, if_neg hzero, if_neg hzero]
    exact rleDecode_nonzero p.1 l hzero

theorem rleDecode_blocks_append (blocks : List (Byte × Byte)) (l : List Byte) :
    rleDecode (blocks.flatMap rleBlock ++ l) = (blocks.flatMap rleBlockOutput ++ (rleDecode l).1, (rleDecode l).2) := by
  induction blocks with
  | nil => rfl
  | cons p blocks ih =>
    simp only [List.flatMap_cons, List.append_assoc]
    rw [rleDecode_block_append, ih]

/-- After the blocks, only a lone 0 may be left, which sets TRAIL and emits nothing (R213). -/
theorem rleDecode_source (blocks : List (Byte × Byte)) (trail : Bool) :
    rleDecode (blocks.flatMap rleBlock ++ if trail then [0] else []) = (blocks.flatMap rleBlockOutput, trail) := by
  have htrail : rleDecode (if trail then [0] else []) = ([], trail) := by cases trail <;> rfl
  rw [rleDecode_blocks_append, htrail, List.append_nil]

/-! ## Decoding an encoding (R214 (a)) -/

theorem rleDecode_encodeRun_append (k : Nat) (l : List Byte) :
    rleDecode (encodeRun k ++ l) = (List.replicate k 0 ++ (rleDecode l).1, (rleDecode l).2) := by
  induction k using Nat.strongRecOn with
  | ind k ih =>
    by_cases hlt : k < 255
    · have hbyte : (BitVec.ofNat 8 k).toNat = k := Nat.mod_eq_of_lt (by omega)
      rw [encodeRun_of_lt hlt, List.cons_append, List.singleton_append, rleDecode_pair, hbyte]
    · have hge : 255 ≤ k := Nat.not_lt.1 hlt
      have hsplit : List.replicate k (0 : Byte) = List.replicate 255 0 ++ List.replicate (k - 255) 0 := by
        rw [List.replicate_append_replicate, Nat.add_sub_cancel' hge]
      rw [encodeRun_of_ge k hge, hsplit, List.append_assoc, List.append_assoc, List.cons_append, List.singleton_append,
        rleDecode_pair, ih (k - 255) (by omega)]
      rfl

theorem rleDecode_flushRun_append (k : Nat) (l : List Byte) :
    rleDecode (flushRun k ++ l) = (List.replicate k 0 ++ (rleDecode l).1, (rleDecode l).2) := by
  rcases Nat.eq_zero_or_pos k with rfl | hk
  · rfl
  · rw [flushRun_of_pos hk, rleDecode_encodeRun_append]

/-- Entered with `k` zeros counted, the encoder's output decodes to those zeros and its input. -/
theorem rleDecode_rleEncode (m : List Byte) (k : Nat) : rleDecode (rleEncode m k) = (List.replicate k 0 ++ m, false) := by
  induction m generalizing k with
  | nil =>
    have h := rleDecode_flushRun_append k []
    rwa [List.append_nil] at h
  | cons b m ih =>
    by_cases hb : b = 0
    · subst hb
      rw [rleEncode_cons_zero, ih, List.replicate_succ', List.append_assoc]
      rfl
    · rw [rleEncode_cons_nonzero hb, rleDecode_flushRun_append, rleDecode_nonzero b _ hb, ih]
      rfl

end Sys2Proof.Machine

open Sys2Proof Sys2Proof.Machine

/-- Settles O23: the body's output is the encoding, and it fits. -/
theorem rleEncWritesTheEncoding : Obligations.RleEncWritesTheEncoding := by
  rintro s _ hr hwf hl rfl hcap
  exact exec_stores_dst0 .rleEnc s _ hr hwf hl rfl rfl rfl hcap

/-- Settles O24: the zero-run counter takes in a whole run before it is flushed. -/
theorem zeroRunsAreEncodedAsPairs : Obligations.ZeroRunsAreEncodedAsPairs := by
  refine ⟨rfl, fun b rest hb => rleEncode_cons_nonzero hb rest 0, fun k hk => ?_, fun k b rest hk hb => ?_,
    encodeRun_of_ge, fun r => encodeRun_of_lt⟩
  · have h := rleEncode_zeros k 0 []
    rw [List.append_nil, Nat.zero_add] at h
    exact h.trans (flushRun_of_pos hk)
  · rw [rleEncode_zeros, Nat.zero_add, rleEncode_cons_nonzero hb, rleEncode_cons_nonzero hb, flushRun_of_pos hk]
    rfl

/-- Settles O25: the decoder reads the source block by block, and its output fits. -/
theorem rleDecWritesTheDecoding : Obligations.RleDecWritesTheDecoding := by
  rintro s blocks trail _ hr hwf hl hsrc rfl hcap
  have hdecode : rleDecode (s.bytesOf .src0) = (blocks.flatMap rleBlockOutput, trail) :=
    (congrArg rleDecode hsrc).trans (rleDecode_source blocks trail)
  have hbody : bodyOf .rleDec s = .ok ⟨.bytes (blocks.flatMap rleBlockOutput), .bytes [],
      ⟨infoOf (blocks.flatMap rleBlockOutput).length, 0, 0⟩, trail⟩ := by
    simp only [bodyOf, bodyRleDec, hdecode]
  exact exec_stores_dst0 .rleDec s _ hr hwf hl hbody rfl rfl hcap

/-- Settles O59: at the start no zeros are counted. -/
theorem rleRoundTrip : Obligations.RleRoundTrip := fun m => rleDecode_rleEncode m 0

end

section
/-! SUPPORT. HUF_BUILD on data with a code longer than 32 bits (46_huffman.md R237). -/

namespace Sys2Proof.Machine

section
variable {d : List Byte} {c : Byte} {bits : List Bool} (hc : c ∈ d) (hcode : HuffmanCode d c bits)
  (hlong : 32 < bits.length)
  (hleast : ∀ c' ∈ d, ∀ bits', HuffmanCode d c' bits' → 32 < bits'.length → c.toNat ≤ c'.toNat)
include hc hcode hlong hleast

/-- The search meets the symbols in ascending order, so every symbol in front of the least one with a long code has a code
that fits. -/
theorem firstTooLong_of_least_long : firstTooLong (buildCodes d) (symbolsOf d) = some c := by
  obtain ⟨hascending, hmem⟩ := isAlphabet_symbolsOf d
  obtain ⟨before, after, hsyms⟩ := List.append_of_mem ((hmem c).2 hc)
  refine List.find?_eq_some_iff_append.2 ⟨?_, before, after, hsyms, fun b hb => ?_⟩
  · simp only [(huffmanCode_iff d c bits hc).1 hcode, decide_eq_true_eq]
    exact hlong
  · have hbd : b ∈ d := (hmem b).1 (hsyms ▸ List.mem_append_left _ hb)
    obtain ⟨-, -, hcross⟩ := List.pairwise_append.1 (hsyms ▸ hascending)
    have hlt : b.toNat < c.toNat := hcross b hb c List.mem_cons_self
    obtain ⟨bits', hfound⟩ := exists_codeFor d b hbd
    have hfit : ¬ 32 < bits'.length := fun h =>
      Nat.not_le.2 hlt (hleast b hbd bits' ((huffmanCode_iff d b bits' hbd).2 hfound) h)
    simp only [hfound, Bool.not_eq_true', decide_eq_false_iff_not]
    exact hfit

/-- The body of HUF_BUILD raises for the least symbol with a long code. -/
theorem hufBuild_of_least_long : hufBuild d = .error ⟨.codeTooLong, infoOf c.toNat⟩ := by
  have hd : d ≠ [] := List.ne_nil_of_mem hc
  simp only [hufBuild, if_neg hd, firstTooLong_of_least_long hc hcode hlong hleast]

end

end Sys2Proof.Machine

open Sys2Proof Sys2Proof.Machine

/-- Settles O37: the search for a code that is too long stops at the symbol, and the body's error is of stage 5. -/
theorem hufBuildRefusesALongCode : Obligations.HufBuildRefusesALongCode := by
  intro s d c bits hr hl hsrc hc hcode hlong hleast
  have hbody : bodyOf .hufBuild s = .error ⟨.codeTooLong, infoOf c.toNat⟩ :=
    (congrArg hufBuild hsrc).trans (hufBuild_of_least_long hc hcode hlong hleast)
  exact exec_faultsLate .hufBuild s _ hr hl hbody

end

section
/-! SUPPORT. The faults of a command (60_exceptions.md R261 to R263): what each stage raises against the table of errors per
command, with the ERRINFO the row allows, and what a fault leaves (R262). -/

namespace Sys2Proof.Machine

/-! ## The row of R261 -/

/-- ERRINFO has the form the table gives: its value, an index below LEN_MAX = `n`, or a byte value (R263). -/
def InfoForm.Allows (n : Nat) (info : Word) : InfoForm → Prop
  | .value w => info = w
  | .index => info.toNat < n
  | .symbol => info.toNat < 256

/-- The error and its ERRINFO are of the command's row of R261, indexes being below `n`. -/
def Raise.OfRow (i : Instr) (n : Nat) (r : Raise) : Prop := ∃ e ∈ faultTable i, r.kind = e.1 ∧ e.2.Allows n r.info

theorem infoOf_toNat_le (j : Nat) : (infoOf j).toNat ≤ j := Nat.mod_le j _

section
variable {i : Instr} {n j : Nat} {k : ErrorKind}

theorem Raise.OfRow.value {w : Word} (h : (k, .value w) ∈ faultTable i) : Raise.OfRow i n ⟨k, w⟩ := ⟨_, h, rfl, rfl⟩

theorem Raise.OfRow.index (h : (k, .index) ∈ faultTable i) (hj : j < n) : Raise.OfRow i n ⟨k, infoOf j⟩ :=
  ⟨_, h, rfl, (infoOf_toNat_le j).trans_lt hj⟩

theorem Raise.OfRow.symbol (h : (k, .symbol) ∈ faultTable i) (hj : j < 256) : Raise.OfRow i n ⟨k, infoOf j⟩ :=
  ⟨_, h, rfl, (infoOf_toNat_le j).trans_lt hj⟩

end

/-! ### The row has the errors of the shared checks, for the operands the command uses (R93) -/

theorem tooLarge_source_mem_faultTable (i : Instr) : ∀ k ∈ [Operand.src0, .src1], (operandSize i k).isSome = true →
    (.tooLarge, .value (infoOf k.id)) ∈ faultTable i := by cases i <;> decide

theorem addressError_mem_faultTable (i : Instr) : ∀ k ∈ [Operand.src0, .src1, .dst0, .dst1],
    (operandSize i k).isSome = true → (.addressError, .value (infoOf k.id)) ∈ faultTable i := by cases i <;> decide

theorem bufferOverlap_mem_faultTable (i : Instr) : ∀ p ∈ overlapPairs, (operandSize i p.1).isSome = true →
    (operandSize i p.2).isSome = true →
    (.bufferOverlap, .value (infoOf (16 * p.1.id + p.2.id))) ∈ faultTable i := by cases i <;> decide

theorem outputOverflow_mem_faultTable (i : Instr) : ∀ k ∈ [Operand.dst0, .dst1], (operandSize i k).isSome = true →
    (.outputOverflow, .value (infoOf k.id)) ∈ faultTable i := by cases i <;> decide

/-! ## Stages 2 to 4 and 6 -/

/-- A check that raises for the elements with `p` raises for one of them. -/
theorem exists_of_findSome?_ite {α : Type} {p : α → Prop} [DecidablePred p] {f : α → Raise} {l : List α} {r : Raise}
    (h : (l.findSome? fun k => if p k then some (f k) else none) = some r) : ∃ k ∈ l, p k ∧ f k = r := by
  obtain ⟨k, hk, hr⟩ := List.exists_of_findSome?_eq_some h
  obtain ⟨hp, hr⟩ := Option.ite_none_right_eq_some.1 hr
  exact ⟨k, hk, hp, Option.some.inj hr⟩

section
variable {i : Instr} {s : State} {n : Nat} {r : Raise}

theorem sizeCheck_ofRow (h : sizeCheck i s = some r) : r.OfRow i n := by
  rw [sizeCheck_eq] at h
  obtain ⟨k, hk, hover, rfl⟩ := exists_of_findSome?_ite h
  by_cases hparam : k = .param
  · rw [OverLimit, if_pos hparam] at hover
    obtain ⟨rfl, -⟩ := hover
    rw [hparam]
    exact .value (by decide)
  · rw [OverLimit, if_neg hparam] at hover
    exact .value (tooLarge_source_mem_faultTable i k (by simpa [hparam] using hk) hover.1)

theorem addressCheck_ofRow (h : addressCheck i s = some r) : r.OfRow i n := by
  rw [addressCheck_eq] at h
  obtain ⟨k, hk, ⟨hused, -⟩, rfl⟩ := exists_of_findSome?_ite h
  exact .value (addressError_mem_faultTable i k hk hused)

theorem overlapCheck_ofRow (h : overlapCheck i s = some r) : r.OfRow i n := by
  rw [overlapCheck_eq] at h
  obtain ⟨p, hp, ⟨hused, hused', -⟩, rfl⟩ := exists_of_findSome?_ite h
  exact .value (bufferOverlap_mem_faultTable i p hp hused hused')

theorem preCheck_ofRow (h : preCheck i s = some r) : r.OfRow i n := by
  rw [preCheck_eq_or, Option.or_eq_some_iff, Option.or_eq_some_iff] at h
  rcases h with h | ⟨-, h | ⟨-, h⟩⟩
  · exact sizeCheck_ofRow h
  · exact addressCheck_ofRow h
  · exact overlapCheck_ofRow h

theorem capacityCheck_ofRow {b : BodyResult} (h : capacityCheck i b s = some r) : r.OfRow i n := by
  rw [capacityCheck_eq] at h
  obtain ⟨k, hk, ⟨hused, -⟩, rfl⟩ := exists_of_findSome?_ite h
  exact .value (outputOverflow_mem_faultTable i k hk hused)

end

/-! ## Stage 5: the errors of each body, with their index -/

section
variable {r : Raise} {l t a : List Byte}

theorem lt_length_of_interiorZero {k : Nat} (h : interiorZero t = some k) : k + 1 < t.length := by
  have hk := (List.findIdx?_eq_some_iff_getElem.1 h).1
  rw [List.length_dropLast] at hk
  omega

theorem sentinelInfo_le (t : List Byte) : sentinelInfo t ≤ t.length - 1 := by
  unfold sentinelInfo
  split
  · next k hk =>
    have hlt := lt_length_of_interiorZero hk
    omega
  · exact le_rfl

theorem prepText_error (h : prepText l = .error r) : ∃ k < l.length, r = ⟨.sentinelViolation, infoOf k⟩ := by
  unfold prepText at h
  split at h
  · next k hk => cases h; exact ⟨k, Nat.lt_of_succ_lt (lt_length_of_interiorZero hk), rfl⟩
  · cases h

theorem buildSuffixArray_error {builder : List Nat → List Nat} (h : buildSuffixArray builder t = .error r) :
    r = ⟨.sentinelViolation, infoOf (sentinelInfo t)⟩ := by
  unfold buildSuffixArray at h
  split at h <;> cases h
  rfl

theorem forwardTransform_error {sa : List Nat} (h : forwardTransform t sa = .error r) :
    r = ⟨.invalidArgument, 1⟩ ∨ ∃ k < t.length, r = ⟨.entryOutOfRange, infoOf k⟩ := by
  unfold forwardTransform at h
  split at h
  · cases h; exact .inl rfl
  · next hlen =>
    split at h
    · next k hk =>
      cases h
      exact .inr ⟨k, not_not.1 hlen ▸ (List.findIdx?_eq_some_iff_getElem.1 hk).1, rfl⟩
    · cases h

theorem lt_length_of_mem_zeroIndexes {q : Nat} (h : q ∈ zeroIndexes l) : q < l.length :=
  List.mem_range.1 (List.mem_filter.1 h).1

theorem inverseTransform_error (h : inverseTransform l = .error r) :
    r = ⟨.missingSentinel, 0⟩ ∨ ∃ k < l.length, r = ⟨.multipleSentinel, infoOf k⟩ := by
  unfold inverseTransform at h
  split at h
  · cases h; exact .inl rfl
  · cases h
  · next p q rest hzeros =>
    cases h
    exact .inr ⟨q, lt_length_of_mem_zeroIndexes (by simp [hzeros]), rfl⟩

section
variable {loop : Nat → List Byte → List Byte → Except Raise (List Byte)} {k : ErrorKind}

/-- An MTF loop that raises at the index it stands at, or in the rest of its input, raises at an index of its input. -/
theorem coderLoop_error (hnil : ∀ n a, loop n a [] = .ok [])
    (hcons : ∀ n a b l, loop n a (b :: l) = .error r → r = ⟨k, infoOf n⟩ ∨ ∃ a', loop (n + 1) a' l = .error r) {n : Nat}
    (h : loop n a l = .error r) : ∃ j < n + l.length, r = ⟨k, infoOf j⟩ := by
  induction l generalizing n a with
  | nil => rw [hnil] at h; cases h
  | cons b l ih =>
    rw [List.length_cons, Nat.add_comm l.length, ← Nat.add_assoc]
    rcases hcons n a b l h with hr | ⟨a', hrest⟩
    · exact ⟨n, by omega, hr⟩
    · exact ih hrest

end

theorem mtfEncode_error {n : Nat} (h : mtfEncode n a l = .error r) :
    ∃ j < n + l.length, r = ⟨.symbolNotInAlphabet, infoOf j⟩ := by
  refine coderLoop_error (loop := mtfEncode) (fun _ _ => rfl) (fun n a b l h => ?_) h
  unfold mtfEncode at h
  split at h
  · cases h; exact .inl rfl
  · split at h
    · next hrest => cases h; exact .inr ⟨_, hrest⟩
    · cases h

theorem mtfDecode_error {n : Nat} (h : mtfDecode n a l = .error r) :
    ∃ j < n + l.length, r = ⟨.indexOutOfRange, infoOf j⟩ := by
  refine coderLoop_error (loop := mtfDecode) (fun _ _ => rfl) (fun n a b l h => ?_) h
  unfold mtfDecode at h
  split at h
  · cases h; exact .inl rfl
  · split at h
    · next hrest => cases h; exact .inr ⟨_, hrest⟩
    · cases h

theorem recencyCoder_error {loop : Nat → List Byte → List Byte → Except Raise (List Byte)}
    (h : recencyCoder loop l a = .error r) : r = ⟨.invalidArgument, 1⟩ ∨ loop 0 a l = .error r := by
  unfold recencyCoder at h
  split at h
  · cases h; exact .inl rfl
  · split at h
    · next hloop => cases h; exact .inr hloop
    · cases h

theorem hufBuild_error (h : hufBuild l = .error r) : ∃ c : Byte, r = ⟨.codeTooLong, infoOf c.toNat⟩ := by
  unfold hufBuild at h
  split at h
  · cases h
  · dsimp only at h
    split at h
    · next c _ => cases h; exact ⟨c, rfl⟩
    · cases h

theorem firstCorrupt_lt {j m : Nat} {earlier cb : List Entry} (h : firstCorrupt j earlier cb = some m) :
    m < j + cb.length := by
  induction cb generalizing j earlier with
  | nil => cases h
  | cons e cb ih =>
    rw [List.length_cons, Nat.add_comm cb.length, ← Nat.add_assoc]
    unfold firstCorrupt at h
    split at h
    · exact ih h
    · cases h; omega

/-- The walk raises at one of the symbols it is still to produce. -/
theorem walkDecode_error {root node : Trie} {bits : List Bool} {k left pos : Nat}
    (h : walkDecode root bits node k left pos = .error r) :
    ∃ j < k + left, r = ⟨.truncatedBitstream, infoOf j⟩ ∨ r = ⟨.invalidCode, infoOf j⟩ := by
  induction bits generalizing node k left pos with
  | nil =>
    cases left with
    | zero => cases h
    | succ left => cases h; exact ⟨k, by omega, .inl rfl⟩
  | cons b bits ih =>
    cases left with
    | zero => cases h
    | succ left =>
      unfold walkDecode at h
      split at h
      · cases h; exact ⟨k, by omega, .inr rfl⟩
      · split at h
        · next hrest =>
          cases h
          rw [Nat.add_comm left, ← Nat.add_assoc]
          exact ih hrest
        · cases h
      · exact ih h

theorem hufDecode_error {cb : List Entry} {n : Nat} (h : hufDecode l cb n = .error r) :
    (∃ j < cb.length, r = ⟨.codebookCorrupt, infoOf j⟩) ∨
      ∃ j < n, r = ⟨.truncatedBitstream, infoOf j⟩ ∨ r = ⟨.invalidCode, infoOf j⟩ := by
  unfold hufDecode at h
  split at h
  · next j hj =>
    cases h
    exact .inl ⟨j, Nat.zero_add cb.length ▸ firstCorrupt_lt hj, rfl⟩
  · dsimp only at h
    split at h
    · next hwalk =>
      cases h
      exact .inr (Nat.zero_add n ▸ walkDecode_error hwalk)
    · cases h

end

/-! ### On legal operands the index is below LEN_MAX (R115, R263) -/

section
variable {i : Instr} {s : State} {r : Raise}

theorem lenMax_pos (s : State) : 0 < s.params.lenMax := Nat.succ_pos _

theorem operandCount_le_lenMax (hl : OperandsLegal i s) {k : Operand} (hk : k ∈ [Operand.src0, .src1])
    (hused : (operandSize i k).isSome = true) : operandCount s.args k ≤ s.params.lenMax := by
  by_contra hlong
  have hlong := Nat.not_le.1 hlong
  have hparam : k ≠ .param := by rintro rfl; exact absurd hk (by decide)
  refine hl.1 k (List.mem_append_left [Operand.param] hk) ?_
  rw [OverLimit, if_neg hparam]
  refine ⟨hused, ?_⟩
  split
  · exact hlong.le
  · exact hlong

theorem length_src0_le_lenMax (hl : OperandsLegal i s) (hused : (operandSize i .src0).isSome = true) :
    (s.bytesOf .src0).length ≤ s.params.lenMax := by
  rw [length_bytesOf]
  exact operandCount_le_lenMax hl (by decide) hused

theorem param_le_lenMax (hl : OperandsLegal .hufDec s) : operandCount s.args .param ≤ s.params.lenMax :=
  Nat.not_lt.1 fun hlong => hl.1 .param (by decide) ⟨rfl, hlong⟩

/-- Both builders: the misplaced or missing 0 byte is at an index of the source, or the source is empty and the index 0. -/
theorem buildSuffixArray_ofRow (hrow : (.sentinelViolation, .index) ∈ faultTable i) {builder : List Nat → List Nat}
    (hlen : (s.bytesOf .src0).length ≤ s.params.lenMax) (h : buildSuffixArray builder (s.bytesOf .src0) = .error r) :
    r.OfRow i s.params.lenMax := by
  rw [buildSuffixArray_error h]
  have hpos := lenMax_pos s
  have hle := sentinelInfo_le (s.bytesOf .src0)
  exact .index hrow (by omega)

/-- Both MTF coders: the Alphabet is too long, or the loop raises at an index of the source. -/
theorem recencyCoder_ofRow {loop : Nat → List Byte → List Byte → Except Raise (List Byte)} {k : ErrorKind}
    {a l : List Byte} (hlong : (.invalidArgument, .value 1) ∈ faultTable i) (hrow : (k, .index) ∈ faultTable i)
    (hloop : ∀ {r}, loop 0 a l = .error r → ∃ j < 0 + l.length, r = ⟨k, infoOf j⟩) (hlen : l.length ≤ s.params.lenMax)
    (h : recencyCoder loop l a = .error r) : r.OfRow i s.params.lenMax := by
  rcases recencyCoder_error h with rfl | herr
  · exact .value hlong
  · obtain ⟨j, hj, rfl⟩ := hloop herr
    exact .index hrow (by omega)

/-- A body's error is of the command's row, its index below LEN_MAX. -/
theorem bodyOf_error_ofRow (hl : OperandsLegal i s) (h : bodyOf i s = .error r) : r.OfRow i s.params.lenMax := by
  cases i with
  | nop => cases h
  | saPrep =>
    obtain ⟨k, hk, rfl⟩ := prepText_error h
    exact .index (by decide) (hk.trans_le (length_src0_le_lenMax hl rfl))
  | saSais => exact buildSuffixArray_ofRow (by decide) (length_src0_le_lenMax hl rfl) h
  | saPd => exact buildSuffixArray_ofRow (by decide) (length_src0_le_lenMax hl rfl) h
  | bwtFwd =>
    rcases forwardTransform_error h with rfl | ⟨k, hk, rfl⟩
    · exact .value (by decide)
    · exact .index (by decide) (hk.trans_le (length_src0_le_lenMax hl rfl))
  | bwtInv =>
    rcases inverseTransform_error h with rfl | ⟨k, hk, rfl⟩
    · exact .value (by decide)
    · exact .index (by decide) (hk.trans_le (length_src0_le_lenMax hl rfl))
  | alphaScan => cases h
  | mtfEnc => exact recencyCoder_ofRow (by decide) (by decide) mtfEncode_error (length_src0_le_lenMax hl rfl) h
  | mtfDec => exact recencyCoder_ofRow (by decide) (by decide) mtfDecode_error (length_src0_le_lenMax hl rfl) h
  | rleEnc => cases h
  | rleDec => cases h
  | hufBuild =>
    obtain ⟨c, rfl⟩ := hufBuild_error h
    exact .symbol (by decide) c.isLt
  | hufDec =>
    rcases hufDecode_error h with ⟨j, hj, rfl⟩ | ⟨j, hj, rfl | rfl⟩
    · have hcount : (s.entriesOf .src1).length = operandCount s.args .src1 := by simp [State.entriesOf]
      exact .index (by decide) (hj.trans_le (hcount ▸ operandCount_le_lenMax hl (by decide) rfl))
    · exact .index (by decide) (hj.trans_le (param_le_lenMax hl))
    · exact .index (by decide) (hj.trans_le (param_le_lenMax hl))

/-! ## The end of a command by a fault (R262) -/

/-- Without a race a command that ends with ERR took a fault of its row. -/
theorem exec_err_cases {t : State} (hr : s.raced = false) (h : exec i s = .next t) (herr : t.status.err = true) :
    ∃ r : Raise, r.OfRow i s.params.lenMax ∧ t = takeFault (some i) r s := by
  rw [exec_not_raced i s hr] at h
  cases h
  rcases completeWith_cases i (bodyOf i) s with
    ⟨r, hp, ht⟩ | ⟨hl, r, hb, ht⟩ | ⟨-, b, -, ⟨r, hc, ht⟩ | ⟨-, ht⟩⟩
  · exact ⟨r, preCheck_ofRow hp, ht⟩
  · exact ⟨r, bodyOf_error_ofRow hl hb, ht⟩
  · exact ⟨r, capacityCheck_ofRow hc, ht⟩
  · rw [ht] at herr
    cases herr

/-- A fault of a stage before 5 writes no byte. -/
theorem takeFault_mem_of_early (i : Instr) (s : State) (hearly : r.kind.stage < 5) :
    (takeFault (some i) r s).mem = s.mem := if_neg (Nat.not_le.2 hearly)

/-- The codes up to 4 are those of stages 1 to 4 (R260). -/
theorem ErrorKind.stage_lt_of_code_le (k : ErrorKind) : k.code.toNat ≤ 4 → k.stage < 5 := by cases k <;> decide

end

end Sys2Proof.Machine

open Sys2Proof Sys2Proof.Machine

/-- Settles O41: the command took a fault, which writes at most its destinations, and no byte if its code is of stages 1 to
4. -/
theorem faultsHaveTheEffectsOfTheFaultRule : Obligations.FaultsHaveTheEffectsOfTheFaultRule := by
  intro i s t hr h herr
  obtain ⟨r, -, rfl⟩ := exec_err_cases hr h herr
  exact ⟨rfl, rfl, rfl, rfl, r.kind.code_ne_zero, finish_keepsInputs _ _ _ _ _,
    fun hcode => takeFault_mem_of_early i s (r.kind.stage_lt_of_code_le hcode), takeFault_unchangedOutside i r s⟩

/-- Settles O42: the command took a fault, and every stage raises only errors of the row, indexes being below LEN_MAX. -/
theorem faultsAreOfTheCommandsRow : Obligations.FaultsAreOfTheCommandsRow := by
  intro i s t hr h herr
  obtain ⟨r, ⟨e, he, hkind, hinfo⟩, rfl⟩ := exec_err_cases hr h herr
  exact ⟨e, he, congrArg ErrorKind.code hkind, hinfo⟩

end

section
/-! SUPPORT. The reset event and the idle block (70_reset_and_hazards.md R290 to R293). -/

namespace Sys2Proof.Machine

section
variable {s : State}

theorem resetMem_idle (h : s.status.busy = false) : resetMem s = s.mem := by
  unfold resetMem
  rw [h]
  rfl

theorem resetMem_illegal {e : DecodeError} (h : decode s.cmd = .error e) : resetMem s = s.mem := by
  unfold resetMem
  rw [h]
  exact ite_self _

/-- A reset changes no byte outside the destination ranges of the command in CMD (R292). -/
theorem read_resetMem_outside {i : Instr} (h : decode s.cmd = .ok i) {b : Nat}
    (hb : inRanges (dstRanges i s.args) b = false) : (resetMem s).read b = s.mem.read b := by
  unfold resetMem
  rw [h]
  split
  · exact read_fillDsts i s b hb
  · rfl

end

end Sys2Proof.Machine

open Sys2Proof Sys2Proof.Machine

/-- Settles O49: the step is the reset event, which fills at most the destinations of a command in progress. -/
theorem resetEventEffects : Obligations.ResetEventEffects := by
  intro s rest hturn hh
  refine ⟨_, step_host s .reset rest hturn hh, rfl, rfl, rfl, rfl, rfl, rfl, rfl, rfl, ?_, ?_, ?_⟩
  · exact fun hidle => resetMem_idle (s := takeAction .reset rest s) hidle
  · exact fun i hi b hb => read_resetMem_outside (s := takeAction .reset rest s) hi hb
  · exact fun e he => resetMem_illegal (s := takeAction .reset rest s) he

/-- Settles O6: with no action left the host's turn changes nothing. -/
theorem idleBlockStays : Obligations.IdleBlockStays := fun s hidle hnone => step_idle s hidle hnone

end
